-- ==== Sys2Proof/Word.lean ====
section
/-! DEFINITION. The word types of FPX751 and their plainest operations (spec/00_scope.md R10, R11, R15). -/

namespace Sys2Proof

/-- A digit: one 64-bit unsigned machine word, the atomic unit of every multiprecision value (R11, R19). -/
abbrev Digit := BitVec 64

/-- The contents of one F register: 12 digits, identified with the value of the digit sequence (R11, R20). -/
abbrev Felm := BitVec 768

/-- A 24-digit sequence: the wide view of a register pair, or a double-width buffer (R12, R19). -/
abbrev Wide := BitVec 1536

/-- A command word (R80). -/
abbrev Command := BitVec 32

/-- A word address of the host port (R51). -/
abbrev Addr := BitVec 16

/-- The number of an F register, 0 to 31 (R20, R80). -/
abbrev FReg := Fin 32

/-- The number of a D register, 0 to 7 (R25, R80). -/
abbrev DReg := Fin 8

/-- The all-zero mask (R15). -/
def all0 : Digit := 0

/-- The all-one mask (R15). -/
def all1 : Digit := 0xFFFFFFFFFFFFFFFF

/-- A boolean result as a digit: 1 for true and 0 for false (R15, R25). -/
def boolDigit (b : Bool) : Digit := if b then 1 else 0

end Sys2Proof
end

