-- ==== Sys2Proof/Machine/Flags.lean ====
section
/-! DEFINITION. The boolean outputs of the digit layer (spec/10_state.md R25, R26): the block has no flags register, a boolean
goes to the D register the command names, as the digit 0 or 1. Width n is 768 or 1536 (spec/40_digit_layer.md). -/

namespace Sys2Proof.Machine

/-- The carry out of the top digit of a + b (R103, R113). -/
def carryOut {n : Nat} (a b : BitVec n) : Digit := boolDigit (decide (2 ^ n ≤ a.toNat + b.toNat))

/-- The borrow out of a − b: a < b as unsigned integers (R104, R114). -/
def borrowOut {n : Nat} (a b : BitVec n) : Digit := boolDigit (decide (a.toNat < b.toNat))

/-- All digits are zero (R107, R117). -/
def isZero {n : Nat} (a : BitVec n) : Digit := boolDigit (a == 0)

/-- Bit 0 of the lowest digit is 0 (R108, R118). -/
def isEven {n : Nat} (a : BitVec n) : Digit := boolDigit (a.toNat % 2 == 0)

/-- Unsigned comparison (R109, R119). -/
def isLess {n : Nat} (a b : BitVec n) : Digit := boolDigit (decide (a.toNat < b.toNat))

end Sys2Proof.Machine
end

