-- ==== Sys2Proof/Config.lean ====
section
/-! DEFINITION. What is fixed for the machine: the parameters and constants of spec/00_scope.md R7 to R9 and
spec/10_state.md R27 to R29, R33, and the free values of R16 (opaque constants: nothing constrains them). -/

namespace Sys2Proof.Config

/-- R = 2^(NWORDS_FIELD·RADIX) = 2^768 (R7). -/
def R : Nat := 2 ^ 768

/-- The modulus P = 2^372·3^239 − 1, by the digits of R28.
PRESUMED (log entry 1): the spec marks the value as general knowledge; R8 gives only its properties. -/
def P : Nat :=
  0x6FE5D541F71C0E12909F97BADC668562B5045CB25748084E9867D6EBE876DA959B1A13F7CC76E3EC968549F878A8EEAFFFFFFFFFFFFFFFFFFFFFFFFFFFFFFFFFFFFFFFFFFFFFFFFFFFFFFFFFFFFFFFFFFFFFFFFFFFFFFFFFFFFFFFFFFFFF

/-- The constant P1 = P + 1 (R27, R29). -/
def P1 : Nat := P + 1

/-- The constant R2 = R² mod P (R27, R29). -/
def R2 : Nat := R * R % P

/-- The integer 1 as a field element, used by FPFROMMONT (R29). -/
def one : Nat := 1

/-- ONE_M = R mod P, the Montgomery form of 1 (R29). -/
def oneM : Nat := R % P

/-- R⁻¹ mod P (R10). The digits are those of spec/95_test_vectors.md section 0, RINV; that they are the inverse of
R modulo P is `Sys2Proof.Laws.R_mul_Rinv_mod`. They depend on the value of P (log entry 1). -/
def Rinv : Nat :=
  0x10697B6387EB53CCDBC062EB0C61F118A0C0E417A25D438209E6CE499615F828587C510583CF29EBE4D49805C5C62F75F424F8DF437CFA421554FE2E49CA85BAB790796CF84D4D74319A6C9BCA37551AE9F5F5F6AFF3B7F731B89B2DA43F

/-- The ID register's constant value (R33): 12, 64, 32, 8 and command-set version 1. -/
def ident : Digit := 0x000000010820400C

/-- The free value `ANY_768` of draw number n (R16): any 768-bit value, possibly another at each draw.
DESIGN CHOICE (log entry 2): the form; no body, so nothing constrains it. -/
opaque anyFelm : Nat → Felm

/-- What `montgomery_reduce` answers for T >= P·R, which the spec leaves as `ANY_768` (R151, U4).
DESIGN CHOICE (log entry 7): no command reaches it when its preconditions hold. -/
opaque reduceBeyond : Nat → Felm

/-- One less than the latency of an opcode: with it `LAT(opcode)` is positive and otherwise open (R285).
DESIGN CHOICE (log entry 12). -/
opaque latencyPred : BitVec 8 → Nat

/-- The parameter `LAT(opcode)`: a positive number of clock cycles for each opcode (R9, R285). No value depends on it. -/
def lat (op : BitVec 8) : Nat := latencyPred op + 1

end Sys2Proof.Config
end

