-- ==== Sys2Proof/Machine/State.lean ====
section
/-! DEFINITION. The state of FPX751 (spec/10_state.md): "The complete state of the block is: F[0..31], D[0..7], STATUS,
ERRINFO". Beside it stand the model's own fields: the host's pending events, the last reply, the build parameter
DEBUG_CHECKS and the counter of free values. There is no memory, program counter, mode or flag (R26, R34, R37). -/

namespace Sys2Proof.Machine

/-- What the world outside can do to the block (R52, R270). -/
inductive HostEvent where
  /-- `MemRead(addr, 1)` (R13, R52). -/
  | read (addr : Addr)
  /-- `MemWrite(addr, 1, v)` (R13, R52). -/
  | write (addr : Addr) (data : Digit)
  /-- The reset input is asserted (R270 b). -/
  | resetInput
  /-- Power-on (R270 a). -/
  | powerOn
  deriving DecidableEq, Repr

/-- The cause codes of R241 that are ever raised. Each names an event after which the block goes on: raising one is a
next state (R242), not a stop. -/
inductive Cause where
  | illegalOpcode
  | illegalOperand
  | hostAccess
  | precondition
  deriving DecidableEq, Repr

/-- The 4-bit code of a cause (R241). -/
def Cause.code : Cause → BitVec 4
  | .illegalOpcode => 1
  | .illegalOperand => 2
  | .hostAccess => 3
  | .precondition => 4

/-- The machine. -/
structure State where
  /-- F[0] to F[31] (R20). -/
  F : Vector Felm 32
  /-- D[0] to D[7] (R25). -/
  D : Vector Digit 8
  /-- STATUS.ERR, bit 0 of STATUS (R30). -/
  err : Bool
  /-- STATUS.CAUSE, bits 7:4 of STATUS (R30). -/
  cause : BitVec 4
  /-- ERRINFO (R31). -/
  errinfo : Digit
  /-- The host events not yet performed, oldest first: the total order of R60.
  DESIGN CHOICE (log entry 5). -/
  pending : List HostEvent
  /-- The value the last transaction returned to the host; none if it returned none (R13, R52).
  DESIGN CHOICE (log entry 6). -/
  reply : Option Digit
  /-- The build parameter DEBUG_CHECKS (R9, R246); no step changes it. DESIGN CHOICE (log entry 4). -/
  debugChecks : Bool
  /-- How many free values `ANY_768` have been drawn (R16). DESIGN CHOICE (log entry 3). -/
  draws : Nat
  deriving DecidableEq, Repr

/-- A reason for the machine to stop. The spec gives every host transaction an outcome after which the block goes on
(R84 "Decoding is total", R242, decision D10): nothing stops it, so there is no such reason (log entry 10; safe). -/
inductive Fault where
  deriving DecidableEq, Repr

/-- A reason for the model to refuse an instruction. -/
inductive Refusal where
  /-- Raised by an arm of exec whose instruction has no meaning yet. Safe. No arm raises it (log entry 10). -/
  | notModelled (mnemonic : String)
  deriving DecidableEq, Repr

/-- What one step or one command answers. -/
abbrev Result := Host.Outcome State Fault Refusal

/-- The machine right after reset (R38, R270): every F digit, every D register, STATUS and ERRINFO are 0. The model's own
fields: no event pending, no reply, DEBUG_CHECKS at its default false (R9), no free value drawn
(DESIGN CHOICE, log entries 3 to 6). -/
def State.reset : State where
  F := Vector.replicate 32 0
  D := Vector.replicate 8 0
  err := false
  cause := 0
  errinfo := 0
  pending := []
  reply := none
  debugChecks := false
  draws := 0

end Sys2Proof.Machine
end

