-- ==== Sys2Proof/Machine/Ops.lean ====
section
/-! DEFINITION. The named operations over registers, the entry into the fault state and the way out of it
(spec/60_exceptions.md R242, R244), and the free values of an unmet precondition (spec/00_scope.md R16, R18). -/

namespace Sys2Proof.Machine

/-! ### Registers (spec/00_scope.md R12) -/

/-- `F[r]`. -/
def State.readF (s : State) (r : FReg) : Felm := s.F[r]

/-- `F[r] <- v`. -/
def State.writeF (s : State) (r : FReg) (v : Felm) : State := { s with F := s.F.set r v }

/-- `D[k]`. -/
def State.readD (s : State) (k : DReg) : Digit := s.D[k]

/-- `D[k] <- v`. -/
def State.writeD (s : State) (k : DReg) (v : Digit) : State := { s with D := s.D.set k v }

/-- Several register writes, one after another. Commands compute every value before the first write (R17). -/
def State.writeFs (s : State) (l : List (FReg × Felm)) : State := l.foldl (fun s p => s.writeF p.1 p.2) s

/-- The value an integer has in an F register: its residue modulo 2^768. -/
def felm (n : Nat) : Felm := BitVec.ofNat 768 n

/-! ### Digits of a register (R11, R61) -/

/-- Digit j of a register's value; digit 0 is the least significant. -/
def digit (x : Felm) (j : Fin 12) : Digit := x.extractLsb' (64 * j.val) 64

/-- The value with digit j replaced, the other eleven digits kept (R54). -/
def setDigit (x : Felm) (j : Fin 12) (v : Digit) : Felm :=
  (x &&& ~~~((BitVec.allOnes 64).setWidth 768 <<< (64 * j.val))) ||| (v.setWidth 768 <<< (64 * j.val))

/-! ### STATUS (spec/10_state.md R30) -/

/-- The STATUS register as the host reads it: ERR in bit 0, CAUSE in bits 7:4, every other bit 0. -/
def State.status (s : State) : Digit := (0#56 ++ s.cause ++ 0#3 ++ BitVec.ofBool s.err : BitVec 64)

/-! ### Faults and reset -/

/-- Fault entry, `raise Fault(cause, info)` (R242): the first fault is recorded, a later one is absorbed (R244); no
register changes and control goes nowhere. -/
def State.raiseFault (s : State) (c : Cause) (info : Digit) : State :=
  if s.err then s else { s with err := true, cause := c.code, errinfo := info }

/-- Reset (R270): every F digit, every D register, STATUS and ERRINFO become 0. It is the only exit from the fault state
(R244). The host's pending events, the reply, the build parameter and the count of draws are no state of the block and
stay (log entries 3 to 6). -/
def State.doReset (s : State) : State :=
  { s with F := Vector.replicate 32 0, D := Vector.replicate 8 0, err := false, cause := 0, errinfo := 0 }

/-! ### Free values (R16, R18) -/

/-- `F[r] <- ANY_768`: the next free value, and one more draw counted. -/
def State.writeAny (s : State) (r : FReg) : State :=
  { s.writeF r (Config.anyFelm s.draws) with draws := s.draws + 1 }

/-- Every register of the list gets a free value of its own (93_implementation_defined.md U1, U2: "independent").
A register listed twice is drawn twice and keeps the later value (log entry 2). -/
def State.writeAnys (s : State) (rs : List FReg) : State := rs.foldl State.writeAny s

/-- `MemRead` returns a value to the host (R13). -/
def State.answer (s : State) (v : Digit) : State := { s with reply := some v }

end Sys2Proof.Machine
end

