-- ==== Sys2Proof/Machine/Field.lean ====
section
/-! DEFINITION. The functions of the field layers on integers: the base-field backend (spec/41_base_field.md R131, R138), the
Montgomery multiplier (spec/42_montgomery.md R150 to R152), the inversion engine (spec/43_inversion.md R171 to R173, R177)
and the GF(p²) formulas (spec/44_gfp2.md R197 to R199). Values are exact integers; a command narrows its results. -/

namespace Sys2Proof.Machine

open Sys2Proof.Config

/-! ### The base-field backend (R131): for a, b in [0, P) -/

/-- (a + b) mod p. -/
def fpadd (a b : Nat) : Nat := (a + b) % P

/-- (a − b) mod p. -/
def fpsub (a b : Nat) : Nat := if b ≤ a then a - b else a + P - b

/-- (−a) mod p. -/
def fpneg (a : Nat) : Nat := if a = 0 then 0 else P - a

/-- a·2⁻¹ mod p. -/
def fpdiv2 (a : Nat) : Nat := if a % 2 = 0 then a / 2 else (a + P) / 2

/-- The unreduced adder of the GF(p²) layer: the digit-layer add with the carry ignored (R138). -/
def mpadd (a b : Nat) : Nat := (a + b) % 2 ^ 768

/-! ### The Montgomery multiplier -/

/-- The exact double-width product (R150). -/
def rawMultiply (a b : Nat) : Nat := a * b

/-- For T < P·R the unique c in [0, P) with c·R ≡ T (mod P), that is T·R⁻¹ mod P; beyond, a free value
(R151; log entry 7). -/
def montgomeryReduce (T : Nat) : Nat :=
  if T < P * R then T * Rinv % P else (reduceBeyond T).toNat

/-- The Montgomery product (R152). -/
def mm (x y : Nat) : Nat := montgomeryReduce (rawMultiply x y)

/-- The Montgomery square (R152). -/
def msqr (x : Nat) : Nat := mm x x

/-! ### The inversion engine -/

/-- The table exponents EXP[0..26] (R172). -/
def exps : List Nat :=
  [1, 3, 5, 7, 11, 13, 15, 17, 19, 21, 25, 27, 29, 31, 33, 35, 37, 39, 41, 43, 45, 47, 51, 53, 55, 57, 63]

/-- Steps 1 to 55 of the schedule CHAIN: pairs (number of squarings, table index) (R173, part 1). -/
def chainHead : List (Nat × Nat) :=
  [
   (6, 21), (6, 25), (6, 12), (6, 9), (8, 3), (6, 24), (6, 3), (9, 3), (10, 16), (8, 14), (8, 26),
   (8, 21), (6, 12), (6, 11), (6, 15), (6, 5), (10, 19), (6, 2), (7, 23), (10, 7), (7, 25), (6, 10),
   (8, 19), (6, 18), (8, 0), (10, 17), (6, 8), (10, 22), (5, 12), (6, 11), (6, 19), (5, 12), (7, 3),
   (6, 11), (7, 23), (8, 19), (6, 5), (6, 15), (7, 14), (6, 6), (6, 24), (6, 22), (6, 3), (7, 24),
   (8, 13), (6, 10), (6, 4), (7, 14), (7, 18), (8, 26), (8, 6), (8, 9), (6, 3), (6, 12), (7, 21)]

/-- The schedule CHAIN: 117 steps (R173). -/
def chain : List (Nat × Nat) := chainHead ++ List.replicate 61 (6, 26) ++ [(2, 0)]

/-- The exponents 3, 5, 7, ..., 63 of the table-building loop (R171). -/
def oddExps : List Nat := (List.range 31).map fun n => 2 * n + 3

/-- One turn of the table-building loop: y <- mm(y, tt), kept when its exponent is the next of EXP (R171). -/
def tableStep (tt : Nat) (st : Nat × List Nat) (e : Nat) : Nat × List Nat :=
  let y := mm st.1 tt
  (y, if exps[st.2.length]? = some e then st.2 ++ [y] else st.2)

/-- The table T[0..26] of Montgomery powers of x (R171, R172). -/
def finvTable (x : Nat) : List Nat := (oddExps.foldl (tableStep (msqr x)) (x, [x])).2

/-- A burst of s squarings (R171). -/
def squarings : Nat → Nat → Nat
  | 0, acc => acc
  | s + 1, acc => squarings s (msqr acc)

/-- One step of the chain: a burst of squarings, then one multiplication by a table entry (R171). -/
def chainStep (T : List Nat) (acc : Nat) (step : Nat × Nat) : Nat := mm (squarings step.1 acc) (T.getD step.2 0)

/-- finv (R171). -/
def finv (x : Nat) : Nat :=
  let T := finvTable x
  chain.foldl (chainStep T) (T.getD 0 0)

/-! ### The same run, instrumented (R177, R285) -/

/-- The kinds of Montgomery operation finv executes; a multiplication in the chain carries its table index (R177). -/
inductive FinvOp where
  | square
  | multiplyBySquare
  | multiplyByTable (index : Nat)
  deriving DecidableEq, Repr

/-- A value with the operations that led to it, in order. -/
abbrev Logged := Nat × List FinvOp

/-- `tableStep`, logging. -/
def tableStepLogged (tt : Nat) (st : (Nat × List Nat) × List FinvOp) (e : Nat) : (Nat × List Nat) × List FinvOp :=
  let y := mm st.1.1 tt
  ((y, if exps[st.1.2.length]? = some e then st.1.2 ++ [y] else st.1.2), st.2 ++ [.multiplyBySquare])

/-- `squarings`, logging. -/
def squaringsLogged : Nat → Logged → Logged
  | 0, acc => acc
  | s + 1, acc => squaringsLogged s (msqr acc.1, acc.2 ++ [.square])

/-- `chainStep`, logging. -/
def chainStepLogged (T : List Nat) (acc : Logged) (step : Nat × Nat) : Logged :=
  let burst := squaringsLogged step.1 acc
  (mm burst.1 (T.getD step.2 0), burst.2 ++ [.multiplyByTable step.2])

/-- `finv`, logging every squaring and multiplication it executes. -/
def finvLogged (x : Nat) : Logged :=
  let table := oddExps.foldl (tableStepLogged (msqr x)) ((x, [x]), [.square])
  let T := table.1.2
  chain.foldl (chainStepLogged T) (T.getD 0 0, table.2)

/-- The operations of every execution of finv, whatever the operand: one squaring, 31 multiplications by the square, then
for each chain step its squarings and one multiplication by a table entry (R177; 95_test_vectors.md S10). -/
def finvTrace : List FinvOp :=
  .square :: List.replicate 31 .multiplyBySquare ++
    chain.flatMap fun step => List.replicate step.1 .square ++ [.multiplyByTable step.2]

/-- The exponent of acc after each chain step: E·2^s + EXP[i] (R174). -/
def exponentStep (E : Nat) (step : Nat × Nat) : Nat := E * 2 ^ step.1 + exps.getD step.2 0

/-! ### GF(p²) -/

/-- A mask digit repeated over the twelve digits of a field element (R15, R221). -/
def spread (m : Digit) : Felm := BitVec.replicate 12 m

/-- The squarer (R197): c0 = (a0 + a1)(a0 − a1), c1 = 2·a0·a1, the sums unreduced, the difference modular (C1). -/
def f2sqr (a0 a1 : Nat) : Nat × Nat :=
  let t1 := mpadd a0 a1
  let t2 := fpsub a0 a1
  let t3 := mpadd a0 a0
  (mm t1 t2, mm t3 a1)

/-- The Karatsuba multiplier (R198): three raw multiplications on 24-digit buffers, a conditional add of P to the upper
twelve digits by a borrow-derived mask, and two reductions. -/
def f2mul (a0 a1 b0 b1 : Nat) : Nat × Nat :=
  let t1 : Wide := BitVec.ofNat 1536 (rawMultiply a0 b0)
  let t2 : Wide := BitVec.ofNat 1536 (rawMultiply a1 b1)
  let borrow := borrowOut t1 t2
  let mask := 0 - borrow
  let T0 : Wide := (t1 - t2) + ((felm P &&& spread mask).setWidth 1536 <<< 768)
  let s1 := mpadd a0 a1
  let s2 := mpadd b0 b1
  let tt : Wide := BitVec.ofNat 1536 (rawMultiply s1 s2)
  let T1 : Wide := tt - t1 - t2
  (montgomeryReduce T0.toNat, montgomeryReduce T1.toNat)

/-- The norm inverter (R199). -/
def f2inv (a0 a1 : Nat) : Nat × Nat :=
  let n := fpadd (msqr a0) (msqr a1)
  let ni := finv n
  (mm a0 ni, mm (fpneg a1) ni)

/-! ### Select and swap (R221) -/

/-- z = x XOR (m AND (x XOR y)) on every digit. -/
def selectFelm (m : Digit) (x y : Felm) : Felm := x ^^^ (spread m &&& (x ^^^ y))

end Sys2Proof.Machine
end

