-- ==== Sys2Proof/Syntax.lean ====
section
/-! DEFINITION. The command set of FPX751: one constructor per row of spec/opcode_table.json, that is of
spec/30_encoding.md R85. -/

namespace Sys2Proof

/-- The formats of R81: which fields of the command word a command uses. -/
inductive Format where
  | z | u | b | bc | p1 | p2 | s | x
  deriving DecidableEq, Repr

/-- The 43 commands. A register operand is the number of the first F register of its group, as the command word
holds it (R80, R82); operands stand in the order ra, rb, rc, dd (R90). -/
inductive Instr where
  -- Digit layer, narrow (spec/40_digit_layer.md section 1)
  | mpcopy (ra rb : FReg)
  | mpzero (ra : FReg)
  | mpadd (ra rb rc : FReg) (dd : DReg)
  | mpsub (ra rb rc : FReg) (dd : DReg)
  | mpshr1 (ra rb : FReg)
  | mpshl1 (ra rb : FReg)
  | mpiszero (rb : FReg) (dd : DReg)
  | mpiseven (rb : FReg) (dd : DReg)
  | mpislt (rb rc : FReg) (dd : DReg)
  -- Digit layer, wide (spec/40_digit_layer.md section 2)
  | mpcopyw (ra rb : FReg)
  | mpzerow (ra : FReg)
  | mpaddw (ra rb rc : FReg) (dd : DReg)
  | mpsubw (ra rb rc : FReg) (dd : DReg)
  | mpshr1w (ra rb : FReg)
  | mpshl1w (ra rb : FReg)
  | mpiszerow (rb : FReg) (dd : DReg)
  | mpisevenw (rb : FReg) (dd : DReg)
  | mpisltw (rb rc : FReg) (dd : DReg)
  -- Base-field backend (spec/41_base_field.md)
  | fpadd (ra rb rc : FReg)
  | fpsub (ra rb rc : FReg)
  | fpneg (ra rb : FReg)
  | fpdiv2 (ra rb : FReg)
  -- Montgomery base field (spec/42_montgomery.md) and inversion (spec/43_inversion.md)
  | fptomont (ra rb : FReg)
  | fpfrommont (ra rb : FReg)
  | fpmul (ra rb rc : FReg)
  | fpsqr (ra rb : FReg)
  | fpinv (ra rb : FReg)
  -- GF(p²) (spec/44_gfp2.md)
  | f2add (ra rb rc : FReg)
  | f2sub (ra rb rc : FReg)
  | f2neg (ra rb : FReg)
  | f2div2 (ra rb : FReg)
  | f2copy (ra rb : FReg)
  | f2zero (ra : FReg)
  | f2sqr (ra rb : FReg)
  | f2mul (ra rb rc : FReg)
  | f2inv (ra rb : FReg)
  | f2tomont (ra rb : FReg)
  | f2frommont (ra rb : FReg)
  -- Select and swap (spec/45_select_swap.md)
  | self (ra rb rc : FReg) (dd : DReg)
  | self2 (ra rb rc : FReg) (dd : DReg)
  | selpt (ra rb rc : FReg) (dd : DReg)
  | swappb (ra rb : FReg) (dd : DReg)
  | swappt (ra rb : FReg) (dd : DReg)
  deriving DecidableEq, Repr

/-- The group size g of a command: how many F registers each register field names (R82, R85). -/
def Instr.groupSize : Instr → Nat
  | .mpcopy _ _ => 1
  | .mpzero _ => 1
  | .mpadd _ _ _ _ => 1
  | .mpsub _ _ _ _ => 1
  | .mpshr1 _ _ => 1
  | .mpshl1 _ _ => 1
  | .mpiszero _ _ => 1
  | .mpiseven _ _ => 1
  | .mpislt _ _ _ => 1
  | .mpcopyw _ _ => 2
  | .mpzerow _ => 2
  | .mpaddw _ _ _ _ => 2
  | .mpsubw _ _ _ _ => 2
  | .mpshr1w _ _ => 2
  | .mpshl1w _ _ => 2
  | .mpiszerow _ _ => 2
  | .mpisevenw _ _ => 2
  | .mpisltw _ _ _ => 2
  | .fpadd _ _ _ => 1
  | .fpsub _ _ _ => 1
  | .fpneg _ _ => 1
  | .fpdiv2 _ _ => 1
  | .fptomont _ _ => 1
  | .fpfrommont _ _ => 1
  | .fpmul _ _ _ => 1
  | .fpsqr _ _ => 1
  | .fpinv _ _ => 1
  | .f2add _ _ _ => 2
  | .f2sub _ _ _ => 2
  | .f2neg _ _ => 2
  | .f2div2 _ _ => 2
  | .f2copy _ _ => 2
  | .f2zero _ => 2
  | .f2sqr _ _ => 2
  | .f2mul _ _ _ => 2
  | .f2inv _ _ => 2
  | .f2tomont _ _ => 2
  | .f2frommont _ _ => 2
  | .self _ _ _ _ => 1
  | .self2 _ _ _ _ => 2
  | .selpt _ _ _ _ => 4
  | .swappb _ _ _ => 2
  | .swappt _ _ _ => 4

/-- The register fields a command uses, in the order ra, rb, rc (R81). -/
def Instr.groups : Instr → List FReg
  | .mpcopy ra rb => [ra, rb]
  | .mpzero ra => [ra]
  | .mpadd ra rb rc _ => [ra, rb, rc]
  | .mpsub ra rb rc _ => [ra, rb, rc]
  | .mpshr1 ra rb => [ra, rb]
  | .mpshl1 ra rb => [ra, rb]
  | .mpiszero rb _ => [rb]
  | .mpiseven rb _ => [rb]
  | .mpislt rb rc _ => [rb, rc]
  | .mpcopyw ra rb => [ra, rb]
  | .mpzerow ra => [ra]
  | .mpaddw ra rb rc _ => [ra, rb, rc]
  | .mpsubw ra rb rc _ => [ra, rb, rc]
  | .mpshr1w ra rb => [ra, rb]
  | .mpshl1w ra rb => [ra, rb]
  | .mpiszerow rb _ => [rb]
  | .mpisevenw rb _ => [rb]
  | .mpisltw rb rc _ => [rb, rc]
  | .fpadd ra rb rc => [ra, rb, rc]
  | .fpsub ra rb rc => [ra, rb, rc]
  | .fpneg ra rb => [ra, rb]
  | .fpdiv2 ra rb => [ra, rb]
  | .fptomont ra rb => [ra, rb]
  | .fpfrommont ra rb => [ra, rb]
  | .fpmul ra rb rc => [ra, rb, rc]
  | .fpsqr ra rb => [ra, rb]
  | .fpinv ra rb => [ra, rb]
  | .f2add ra rb rc => [ra, rb, rc]
  | .f2sub ra rb rc => [ra, rb, rc]
  | .f2neg ra rb => [ra, rb]
  | .f2div2 ra rb => [ra, rb]
  | .f2copy ra rb => [ra, rb]
  | .f2zero ra => [ra]
  | .f2sqr ra rb => [ra, rb]
  | .f2mul ra rb rc => [ra, rb, rc]
  | .f2inv ra rb => [ra, rb]
  | .f2tomont ra rb => [ra, rb]
  | .f2frommont ra rb => [ra, rb]
  | .self ra rb rc _ => [ra, rb, rc]
  | .self2 ra rb rc _ => [ra, rb, rc]
  | .selpt ra rb rc _ => [ra, rb, rc]
  | .swappb ra rb _ => [ra, rb]
  | .swappt ra rb _ => [ra, rb]

end Sys2Proof
end

