-- ==== Sys2Proof/WellFormed.lean ====
section
/-! DEFINITION. Which instruction terms are commands: every register group is aligned to the command's group size
(spec/30_encoding.md R82). All 8 values of dd and all aligned register numbers are legal (R88). -/

namespace Sys2Proof

/-- A register number is a multiple of the group size (R82). -/
def aligned (g : Nat) (r : FReg) : Bool := r.val % g == 0

/-- Every used register field of the command is a multiple of its group size (R82). -/
def Instr.wellFormed (i : Instr) : Bool := i.groups.all (aligned i.groupSize)

end Sys2Proof
end

