-- ==== Sys2Proof/Decode.lean ====
section
/-! DEFINITION. The decoder and the encoder of command words, both written from spec/30_encoding.md R80 to R88.
A command is one 32-bit word; the block has no bytes (spec/20_memory.md R62), so the decoder takes the word. -/

namespace Sys2Proof

/-- Why a word is no command (R84, R87, R88). -/
inductive DecodeError where
  /-- The opcode is in no row of R85 (R87): the CMD write raises cause 1. -/
  | illegalOpcode
  /-- A must-be-zero bit of the row is set (R88): the CMD write raises cause 2. -/
  | illegalOperand
  deriving DecidableEq, Repr

/-! ### The fields of a command word (R80) -/

/-- Bits 31:24. -/
def fieldOp (w : Command) : BitVec 8 := w.extractLsb' 24 8

/-- Bits 23:19: the first register group. -/
def fieldRa (w : Command) : FReg := (w.extractLsb' 19 5).toFin

/-- Bits 18:14: the second register group. -/
def fieldRb (w : Command) : FReg := (w.extractLsb' 14 5).toFin

/-- Bits 13:9: the third register group. -/
def fieldRc (w : Command) : FReg := (w.extractLsb' 9 5).toFin

/-- Bits 8:6: the D register. -/
def fieldDd (w : Command) : DReg := (w.extractLsb' 6 3).toFin

/-- A row of the opcode map (R85). `pattern` is the table's column match; `build` reads the fields the row's format
uses (R81). -/
structure OpRow where
  op : BitVec 8
  format : Format
  group : Nat
  pattern : Command
  mask : Command
  build : FReg → FReg → FReg → DReg → Instr

/-- A word is a legal instance of a row iff `(w & mask) == match` (R83). -/
def OpRow.matchesWord (row : OpRow) (w : Command) : Bool := w &&& row.mask == row.pattern

/-- The must-be-zero bits of R83 and the opcode bits, from a row's format and group size: z, every bit of a field the
format does not use, and the low log2(g) bits of every used register field. -/
def maskOf (f : Format) (g : Nat) : Command :=
  let used : Bool × Bool × Bool × Bool := match f with
    | .z => (true, false, false, false)
    | .u => (true, true, false, false)
    | .b => (true, true, true, false)
    | .bc => (true, true, true, true)
    | .p1 => (false, true, false, true)
    | .p2 => (false, true, true, true)
    | .s => (true, true, true, true)
    | .x => (true, true, false, true)
  let reg (b : Bool) : BitVec 5 := if b then BitVec.ofNat 5 (g - 1) else 0x1F
  let dig : BitVec 3 := if used.2.2.2 then 0 else 7
  0xFF#8 ++ reg used.1 ++ reg used.2.1 ++ reg used.2.2.1 ++ dig ++ 0x3F#6

/-- The 43 commands (R85). -/
def opTable : List OpRow := [
  ⟨0x10, .u, 1, 0x10000000, 0xFF003FFF, fun ra rb _ _ => .mpcopy ra rb⟩,
  ⟨0x11, .z, 1, 0x11000000, 0xFF07FFFF, fun ra _ _ _ => .mpzero ra⟩,
  ⟨0x12, .bc, 1, 0x12000000, 0xFF00003F, fun ra rb rc dd => .mpadd ra rb rc dd⟩,
  ⟨0x13, .bc, 1, 0x13000000, 0xFF00003F, fun ra rb rc dd => .mpsub ra rb rc dd⟩,
  ⟨0x14, .u, 1, 0x14000000, 0xFF003FFF, fun ra rb _ _ => .mpshr1 ra rb⟩,
  ⟨0x15, .u, 1, 0x15000000, 0xFF003FFF, fun ra rb _ _ => .mpshl1 ra rb⟩,
  ⟨0x16, .p1, 1, 0x16000000, 0xFFF83E3F, fun _ rb _ dd => .mpiszero rb dd⟩,
  ⟨0x17, .p1, 1, 0x17000000, 0xFFF83E3F, fun _ rb _ dd => .mpiseven rb dd⟩,
  ⟨0x18, .p2, 1, 0x18000000, 0xFFF8003F, fun _ rb rc dd => .mpislt rb rc dd⟩,
  ⟨0x20, .u, 2, 0x20000000, 0xFF087FFF, fun ra rb _ _ => .mpcopyw ra rb⟩,
  ⟨0x21, .z, 2, 0x21000000, 0xFF0FFFFF, fun ra _ _ _ => .mpzerow ra⟩,
  ⟨0x22, .bc, 2, 0x22000000, 0xFF08423F, fun ra rb rc dd => .mpaddw ra rb rc dd⟩,
  ⟨0x23, .bc, 2, 0x23000000, 0xFF08423F, fun ra rb rc dd => .mpsubw ra rb rc dd⟩,
  ⟨0x24, .u, 2, 0x24000000, 0xFF087FFF, fun ra rb _ _ => .mpshr1w ra rb⟩,
  ⟨0x25, .u, 2, 0x25000000, 0xFF087FFF, fun ra rb _ _ => .mpshl1w ra rb⟩,
  ⟨0x26, .p1, 2, 0x26000000, 0xFFF87E3F, fun _ rb _ dd => .mpiszerow rb dd⟩,
  ⟨0x27, .p1, 2, 0x27000000, 0xFFF87E3F, fun _ rb _ dd => .mpisevenw rb dd⟩,
  ⟨0x28, .p2, 2, 0x28000000, 0xFFF8423F, fun _ rb rc dd => .mpisltw rb rc dd⟩,
  ⟨0x30, .b, 1, 0x30000000, 0xFF0001FF, fun ra rb rc _ => .fpadd ra rb rc⟩,
  ⟨0x31, .b, 1, 0x31000000, 0xFF0001FF, fun ra rb rc _ => .fpsub ra rb rc⟩,
  ⟨0x32, .u, 1, 0x32000000, 0xFF003FFF, fun ra rb _ _ => .fpneg ra rb⟩,
  ⟨0x33, .u, 1, 0x33000000, 0xFF003FFF, fun ra rb _ _ => .fpdiv2 ra rb⟩,
  ⟨0x38, .u, 1, 0x38000000, 0xFF003FFF, fun ra rb _ _ => .fptomont ra rb⟩,
  ⟨0x39, .u, 1, 0x39000000, 0xFF003FFF, fun ra rb _ _ => .fpfrommont ra rb⟩,
  ⟨0x3A, .b, 1, 0x3A000000, 0xFF0001FF, fun ra rb rc _ => .fpmul ra rb rc⟩,
  ⟨0x3B, .u, 1, 0x3B000000, 0xFF003FFF, fun ra rb _ _ => .fpsqr ra rb⟩,
  ⟨0x3C, .u, 1, 0x3C000000, 0xFF003FFF, fun ra rb _ _ => .fpinv ra rb⟩,
  ⟨0x40, .b, 2, 0x40000000, 0xFF0843FF, fun ra rb rc _ => .f2add ra rb rc⟩,
  ⟨0x41, .b, 2, 0x41000000, 0xFF0843FF, fun ra rb rc _ => .f2sub ra rb rc⟩,
  ⟨0x42, .u, 2, 0x42000000, 0xFF087FFF, fun ra rb _ _ => .f2neg ra rb⟩,
  ⟨0x43, .u, 2, 0x43000000, 0xFF087FFF, fun ra rb _ _ => .f2div2 ra rb⟩,
  ⟨0x44, .u, 2, 0x44000000, 0xFF087FFF, fun ra rb _ _ => .f2copy ra rb⟩,
  ⟨0x45, .z, 2, 0x45000000, 0xFF0FFFFF, fun ra _ _ _ => .f2zero ra⟩,
  ⟨0x46, .u, 2, 0x46000000, 0xFF087FFF, fun ra rb _ _ => .f2sqr ra rb⟩,
  ⟨0x47, .b, 2, 0x47000000, 0xFF0843FF, fun ra rb rc _ => .f2mul ra rb rc⟩,
  ⟨0x48, .u, 2, 0x48000000, 0xFF087FFF, fun ra rb _ _ => .f2inv ra rb⟩,
  ⟨0x49, .u, 2, 0x49000000, 0xFF087FFF, fun ra rb _ _ => .f2tomont ra rb⟩,
  ⟨0x4A, .u, 2, 0x4A000000, 0xFF087FFF, fun ra rb _ _ => .f2frommont ra rb⟩,
  ⟨0x50, .s, 1, 0x50000000, 0xFF00003F, fun ra rb rc dd => .self ra rb rc dd⟩,
  ⟨0x51, .s, 2, 0x51000000, 0xFF08423F, fun ra rb rc dd => .self2 ra rb rc dd⟩,
  ⟨0x52, .s, 4, 0x52000000, 0xFF18C63F, fun ra rb rc dd => .selpt ra rb rc dd⟩,
  ⟨0x54, .x, 2, 0x54000000, 0xFF087E3F, fun ra rb _ dd => .swappb ra rb dd⟩,
  ⟨0x55, .x, 4, 0x55000000, 0xFF18FE3F, fun ra rb _ dd => .swappt ra rb dd⟩
]

/-- Decode of a command word (R84): the row of the opcode, then the must-be-zero bits. Total on every word. -/
def decode (w : Command) : Except DecodeError Instr :=
  match opTable.find? (fun row => row.op == fieldOp w) with
  | none => .error .illegalOpcode
  | some row =>
    if row.matchesWord w then .ok (row.build (fieldRa w) (fieldRb w) (fieldRc w) (fieldDd w))
    else .error .illegalOperand

/-! ### The encoder -/

/-- A command word from its fields, z zero (R80). -/
def assemble (op : BitVec 8) (ra rb rc : FReg) (dd : DReg) : Command :=
  op ++ (BitVec.ofFin ra : BitVec 5) ++ (BitVec.ofFin rb : BitVec 5) ++ (BitVec.ofFin rc : BitVec 5)
    ++ (BitVec.ofFin dd : BitVec 3) ++ 0#6

/-- The word of a command (R80, R81, R85); a field the format does not use is zero. -/
def encode : Instr → Command
  | .mpcopy ra rb => assemble 0x10 ra rb 0 0
  | .mpzero ra => assemble 0x11 ra 0 0 0
  | .mpadd ra rb rc dd => assemble 0x12 ra rb rc dd
  | .mpsub ra rb rc dd => assemble 0x13 ra rb rc dd
  | .mpshr1 ra rb => assemble 0x14 ra rb 0 0
  | .mpshl1 ra rb => assemble 0x15 ra rb 0 0
  | .mpiszero rb dd => assemble 0x16 0 rb 0 dd
  | .mpiseven rb dd => assemble 0x17 0 rb 0 dd
  | .mpislt rb rc dd => assemble 0x18 0 rb rc dd
  | .mpcopyw ra rb => assemble 0x20 ra rb 0 0
  | .mpzerow ra => assemble 0x21 ra 0 0 0
  | .mpaddw ra rb rc dd => assemble 0x22 ra rb rc dd
  | .mpsubw ra rb rc dd => assemble 0x23 ra rb rc dd
  | .mpshr1w ra rb => assemble 0x24 ra rb 0 0
  | .mpshl1w ra rb => assemble 0x25 ra rb 0 0
  | .mpiszerow rb dd => assemble 0x26 0 rb 0 dd
  | .mpisevenw rb dd => assemble 0x27 0 rb 0 dd
  | .mpisltw rb rc dd => assemble 0x28 0 rb rc dd
  | .fpadd ra rb rc => assemble 0x30 ra rb rc 0
  | .fpsub ra rb rc => assemble 0x31 ra rb rc 0
  | .fpneg ra rb => assemble 0x32 ra rb 0 0
  | .fpdiv2 ra rb => assemble 0x33 ra rb 0 0
  | .fptomont ra rb => assemble 0x38 ra rb 0 0
  | .fpfrommont ra rb => assemble 0x39 ra rb 0 0
  | .fpmul ra rb rc => assemble 0x3A ra rb rc 0
  | .fpsqr ra rb => assemble 0x3B ra rb 0 0
  | .fpinv ra rb => assemble 0x3C ra rb 0 0
  | .f2add ra rb rc => assemble 0x40 ra rb rc 0
  | .f2sub ra rb rc => assemble 0x41 ra rb rc 0
  | .f2neg ra rb => assemble 0x42 ra rb 0 0
  | .f2div2 ra rb => assemble 0x43 ra rb 0 0
  | .f2copy ra rb => assemble 0x44 ra rb 0 0
  | .f2zero ra => assemble 0x45 ra 0 0 0
  | .f2sqr ra rb => assemble 0x46 ra rb 0 0
  | .f2mul ra rb rc => assemble 0x47 ra rb rc 0
  | .f2inv ra rb => assemble 0x48 ra rb 0 0
  | .f2tomont ra rb => assemble 0x49 ra rb 0 0
  | .f2frommont ra rb => assemble 0x4A ra rb 0 0
  | .self ra rb rc dd => assemble 0x50 ra rb rc dd
  | .self2 ra rb rc dd => assemble 0x51 ra rb rc dd
  | .selpt ra rb rc dd => assemble 0x52 ra rb rc dd
  | .swappb ra rb dd => assemble 0x54 ra rb 0 dd
  | .swappt ra rb dd => assemble 0x55 ra rb 0 dd

/-- The opcode of a command (R80). -/
def Instr.opcode (i : Instr) : BitVec 8 := fieldOp (encode i)

/-- The instruction the decoder reads from an instruction whose bits are w: the table gives every row 32 bits, so w is
the command word. A number with a bit above bit 31 is no command word (R80). -/
def decodeTableWord (nbits w : Nat) : Option Instr :=
  if nbits ≤ 32 ∧ w < 2 ^ 32 then (decode (BitVec.ofNat 32 w)).toOption else none

end Sys2Proof
end

