-- ==== Sys2Proof/Machine/Operands.lean ====
section
/-! DEFINITION. Operand forms: the group views of spec/10_state.md R21 (one register, the wide, pair and point views), the
preconditions of spec/00_scope.md R18, and the one way a command with a precondition ends. -/

namespace Sys2Proof.Machine

/-! ### Groups (R21, R82)

The k-th register of the group that starts at r is r + k. For an aligned group it never runs past F31 (R82); the
addition is modulo 32 only so that it is defined on terms that are no command (log entry 14). -/

/-- The registers of a pair: the wide view W, the f2elm view E, the base-field point view B. -/
def pairRegs (r : FReg) : List FReg := [r, r + 1]

/-- The registers of a quad: the extension-field point view Q. -/
def quadRegs (r : FReg) : List FReg := [r, r + 1, r + 2, r + 3]

/-- The values of a list of registers. -/
def State.readFs (s : State) (rs : List FReg) : List Felm := rs.map s.readF

/-- `W[r]`: the 24-digit sequence whose low 12 digits are F[r] and high 12 digits are F[r+1] (R12). -/
def State.readW (s : State) (r : FReg) : Wide := (s.readF (r + 1) ++ s.readF r : BitVec 1536)

/-- `W[r] <- v`: F[r] <- v mod 2^768 and F[r+1] <- v >> 768 (40_digit_layer.md section 2). -/
def State.writeW (s : State) (r : FReg) (v : Wide) : State :=
  s.writeFs [(r, v.extractLsb' 0 768), (r + 1, v.extractLsb' 768 768)]

/-! ### Preconditions (R18, R132, R190, R225) -/

/-- A field element: a value below P (R19, R130). -/
def validFelm (x : Felm) : Bool := decide (x.toNat < Config.P)

/-- Every source register of the list holds a value below P. -/
def State.valid (s : State) (rs : List FReg) : Bool := (s.readFs rs).all validFelm

/-- A mask: all-zero or all-one, "no other mask value is a valid input" (R15, R220). -/
def validMask (m : Digit) : Bool := m == all0 || m == all1

/-- How a command with a precondition ends (R18, R246). When it holds, the destinations get the results. When it fails,
each destination gets a free value and nothing else changes (DEBUG_CHECKS false), or cause 4 is raised with the command
word as INFO and no register is written (DEBUG_CHECKS true). The command word is the encoding of the instruction, since
decoding is strict (log entry 15). -/
def State.complete (s : State) (i : Instr) (pre : Bool) (dests : List FReg) (results : List Felm) : Result :=
  if pre then .next (s.writeFs (dests.zip results))
  else if s.debugChecks then .next (s.raiseFault .precondition ((encode i).setWidth 64))
  else .next (s.writeAnys dests)

end Sys2Proof.Machine
end

