-- ==== Sys2Proof/Machine/BaseField.lean ====
section
/-! DEFINITION. The base-field commands on one F register each: the backend (spec/41_base_field.md R134 to R137), the
Montgomery commands (spec/42_montgomery.md R154 to R157) and inversion (spec/43_inversion.md R170). Precondition of each:
every source is below P. -/

namespace Sys2Proof.Machine

/-- The integer in F[r] (R12). -/
def State.num (s : State) (r : FReg) : Nat := (s.readF r).toNat

/-- FPADD (R134). -/
def execFpadd (ra rb rc : FReg) (s : State) : Result :=
  s.complete (.fpadd ra rb rc) (s.valid [rb, rc]) [ra] [felm (fpadd (s.num rb) (s.num rc))]

/-- FPSUB (R135): minuend rb, subtrahend rc. -/
def execFpsub (ra rb rc : FReg) (s : State) : Result :=
  s.complete (.fpsub ra rb rc) (s.valid [rb, rc]) [ra] [felm (fpsub (s.num rb) (s.num rc))]

/-- FPNEG (R136). -/
def execFpneg (ra rb : FReg) (s : State) : Result :=
  s.complete (.fpneg ra rb) (s.valid [rb]) [ra] [felm (fpneg (s.num rb))]

/-- FPDIV2 (R137). -/
def execFpdiv2 (ra rb : FReg) (s : State) : Result :=
  s.complete (.fpdiv2 ra rb) (s.valid [rb]) [ra] [felm (fpdiv2 (s.num rb))]

/-- FPTOMONT (R156). -/
def execFptomont (ra rb : FReg) (s : State) : Result :=
  s.complete (.fptomont ra rb) (s.valid [rb]) [ra] [felm (mm (s.num rb) Config.R2)]

/-- FPFROMMONT (R157). -/
def execFpfrommont (ra rb : FReg) (s : State) : Result :=
  s.complete (.fpfrommont ra rb) (s.valid [rb]) [ra] [felm (mm (s.num rb) Config.one)]

/-- FPMUL (R154). -/
def execFpmul (ra rb rc : FReg) (s : State) : Result :=
  s.complete (.fpmul ra rb rc) (s.valid [rb, rc]) [ra] [felm (mm (s.num rb) (s.num rc))]

/-- FPSQR (R155). -/
def execFpsqr (ra rb : FReg) (s : State) : Result :=
  s.complete (.fpsqr ra rb) (s.valid [rb]) [ra] [felm (msqr (s.num rb))]

/-- FPINV (R170). The inverse of 0 is the chain's result, 0, and no fault (R176, R250). -/
def execFpinv (ra rb : FReg) (s : State) : Result :=
  s.complete (.fpinv ra rb) (s.valid [rb]) [ra] [felm (finv (s.num rb))]

end Sys2Proof.Machine
end

