-- ==== Sys2Proof/Machine/DigitLayer.lean ====
section
/-! DEFINITION. The digit layer (spec/40_digit_layer.md R100 to R119): plain unsigned integer commands on one F register
(768 bits) or on a wide pair (1536 bits). No preconditions; every source is read before any destination is written. -/

namespace Sys2Proof.Machine

/-! ### Narrow commands -/

/-- MPCOPY (R101). -/
def execMpcopy (ra rb : FReg) (s : State) : Result := .next (s.writeF ra (s.readF rb))

/-- MPZERO (R102). -/
def execMpzero (ra : FReg) (s : State) : Result := .next (s.writeF ra 0)

/-- MPADD (R103): the sum modulo 2^768, and the carry to D[dd]. -/
def execMpadd (ra rb rc : FReg) (dd : DReg) (s : State) : Result :=
  let a := s.readF rb
  let b := s.readF rc
  .next ((s.writeF ra (a + b)).writeD dd (carryOut a b))

/-- MPSUB (R104): the difference modulo 2^768, and the borrow to D[dd]. -/
def execMpsub (ra rb rc : FReg) (dd : DReg) (s : State) : Result :=
  let a := s.readF rb
  let b := s.readF rc
  .next ((s.writeF ra (a - b)).writeD dd (borrowOut a b))

/-- MPSHR1 (R105): zero enters at the top, the bit shifted out is discarded. -/
def execMpshr1 (ra rb : FReg) (s : State) : Result := .next (s.writeF ra (s.readF rb >>> 1))

/-- MPSHL1 (R106): zero enters at the bottom, the bit shifted out is discarded. -/
def execMpshl1 (ra rb : FReg) (s : State) : Result := .next (s.writeF ra (s.readF rb <<< 1))

/-- MPISZERO (R107). -/
def execMpiszero (rb : FReg) (dd : DReg) (s : State) : Result := .next (s.writeD dd (isZero (s.readF rb)))

/-- MPISEVEN (R108). -/
def execMpiseven (rb : FReg) (dd : DReg) (s : State) : Result := .next (s.writeD dd (isEven (s.readF rb)))

/-- MPISLT (R109). -/
def execMpislt (rb rc : FReg) (dd : DReg) (s : State) : Result :=
  .next (s.writeD dd (isLess (s.readF rb) (s.readF rc)))

/-! ### Wide commands -/

/-- MPCOPYW (R111). -/
def execMpcopyw (ra rb : FReg) (s : State) : Result := .next (s.writeW ra (s.readW rb))

/-- MPZEROW (R112). -/
def execMpzerow (ra : FReg) (s : State) : Result := .next (s.writeW ra 0)

/-- MPADDW (R113): the sum modulo 2^1536, and the carry out of digit 23 to D[dd]. -/
def execMpaddw (ra rb rc : FReg) (dd : DReg) (s : State) : Result :=
  let a := s.readW rb
  let b := s.readW rc
  .next ((s.writeW ra (a + b)).writeD dd (carryOut a b))

/-- MPSUBW (R114): the difference modulo 2^1536, and the borrow to D[dd]. -/
def execMpsubw (ra rb rc : FReg) (dd : DReg) (s : State) : Result :=
  let a := s.readW rb
  let b := s.readW rc
  .next ((s.writeW ra (a - b)).writeD dd (borrowOut a b))

/-- MPSHR1W (R115). -/
def execMpshr1w (ra rb : FReg) (s : State) : Result := .next (s.writeW ra (s.readW rb >>> 1))

/-- MPSHL1W (R116). -/
def execMpshl1w (ra rb : FReg) (s : State) : Result := .next (s.writeW ra (s.readW rb <<< 1))

/-- MPISZEROW (R117). -/
def execMpiszerow (rb : FReg) (dd : DReg) (s : State) : Result := .next (s.writeD dd (isZero (s.readW rb)))

/-- MPISEVENW (R118). -/
def execMpisevenw (rb : FReg) (dd : DReg) (s : State) : Result := .next (s.writeD dd (isEven (s.readW rb)))

/-- MPISLTW (R119). -/
def execMpisltw (rb rc : FReg) (dd : DReg) (s : State) : Result :=
  .next (s.writeD dd (isLess (s.readW rb) (s.readW rc)))

end Sys2Proof.Machine
end

