-- ==== Sys2Proof/Machine/Gfp2.lean ====
section
/-! DEFINITION. The GF(p²) commands (spec/44_gfp2.md R190 to R201). A register field r names the pair a0 = F[r], a1 = F[r+1].
Precondition of each but F2COPY and F2ZERO: every source component is below P; otherwise both destination registers are
free (R190). -/

namespace Sys2Proof.Machine

/-- F2ADD (R191). -/
def execF2add (ra rb rc : FReg) (s : State) : Result :=
  s.complete (.f2add ra rb rc) (s.valid (pairRegs rb ++ pairRegs rc)) (pairRegs ra)
    [felm (fpadd (s.num rb) (s.num rc)), felm (fpadd (s.num (rb + 1)) (s.num (rc + 1)))]

/-- F2SUB (R192). -/
def execF2sub (ra rb rc : FReg) (s : State) : Result :=
  s.complete (.f2sub ra rb rc) (s.valid (pairRegs rb ++ pairRegs rc)) (pairRegs ra)
    [felm (fpsub (s.num rb) (s.num rc)), felm (fpsub (s.num (rb + 1)) (s.num (rc + 1)))]

/-- F2NEG (R193). -/
def execF2neg (ra rb : FReg) (s : State) : Result :=
  s.complete (.f2neg ra rb) (s.valid (pairRegs rb)) (pairRegs ra)
    [felm (fpneg (s.num rb)), felm (fpneg (s.num (rb + 1)))]

/-- F2DIV2 (R194). -/
def execF2div2 (ra rb : FReg) (s : State) : Result :=
  s.complete (.f2div2 ra rb) (s.valid (pairRegs rb)) (pairRegs ra)
    [felm (fpdiv2 (s.num rb)), felm (fpdiv2 (s.num (rb + 1)))]

/-- F2COPY (R195): no precondition, any bit pattern is copied. -/
def execF2copy (ra rb : FReg) (s : State) : Result :=
  .next (s.writeFs ((pairRegs ra).zip (s.readFs (pairRegs rb))))

/-- F2ZERO (R196). -/
def execF2zero (ra : FReg) (s : State) : Result := .next (s.writeFs ((pairRegs ra).zip [0, 0]))

/-- F2SQR (R197). -/
def execF2sqr (ra rb : FReg) (s : State) : Result :=
  let c := f2sqr (s.num rb) (s.num (rb + 1))
  s.complete (.f2sqr ra rb) (s.valid (pairRegs rb)) (pairRegs ra) [felm c.1, felm c.2]

/-- F2MUL (R198). -/
def execF2mul (ra rb rc : FReg) (s : State) : Result :=
  let c := f2mul (s.num rb) (s.num (rb + 1)) (s.num rc) (s.num (rc + 1))
  s.complete (.f2mul ra rb rc) (s.valid (pairRegs rb ++ pairRegs rc)) (pairRegs ra) [felm c.1, felm c.2]

/-- F2INV (R199). The zero element gives (0, 0) and no fault (R176, R250). -/
def execF2inv (ra rb : FReg) (s : State) : Result :=
  let c := f2inv (s.num rb) (s.num (rb + 1))
  s.complete (.f2inv ra rb) (s.valid (pairRegs rb)) (pairRegs ra) [felm c.1, felm c.2]

/-- F2TOMONT (R200). -/
def execF2tomont (ra rb : FReg) (s : State) : Result :=
  s.complete (.f2tomont ra rb) (s.valid (pairRegs rb)) (pairRegs ra)
    [felm (mm (s.num rb) Config.R2), felm (mm (s.num (rb + 1)) Config.R2)]

/-- F2FROMMONT (R201). -/
def execF2frommont (ra rb : FReg) (s : State) : Result :=
  s.complete (.f2frommont ra rb) (s.valid (pairRegs rb)) (pairRegs ra)
    [felm (mm (s.num rb) Config.one), felm (mm (s.num (rb + 1)) Config.one)]

end Sys2Proof.Machine
end

