-- ==== Sys2Proof/Machine/SelectSwap.lean ====
section
/-! DEFINITION. The constant-time select and swap commands (spec/45_select_swap.md R220 to R227). Precondition of each: D[dd]
is a mask, all-zero or all-one; the field elements have none. An invalid mask leaves every destination free (R225). -/

namespace Sys2Proof.Machine

/-- The selected values of two groups under the mask (R221). -/
def State.selected (s : State) (m : Digit) (xs ys : List FReg) : List Felm :=
  List.zipWith (selectFelm m) (s.readFs xs) (s.readFs ys)

/-- Select over a group: z = x when the mask is all-zero, z = y when it is all-one (R220, R221). -/
def State.select (s : State) (i : Instr) (zs xs ys : List FReg) (dd : DReg) : Result :=
  s.complete i (validMask (s.readD dd)) zs (s.selected (s.readD dd) xs ys)

/-- Swap over two groups, both read in full before either is written (R221, R17): under the mask each register of one
group takes the value of the matching register of the other. -/
def State.swap (s : State) (i : Instr) (ps qs : List FReg) (dd : DReg) : Result :=
  s.complete i (validMask (s.readD dd)) (ps ++ qs)
    (s.selected (s.readD dd) ps qs ++ s.selected (s.readD dd) qs ps)

/-- SELF (R222). -/
def execSelf (ra rb rc : FReg) (dd : DReg) (s : State) : Result :=
  s.select (.self ra rb rc dd) [ra] [rb] [rc] dd

/-- SELF2 (R223). -/
def execSelf2 (ra rb rc : FReg) (dd : DReg) (s : State) : Result :=
  s.select (.self2 ra rb rc dd) (pairRegs ra) (pairRegs rb) (pairRegs rc) dd

/-- SELPT (R224). -/
def execSelpt (ra rb rc : FReg) (dd : DReg) (s : State) : Result :=
  s.select (.selpt ra rb rc dd) (quadRegs ra) (quadRegs rb) (quadRegs rc) dd

/-- SWAPPB (R226). -/
def execSwappb (ra rb : FReg) (dd : DReg) (s : State) : Result :=
  s.swap (.swappb ra rb dd) (pairRegs ra) (pairRegs rb) dd

/-- SWAPPT (R227). -/
def execSwappt (ra rb : FReg) (dd : DReg) (s : State) : Result :=
  s.swap (.swappt ra rb dd) (quadRegs ra) (quadRegs rb) dd

end Sys2Proof.Machine
end

