-- ==== Sys2Proof/Machine/Dispatch.lean ====
section
/-! DEFINITION. exec: the meaning of each command, one arm per constructor (spec/30_encoding.md R84, last line). -/

namespace Sys2Proof.Machine

def exec (i : Instr) (s : State) : Host.Outcome State Fault Refusal :=
  match i with
  | .mpcopy ra rb => Sys2Proof.Machine.execMpcopy ra rb s
  | .mpzero ra => Sys2Proof.Machine.execMpzero ra s
  | .mpadd ra rb rc dd => Sys2Proof.Machine.execMpadd ra rb rc dd s
  | .mpsub ra rb rc dd => Sys2Proof.Machine.execMpsub ra rb rc dd s
  | .mpshr1 ra rb => Sys2Proof.Machine.execMpshr1 ra rb s
  | .mpshl1 ra rb => Sys2Proof.Machine.execMpshl1 ra rb s
  | .mpiszero rb dd => Sys2Proof.Machine.execMpiszero rb dd s
  | .mpiseven rb dd => Sys2Proof.Machine.execMpiseven rb dd s
  | .mpislt rb rc dd => Sys2Proof.Machine.execMpislt rb rc dd s
  | .mpcopyw ra rb => Sys2Proof.Machine.execMpcopyw ra rb s
  | .mpzerow ra => Sys2Proof.Machine.execMpzerow ra s
  | .mpaddw ra rb rc dd => Sys2Proof.Machine.execMpaddw ra rb rc dd s
  | .mpsubw ra rb rc dd => Sys2Proof.Machine.execMpsubw ra rb rc dd s
  | .mpshr1w ra rb => Sys2Proof.Machine.execMpshr1w ra rb s
  | .mpshl1w ra rb => Sys2Proof.Machine.execMpshl1w ra rb s
  | .mpiszerow rb dd => Sys2Proof.Machine.execMpiszerow rb dd s
  | .mpisevenw rb dd => Sys2Proof.Machine.execMpisevenw rb dd s
  | .mpisltw rb rc dd => Sys2Proof.Machine.execMpisltw rb rc dd s
  | .fpadd ra rb rc => Sys2Proof.Machine.execFpadd ra rb rc s
  | .fpsub ra rb rc => Sys2Proof.Machine.execFpsub ra rb rc s
  | .fpneg ra rb => Sys2Proof.Machine.execFpneg ra rb s
  | .fpdiv2 ra rb => Sys2Proof.Machine.execFpdiv2 ra rb s
  | .fptomont ra rb => Sys2Proof.Machine.execFptomont ra rb s
  | .fpfrommont ra rb => Sys2Proof.Machine.execFpfrommont ra rb s
  | .fpmul ra rb rc => Sys2Proof.Machine.execFpmul ra rb rc s
  | .fpsqr ra rb => Sys2Proof.Machine.execFpsqr ra rb s
  | .fpinv ra rb => Sys2Proof.Machine.execFpinv ra rb s
  | .f2add ra rb rc => Sys2Proof.Machine.execF2add ra rb rc s
  | .f2sub ra rb rc => Sys2Proof.Machine.execF2sub ra rb rc s
  | .f2neg ra rb => Sys2Proof.Machine.execF2neg ra rb s
  | .f2div2 ra rb => Sys2Proof.Machine.execF2div2 ra rb s
  | .f2copy ra rb => Sys2Proof.Machine.execF2copy ra rb s
  | .f2zero ra => Sys2Proof.Machine.execF2zero ra s
  | .f2sqr ra rb => Sys2Proof.Machine.execF2sqr ra rb s
  | .f2mul ra rb rc => Sys2Proof.Machine.execF2mul ra rb rc s
  | .f2inv ra rb => Sys2Proof.Machine.execF2inv ra rb s
  | .f2tomont ra rb => Sys2Proof.Machine.execF2tomont ra rb s
  | .f2frommont ra rb => Sys2Proof.Machine.execF2frommont ra rb s
  | .self ra rb rc dd => Sys2Proof.Machine.execSelf ra rb rc dd s
  | .self2 ra rb rc dd => Sys2Proof.Machine.execSelf2 ra rb rc dd s
  | .selpt ra rb rc dd => Sys2Proof.Machine.execSelpt ra rb rc dd s
  | .swappb ra rb dd => Sys2Proof.Machine.execSwappb ra rb dd s
  | .swappt ra rb dd => Sys2Proof.Machine.execSwappt ra rb dd s

end Sys2Proof.Machine
end

