-- ==== Sys2Proof/Machine/Port.lean ====
section
/-! DEFINITION. The host port (spec/20_memory.md R50 to R59): the address map, host reads and writes, the issue of a command
by a CMD write (R58, spec/60_exceptions.md R245), and the performance of the oldest pending host event (R60). -/

namespace Sys2Proof.Machine

/-- What an address of the host port names (R53). -/
inductive Target where
  | felmDigit (r : FReg) (j : Fin 12)
  | digitReg (k : DReg)
  | cmd
  | status
  | errinfo
  | ctrl
  | ident
  | modulus (j : Fin 12)
  | modulusPlusOne (j : Fin 12)
  | rSquared (j : Fin 12)
  | unmapped
  deriving DecidableEq, Repr

/-- The address of CMD (R53). -/
def cmdAddr : Addr := 0x0300

/-- The address map (R53). Every address not listed is unmapped, the holes of the F window among them. -/
def target (a : Addr) : Target :=
  let n := a.toNat
  if hF : n < 0x0200 then
    if hj : n % 16 < 12 then .felmDigit ⟨n / 16, by omega⟩ ⟨n % 16, hj⟩ else .unmapped
  else if hD : n < 0x0208 then .digitReg ⟨n - 0x0200, by omega⟩
  else if n = 0x0300 then .cmd
  else if n = 0x0301 then .status
  else if n = 0x0302 then .errinfo
  else if n = 0x0303 then .ctrl
  else if n = 0x0304 then .ident
  else if hP : 0x0400 ≤ n ∧ n < 0x040C then .modulus ⟨n - 0x0400, by omega⟩
  else if hP1 : 0x0410 ≤ n ∧ n < 0x041C then .modulusPlusOne ⟨n - 0x0410, by omega⟩
  else if hR2 : 0x0420 ≤ n ∧ n < 0x042C then .rSquared ⟨n - 0x0420, by omega⟩
  else .unmapped

/-- What a read of a target returns; none where the read is refused (R53 to R57, R59). -/
def State.peek (s : State) : Target → Option Digit
  | .felmDigit r j => some (digit (s.readF r) j)
  | .digitReg k => some (s.readD k)
  | .cmd => none
  | .status => some s.status
  | .errinfo => some s.errinfo
  | .ctrl => none
  | .ident => some Config.ident
  | .modulus j => some (digit (felm Config.P) j)
  | .modulusPlusOne j => some (digit (felm Config.P1) j)
  | .rSquared j => some (digit (felm Config.R2) j)
  | .unmapped => none

/-- A refused access (R59): cause 3 with the address, and nothing else. -/
def State.refuseAccess (s : State) (a : Addr) : State := s.raiseFault .hostAccess (a.setWidth 64)

/-- `MemRead(a, 1)`: the word, or 0 and a refused access (R54 to R57, R59). -/
def State.portRead (s : State) (a : Addr) : State :=
  match s.peek (target a) with
  | some v => s.answer v
  | none => (s.refuseAccess a).answer 0

/-- The issue of a command by a CMD write of v, the tests in the order of R245: while ERR = 1 the write is discarded; a
non-zero upper half is cause 2 with the low half as INFO; then the word is decoded and executed to completion, or
raises cause 1 or 2 with itself as INFO (R58, R84). -/
def State.issue (s : State) (v : Digit) : Result :=
  let w : Command := v.setWidth 32
  if s.err then .next s
  else if v.extractLsb' 32 32 ≠ 0 then .next (s.raiseFault .illegalOperand (w.setWidth 64))
  else
    match decode w with
    | .error .illegalOpcode => .next (s.raiseFault .illegalOpcode (w.setWidth 64))
    | .error .illegalOperand => .next (s.raiseFault .illegalOperand (w.setWidth 64))
    | .ok i => exec i s

/-- A write to CTRL: a reset when bit 0 is 1, otherwise nothing; bits 63:1 are ignored (R32, R56). -/
def State.writeCtrl (s : State) (v : Digit) : State := if v.getLsbD 0 then s.doReset else s

/-- `MemWrite(a, 1, v)` (R54 to R59). -/
def State.portWrite (s : State) (a : Addr) (v : Digit) : Result :=
  match target a with
  | .felmDigit r j => .next (s.writeF r (setDigit (s.readF r) j v))
  | .digitReg k => .next (s.writeD k v)
  | .cmd => s.issue v
  | .ctrl => .next (s.writeCtrl v)
  | .status => .next (s.refuseAccess a)
  | .errinfo => .next (s.refuseAccess a)
  | .ident => .next (s.refuseAccess a)
  | .modulus _ => .next (s.refuseAccess a)
  | .modulusPlusOne _ => .next (s.refuseAccess a)
  | .rSquared _ => .next (s.refuseAccess a)
  | .unmapped => .next (s.refuseAccess a)

/-- One host event. The three causes of a reset have the same effect (R270). -/
def State.perform (s : State) : HostEvent → Result
  | .read a => .next (s.portRead a)
  | .write a v => s.portWrite a v
  | .resetInput => .next s.doReset
  | .powerOn => .next s.doReset

/-- The state in which the oldest pending event is performed: that event is gone from the queue, and no reply stands yet
(log entries 5 and 6). -/
def State.begin (s : State) (rest : List HostEvent) : State := { s with pending := rest, reply := none }

/-- One step: the oldest pending host event is performed to completion (R60). With none pending the block is idle and holds
its state (60_exceptions.md R249, row H6; log entry 5). -/
def State.run (s : State) : Result :=
  match s.pending with
  | [] => .next s
  | e :: rest => (s.begin rest).perform e

/-- The host's CMD write of a command word stands first in the queue. -/
def State.queueCommand (s : State) (w : Nat) : State :=
  { s with pending := .write cmdAddr (BitVec.ofNat 64 w) :: s.pending }

end Sys2Proof.Machine
end

