-- ==== Sys2Proof/Machine/Step.lean ====
section
/-! DEFINITION. The step of the machine, and where it finds its next command: the block fetches nothing, a command is the
data of the host's CMD write (spec/10_state.md R34, spec/20_memory.md R58, R66; log entry 5). -/

namespace Sys2Proof.Machine

/-- One step: the oldest pending host event (R60). -/
def step (s : State) : Host.Outcome State Fault Refusal := s.run

/-- s with the host's CMD write of the word w as its next event. -/
def State.withFetchWord (s : State) (_nbits w : Nat) : State := s.queueCommand w

end Sys2Proof.Machine
end

