-- ==== Sys2Proof/Safety.lean ====
section
/-! DEFINITION. The terms the claims use: what a command reads, writes and requires (spec/30_encoding.md R81,
spec/20_memory.md R68, spec/00_scope.md R18), what it leaves unchanged, and the invariant of the fault record
(spec/10_state.md R30, R31). There is no memory, so a frame is about registers, STATUS and ERRINFO. -/

namespace Sys2Proof.Machine

/-! ### Footprints -/

/-- What a command requires of the values it reads (the "Preconditions" line of its rule). -/
inductive Need where
  /-- No precondition (R100, R195, R196). -/
  | nothing
  /-- Every source F register holds a value below P (R132, R190). -/
  | belowP
  /-- The D register named by dd holds a mask (R225). -/
  | mask
  deriving DecidableEq, Repr

/-- The registers a command reads and writes, decided by the command word alone (R68), and its precondition. -/
structure Footprint where
  writesF : List FReg
  readsF : List FReg
  writesD : List DReg
  readsD : List DReg
  need : Need
  deriving DecidableEq, Repr

/-- The footprint of each command (R81 and the command's own rule). -/
def footprint : Instr → Footprint
  | .mpcopy ra rb => ⟨[ra], [rb], [], [], .nothing⟩
  | .mpzero ra => ⟨[ra], [], [], [], .nothing⟩
  | .mpadd ra rb rc dd => ⟨[ra], [rb, rc], [dd], [], .nothing⟩
  | .mpsub ra rb rc dd => ⟨[ra], [rb, rc], [dd], [], .nothing⟩
  | .mpshr1 ra rb => ⟨[ra], [rb], [], [], .nothing⟩
  | .mpshl1 ra rb => ⟨[ra], [rb], [], [], .nothing⟩
  | .mpiszero rb dd => ⟨[], [rb], [dd], [], .nothing⟩
  | .mpiseven rb dd => ⟨[], [rb], [dd], [], .nothing⟩
  | .mpislt rb rc dd => ⟨[], [rb, rc], [dd], [], .nothing⟩
  | .mpcopyw ra rb => ⟨pairRegs ra, pairRegs rb, [], [], .nothing⟩
  | .mpzerow ra => ⟨pairRegs ra, [], [], [], .nothing⟩
  | .mpaddw ra rb rc dd => ⟨pairRegs ra, pairRegs rb ++ pairRegs rc, [dd], [], .nothing⟩
  | .mpsubw ra rb rc dd => ⟨pairRegs ra, pairRegs rb ++ pairRegs rc, [dd], [], .nothing⟩
  | .mpshr1w ra rb => ⟨pairRegs ra, pairRegs rb, [], [], .nothing⟩
  | .mpshl1w ra rb => ⟨pairRegs ra, pairRegs rb, [], [], .nothing⟩
  | .mpiszerow rb dd => ⟨[], pairRegs rb, [dd], [], .nothing⟩
  | .mpisevenw rb dd => ⟨[], pairRegs rb, [dd], [], .nothing⟩
  | .mpisltw rb rc dd => ⟨[], pairRegs rb ++ pairRegs rc, [dd], [], .nothing⟩
  | .fpadd ra rb rc => ⟨[ra], [rb, rc], [], [], .belowP⟩
  | .fpsub ra rb rc => ⟨[ra], [rb, rc], [], [], .belowP⟩
  | .fpneg ra rb => ⟨[ra], [rb], [], [], .belowP⟩
  | .fpdiv2 ra rb => ⟨[ra], [rb], [], [], .belowP⟩
  | .fptomont ra rb => ⟨[ra], [rb], [], [], .belowP⟩
  | .fpfrommont ra rb => ⟨[ra], [rb], [], [], .belowP⟩
  | .fpmul ra rb rc => ⟨[ra], [rb, rc], [], [], .belowP⟩
  | .fpsqr ra rb => ⟨[ra], [rb], [], [], .belowP⟩
  | .fpinv ra rb => ⟨[ra], [rb], [], [], .belowP⟩
  | .f2add ra rb rc => ⟨pairRegs ra, pairRegs rb ++ pairRegs rc, [], [], .belowP⟩
  | .f2sub ra rb rc => ⟨pairRegs ra, pairRegs rb ++ pairRegs rc, [], [], .belowP⟩
  | .f2neg ra rb => ⟨pairRegs ra, pairRegs rb, [], [], .belowP⟩
  | .f2div2 ra rb => ⟨pairRegs ra, pairRegs rb, [], [], .belowP⟩
  | .f2copy ra rb => ⟨pairRegs ra, pairRegs rb, [], [], .nothing⟩
  | .f2zero ra => ⟨pairRegs ra, [], [], [], .nothing⟩
  | .f2sqr ra rb => ⟨pairRegs ra, pairRegs rb, [], [], .belowP⟩
  | .f2mul ra rb rc => ⟨pairRegs ra, pairRegs rb ++ pairRegs rc, [], [], .belowP⟩
  | .f2inv ra rb => ⟨pairRegs ra, pairRegs rb, [], [], .belowP⟩
  | .f2tomont ra rb => ⟨pairRegs ra, pairRegs rb, [], [], .belowP⟩
  | .f2frommont ra rb => ⟨pairRegs ra, pairRegs rb, [], [], .belowP⟩
  | .self ra rb rc dd => ⟨[ra], [rb, rc], [], [dd], .mask⟩
  | .self2 ra rb rc dd => ⟨pairRegs ra, pairRegs rb ++ pairRegs rc, [], [dd], .mask⟩
  | .selpt ra rb rc dd => ⟨quadRegs ra, quadRegs rb ++ quadRegs rc, [], [dd], .mask⟩
  | .swappb ra rb dd => ⟨pairRegs ra ++ pairRegs rb, pairRegs ra ++ pairRegs rb, [], [dd], .mask⟩
  | .swappt ra rb dd => ⟨quadRegs ra ++ quadRegs rb, quadRegs ra ++ quadRegs rb, [], [dd], .mask⟩

/-- The command's precondition holds in the state (R18). -/
def ready (i : Instr) (s : State) : Bool :=
  match (footprint i).need with
  | .nothing => true
  | .belowP => s.valid (footprint i).readsF
  | .mask => (footprint i).readsD.all fun k => validMask (s.readD k)

/-- The latency of a command (R284, R285): a function of its opcode alone. -/
def latency (i : Instr) : Nat := Config.lat i.opcode

/-! ### Frames -/

/-- STATUS, ERRINFO, the host's queue, the reply and the build parameter are as before. -/
structure SameControl (s t : State) : Prop where
  err : t.err = s.err
  cause : t.cause = s.cause
  errinfo : t.errinfo = s.errinfo
  pending : t.pending = s.pending
  reply : t.reply = s.reply
  debugChecks : t.debugChecks = s.debugChecks

/-- Every F register outside fs, every D register outside ds, and all of `SameControl` are as before. -/
structure SameExcept (fs : List FReg) (ds : List DReg) (s t : State) : Prop extends SameControl s t where
  regs : ∀ r, r ∉ fs → t.readF r = s.readF r
  digits : ∀ k, k ∉ ds → t.readD k = s.readD k

/-- The command answers a next state that differs from s in the registers fs and ds only, with no free value drawn, and of
which `post` holds. The model's own fields (log entries 3 to 6) stay as they were. -/
def Completes (i : Instr) (s : State) (fs : List FReg) (ds : List DReg) (post : State → Prop) : Prop :=
  ∃ t, exec i s = .next t ∧ SameExcept fs ds s t ∧ t.draws = s.draws ∧ post t

/-- `val(W[r])` (R12). -/
def State.wideNum (s : State) (r : FReg) : Nat := s.num r + 2 ^ 768 * s.num (r + 1)

/-! ### The fault record -/

/-- STATUS and ERRINFO as R30 and R31 describe them: while ERR = 0 both CAUSE and ERRINFO are 0; after a fault CAUSE is the
code of an event that can raise it (R241), and ERRINFO is that event's INFO, zero extended: a command word for causes 1,
2 and 4, the address of a refused access for cause 3. Cause 4 needs DEBUG_CHECKS (R246). -/
def FaultRecord (s : State) : Prop :=
  (s.err = false → s.cause = 0 ∧ s.errinfo = 0) ∧
  (s.err = true →
    (s.cause = 1 ∧ ∃ w : Command, s.errinfo = w.setWidth 64 ∧ decode w = .error .illegalOpcode) ∨
    (s.cause = 2 ∧ ∃ w : Command, s.errinfo = w.setWidth 64) ∨
    (s.cause = 3 ∧ ∃ a : Addr, s.errinfo = a.setWidth 64 ∧
      (∀ r j, target a ≠ .felmDigit r j) ∧ (∀ k, target a ≠ .digitReg k)) ∨
    (s.cause = 4 ∧ s.debugChecks = true ∧ ∃ w : Command, ∃ i, s.errinfo = w.setWidth 64 ∧ decode w = .ok i ∧
      (footprint i).need ≠ .nothing))

/-- A safe run has recorded no fault: then every command of it was executed as written (R243, R288). -/
def Safe (s : State) : Prop := s.err = false

end Sys2Proof.Machine
end

