-- ==== Sys2Proof/Certificates/Slice0/Obligations.lean ====
section
/-! DEFINITION. The statements for the provers. Each docstring names the rules of spec/ the statement is about. The block has no
memory (spec/20_memory.md R50, R67), so a frame speaks of F, D, STATUS, ERRINFO and the model's own fields. What a statement
says of the queue, the reply, the build parameter or the count of free values is the model's choice (log entries 3 to 6),
and no rule of the spec. -/

open Sys2Proof Sys2Proof.Machine Sys2Proof.Config

/-! ### Encoding (spec/30_encoding.md) -/

/-- Words written out from the field layout of R80, one example per format (R90), decode to the command they stand for. -/
def Obligations.DecodeExampleWords : Prop :=
  decode (0x45#8 ++ 10#5 ++ 0#5 ++ 0#5 ++ 0#3 ++ 0#6 : BitVec 32) = .ok (.f2zero 10) ∧
  decode (0x3C#8 ++ 2#5 ++ 1#5 ++ 0#5 ++ 0#3 ++ 0#6 : BitVec 32) = .ok (.fpinv 2 1) ∧
  decode (0x47#8 ++ 2#5 ++ 4#5 ++ 6#5 ++ 0#3 ++ 0#6 : BitVec 32) = .ok (.f2mul 2 4 6) ∧
  decode (0x12#8 ++ 3#5 ++ 1#5 ++ 2#5 ++ 1#3 ++ 0#6 : BitVec 32) = .ok (.mpadd 3 1 2 1) ∧
  decode (0x16#8 ++ 0#5 ++ 7#5 ++ 0#5 ++ 2#3 ++ 0#6 : BitVec 32) = .ok (.mpiszero 7 2) ∧
  decode (0x18#8 ++ 0#5 ++ 4#5 ++ 5#5 ++ 0#3 ++ 0#6 : BitVec 32) = .ok (.mpislt 4 5 0) ∧
  decode (0x50#8 ++ 0#5 ++ 1#5 ++ 2#5 ++ 7#3 ++ 0#6 : BitVec 32) = .ok (.self 0 1 2 7) ∧
  decode (0x55#8 ++ 0#5 ++ 4#5 ++ 0#5 ++ 3#3 ++ 0#6 : BitVec 32) = .ok (.swappt 0 4 3)

/-- R80, R81, R85: decoding the word of a well-formed command gives the command, for every command and every operand. -/
def Obligations.DecodeOfEncode : Prop :=
  ∀ i : Instr, i.wellFormed = true → decode (encode i) = .ok i

/-- R82, R84: a word that decodes is the word of the command it decodes to, and that command's groups are aligned. -/
def Obligations.EncodeOfDecode : Prop :=
  ∀ (w : Command) (i : Instr), decode w = .ok i → encode i = w ∧ i.wellFormed = true

/-- R83: the mask of each row is the opcode bits and the must-be-zero bits of its format and group size, its match is the
opcode with zeros elsewhere, and a word is a legal command iff some row's `(w & mask) == match`. -/
def Obligations.LegalWordsAreThoseOfTheRows : Prop :=
  (∀ row ∈ opTable, row.mask = maskOf row.format row.group ∧ row.pattern = (row.op ++ 0#24 : BitVec 32)) ∧
  ∀ w : Command, (∃ i, decode w = .ok i) ↔ ∃ row ∈ opTable, w &&& row.mask = row.pattern

/-- R84: no word is an instance of two rows. -/
def Obligations.NoWordMatchesTwoRows : Prop :=
  opTable.Pairwise fun r₁ r₂ => ∀ w : Command, ¬ (w &&& r₁.mask = r₁.pattern ∧ w &&& r₂.mask = r₂.pattern)

/-- R87: the illegal opcodes are the listed ranges, and nothing else. -/
def Obligations.IllegalOpcodesAreTheListedRanges : Prop :=
  ∀ w : Command, decode w = .error .illegalOpcode ↔
    (let op := w.toNat / 2 ^ 24
     op ≤ 0x0F ∨ (0x19 ≤ op ∧ op ≤ 0x1F) ∨ (0x29 ≤ op ∧ op ≤ 0x2F) ∨ (0x34 ≤ op ∧ op ≤ 0x37) ∨
     (0x3D ≤ op ∧ op ≤ 0x3F) ∨ (0x4B ≤ op ∧ op ≤ 0x4F) ∨ op = 0x53 ∨ 0x56 ≤ op)

/-! ### The step, CMD writes and faults (spec/20_memory.md R58 to R60, spec/60_exceptions.md R241 to R245) -/

/-- R58, R84: when the oldest host event is a CMD write of a word that decodes to i, and ERR = 0, the step is exec of i on the
state with that event gone from the queue and no reply (the queue and the reply are the model's: log entries 5, 6). -/
def Obligations.StepRunsTheDecodedCommand : Prop :=
  ∀ (s : State) (rest : List HostEvent) (w : Command) (i : Instr),
    s.pending = .write 0x0300 (w.setWidth 64) :: rest → s.err = false → decode w = .ok i →
    step s = exec i { s with pending := rest, reply := none }

/-- R58, R84, R87, R88, R242, R245: a CMD write that is no command. With ERR = 0: a non-zero upper half is cause 2 whatever
the low half; else an opcode of no row is cause 1; else a must-be-zero bit is cause 2. ERRINFO gets the low 32 bits, and
no register changes. -/
def Obligations.MalformedCommandRaisesItsCause : Prop :=
  ∀ (s : State) (rest : List HostEvent) (v : Digit),
    s.pending = .write 0x0300 v :: rest → s.err = false →
    let lo : Command := v.setWidth 32
    let after (c : BitVec 4) : State :=
      { s with pending := rest, reply := none, err := true, cause := c, errinfo := lo.setWidth 64 }
    (2 ^ 32 ≤ v.toNat → step s = .next (after 2)) ∧
    (v.toNat < 2 ^ 32 → (∀ row ∈ opTable, row.op ≠ fieldOp lo) → step s = .next (after 1)) ∧
    (v.toNat < 2 ^ 32 → ∀ row ∈ opTable, row.op = fieldOp lo → lo &&& row.mask ≠ row.pattern →
      step s = .next (after 2))

/-- R243: while ERR = 1 a CMD write of any value is discarded: no register, STATUS or ERRINFO changes (the queue and the
reply are the model's: log entries 5, 6). -/
def Obligations.CommandIsDiscardedWhileErr : Prop :=
  ∀ (s : State) (rest : List HostEvent) (v : Digit),
    s.pending = .write 0x0300 v :: rest → s.err = true → step s = .next { s with pending := rest, reply := none }

/-- R244, R242: while ERR = 1 a step either keeps ERR, CAUSE and ERRINFO, or its event is a reset (the reset input, power-on,
or a CTRL write with bit 0 = 1) and it leaves every F and D register, STATUS and ERRINFO at 0. That the event stands first in a
queue is the model's choice (log entry 5). -/
def Obligations.OnlyResetLeavesTheFaultState : Prop :=
  ∀ s t : State, s.err = true → step s = .next t →
    (t.err = true ∧ t.cause = s.cause ∧ t.errinfo = s.errinfo) ∨
    ((∃ e rest, s.pending = e :: rest ∧
        (e = .resetInput ∨ e = .powerOn ∨ ∃ v : Digit, e = .write 0x0303 v ∧ v.toNat % 2 = 1)) ∧
      t.err = false ∧ t.cause = 0 ∧ t.errinfo = 0 ∧ (∀ r, t.readF r = 0) ∧ ∀ k, t.readD k = 0)

/-- R84 "Decoding is total", R240, R242: every host event has an outcome after which the block goes on; no step faults or
refuses, in any state. -/
def Obligations.EveryStepAnswersANextState : Prop :=
  ∀ s : State, ∃ t, step s = .next t

/-- R60, R249 (row H6): with an event pending, a step performs the oldest one, on the state with that event gone from the queue
and no reply; with none pending, it changes nothing. So it takes one event off the queue, keeps the build parameter, and
never lowers the count of free values. The queue, the reply, the parameter's field and the count are the model's choice
(log entries 3 to 6). -/
def Obligations.StepTakesOneEvent : Prop :=
  ∀ s : State,
    (∀ e rest, s.pending = e :: rest → step s = State.perform { s with pending := rest, reply := none } e) ∧
    (s.pending = [] → step s = .next s) ∧
    ∀ t : State, step s = .next t →
      t.pending = s.pending.tail ∧ t.debugChecks = s.debugChecks ∧ s.draws ≤ t.draws

/-- R59: a read of an unmapped or write-only address returns 0, a write to an unmapped or read-only address writes nothing;
either raises cause 3 with the address in ERRINFO, or records nothing when ERR = 1. The addresses are those of the map R53.
That the event leaves the queue, and that a refused write leaves no reply, is the model's choice (log entries 5, 6). -/
def Obligations.RefusedAccess : Prop :=
  ∀ (s : State) (rest : List HostEvent) (a : Addr) (v : Digit),
    let n := a.toNat
    let unmapped := (n < 0x0200 ∧ 12 ≤ n % 16) ∨ (0x0208 ≤ n ∧ n ≤ 0x02FF) ∨ (0x0305 ≤ n ∧ n ≤ 0x03FF) ∨
      (0x040C ≤ n ∧ n ≤ 0x040F) ∨ (0x041C ≤ n ∧ n ≤ 0x041F) ∨ 0x042C ≤ n
    let writeOnly := n = 0x0300 ∨ n = 0x0303
    let readOnly := n = 0x0301 ∨ n = 0x0302 ∨ n = 0x0304 ∨ (0x0400 ≤ n ∧ n ≤ 0x040B) ∨
      (0x0410 ≤ n ∧ n ≤ 0x041B) ∨ (0x0420 ≤ n ∧ n ≤ 0x042B)
    let after (reply : Option Digit) : State :=
      if s.err then { s with pending := rest, reply := reply }
      else { s with pending := rest, reply := reply, err := true, cause := 3, errinfo := a.setWidth 64 }
    (s.pending = .read a :: rest → (unmapped ∨ writeOnly) → step s = .next (after (some 0))) ∧
    (s.pending = .write a v :: rest → (unmapped ∨ readOnly) → step s = .next (after none))

/-! ### The windows of the host port (spec/20_memory.md R54 to R57) -/

/-- R54: for r in 0..31 and j in 0..11 a read of 16·r + j returns digit j of F[r] and changes nothing; a write sets that digit,
leaves the other eleven of F[r] and every other register, STATUS and ERRINFO as they were. The last two clauses are the
addresses of the groups: the pair 2k, 2k + 1 starts at 32·k and the quad 4k to 4k + 3 at 64·k, its registers at consecutive
slots of 16 words; each is read and written there. The queue and the reply are the model's choice (log entries 5, 6). -/
def Obligations.FWindow : Prop :=
  (∀ (s : State) (rest : List HostEvent) (r : FReg) (j : Fin 12),
    s.pending = .read (BitVec.ofNat 16 (16 * r.val + j.val)) :: rest →
    step s = .next { s with
      pending := rest, reply := some (BitVec.ofNat 64 (s.num r / 2 ^ (64 * j.val))) }) ∧
  (∀ (s : State) (rest : List HostEvent) (r : FReg) (j : Fin 12) (v : Digit),
    s.pending = .write (BitVec.ofNat 16 (16 * r.val + j.val)) v :: rest →
    ∃ t, step s = .next t ∧ SameExcept [r] [] { s with pending := rest, reply := none } t ∧ t.draws = s.draws ∧
      t.num r / 2 ^ (64 * j.val) % 2 ^ 64 = v.toNat ∧
      ∀ k : Fin 12, k ≠ j → t.num r / 2 ^ (64 * k.val) % 2 ^ 64 = s.num r / 2 ^ (64 * k.val) % 2 ^ 64) ∧
  (∀ (s : State) (rest : List HostEvent) (k : Fin 16) (h : Fin 2) (j : Fin 12) (v : Digit),
    let r : FReg := ⟨2 * k.val + h.val, by omega⟩
    let a : Addr := BitVec.ofNat 16 (32 * k.val + 16 * h.val + j.val)
    (s.pending = .read a :: rest →
      step s = .next { s with pending := rest, reply := some (BitVec.ofNat 64 (s.num r / 2 ^ (64 * j.val))) }) ∧
    (s.pending = .write a v :: rest →
      ∃ t, step s = .next t ∧ SameExcept [r] [] { s with pending := rest, reply := none } t ∧
        t.num r / 2 ^ (64 * j.val) % 2 ^ 64 = v.toNat)) ∧
  (∀ (s : State) (rest : List HostEvent) (k : Fin 8) (h : Fin 4) (j : Fin 12) (v : Digit),
    let r : FReg := ⟨4 * k.val + h.val, by omega⟩
    let a : Addr := BitVec.ofNat 16 (64 * k.val + 16 * h.val + j.val)
    (s.pending = .read a :: rest →
      step s = .next { s with pending := rest, reply := some (BitVec.ofNat 64 (s.num r / 2 ^ (64 * j.val))) }) ∧
    (s.pending = .write a v :: rest →
      ∃ t, step s = .next t ∧ SameExcept [r] [] { s with pending := rest, reply := none } t ∧
        t.num r / 2 ^ (64 * j.val) % 2 ^ 64 = v.toNat))

/-- R55: for k in 0..7 a read of 0x0200 + k returns D[k], and a write of any 64-bit value sets D[k], with no other
effect. The queue and the reply are the model's choice (log entries 5, 6). -/
def Obligations.DWindow : Prop :=
  (∀ (s : State) (rest : List HostEvent) (k : DReg),
    s.pending = .read (BitVec.ofNat 16 (0x0200 + k.val)) :: rest →
    step s = .next { s with pending := rest, reply := some (s.readD k) }) ∧
  (∀ (s : State) (rest : List HostEvent) (k : DReg) (v : Digit),
    s.pending = .write (BitVec.ofNat 16 (0x0200 + k.val)) v :: rest →
    ∃ t, step s = .next t ∧ SameExcept [] [k] { s with pending := rest, reply := none } t ∧ t.draws = s.draws ∧
      t.readD k = v)

/-- R56, R30, R31, R33: reads of STATUS (ERR in bit 0, CAUSE in bits 7:4, all else 0), ERRINFO and ID; none changes state.
The queue and the reply are the model's choice (log entries 5, 6). -/
def Obligations.ControlRegisterReads : Prop :=
  ∀ (s : State) (rest : List HostEvent),
    (s.pending = .read 0x0301 :: rest → ∃ v : Digit,
      step s = .next { s with pending := rest, reply := some v } ∧
      v.toNat = (if s.err then 1 else 0) + 16 * s.cause.toNat) ∧
    (s.pending = .read 0x0302 :: rest → step s = .next { s with pending := rest, reply := some s.errinfo }) ∧
    (s.pending = .read 0x0304 :: rest → step s = .next { s with pending := rest, reply := some 0x10820400C })

/-- R57, R27, R29: the constants window returns the digits of P, P + 1 and R² mod P whatever has happened before. P's numeric
value is PRESUMED (log entry 1); the queue and the reply are the model's choice (log entries 5, 6). -/
def Obligations.ConstantsWindow : Prop :=
  ∀ (s : State) (rest : List HostEvent) (j : Fin 12),
    let reads (base : Nat) (c : Nat) : Prop :=
      s.pending = .read (BitVec.ofNat 16 (base + j.val)) :: rest →
      step s = .next { s with pending := rest, reply := some (BitVec.ofNat 64 (c / 2 ^ (64 * j.val))) }
    reads 0x0400 P ∧ reads 0x0410 (P + 1) ∧ reads 0x0420 ((2 ^ 768) ^ 2 % P)

/-! ### Reset (spec/70_reset_and_hazards.md R270, spec/10_state.md R38) -/

/-- R270, R56: the reset input, power-on and a CTRL write with bit 0 = 1 have the same effect: F, D, STATUS and ERRINFO become
0, whether or not ERR was 1. A CTRL write with bit 0 = 0 changes nothing. That the host's queue, the build parameter and
the count of free values stay is the model's choice (log entries 3 to 5). -/
def Obligations.ResetsClearTheState : Prop :=
  (∀ (s : State) (e : HostEvent) (rest : List HostEvent),
    s.pending = e :: rest →
    (e = .resetInput ∨ e = .powerOn ∨ ∃ v : Digit, e = .write 0x0303 v ∧ v.toNat % 2 = 1) →
    ∃ t, step s = .next t ∧ (∀ r, t.readF r = 0) ∧ (∀ k, t.readD k = 0) ∧ t.err = false ∧ t.cause = 0 ∧
      t.errinfo = 0 ∧ t.pending = rest ∧ t.debugChecks = s.debugChecks ∧ t.draws = s.draws) ∧
  (∀ (s : State) (rest : List HostEvent) (v : Digit),
    s.pending = .write 0x0303 v :: rest → v.toNat % 2 = 0 →
    step s = .next { s with pending := rest, reply := none })

/-- R38: after reset every F and D register, STATUS and ERRINFO are 0. -/
def Obligations.ResetStateIsZero : Prop :=
  (∀ r, State.reset.readF r = 0) ∧ (∀ k, State.reset.readD k = 0) ∧ State.reset.status = 0 ∧
    State.reset.errinfo = 0

/-! ### The fault record (spec/10_state.md R30, R31, spec/60_exceptions.md R241, R242) -/

/-- R30, R31, R241: the fault record is as the rules describe it after every step from a state in which it is. (That
DEBUG_CHECKS is a field of State is the model's choice, log entry 4.) -/
def Obligations.FaultRecordIsKept : Prop :=
  ∀ s t : State, FaultRecord s → step s = .next t → FaultRecord t

/-- The fault record of the reset state is as the rules describe it. -/
def Obligations.FaultRecordAtReset : Prop := FaultRecord State.reset

/-! ### Every command: frame, completion, free values, sources -/

/-- R17, R18, R68: every well-formed command whose precondition holds answers a next state, for each of the 43 commands. It
writes the registers of its footprint only, raises nothing and draws no free value (the model's own fields stay as they
were: log entries 3 to 6). -/
def Obligations.ReadyCommandCompletesInItsFrame : Prop :=
  ∀ (i : Instr) (s : State), i.wellFormed = true → ready i s = true →
    ∃ t, exec i s = .next t ∧ SameExcept (footprint i).writesF (footprint i).writesD s t ∧ t.draws = s.draws

/-- R16, R18, R132, R190, R225 with DEBUG_CHECKS false: a well-formed command whose precondition fails completes without a
fault; each destination register holds a free value (of a draw of its own: the model's form, log entry 2); nothing else
changes, D registers among it. -/
def Obligations.UnmetPreconditionLeavesFreeValues : Prop :=
  ∀ (i : Instr) (s : State), i.wellFormed = true → ready i s = false → s.debugChecks = false →
    ∃ t, exec i s = .next t ∧ SameExcept (footprint i).writesF [] s t ∧
      ∃ draw : FReg → Nat,
        (∀ r ∈ (footprint i).writesF, s.draws ≤ draw r ∧ draw r < t.draws ∧ t.readF r = anyFelm (draw r)) ∧
        ∀ r ∈ (footprint i).writesF, ∀ q ∈ (footprint i).writesF, draw r = draw q → r = q

/-- R246 with DEBUG_CHECKS true: a well-formed command whose precondition fails raises cause 4 with its word as INFO (the
encoding of the command: DEDUCED, log entry 15; DEBUG_CHECKS as a field of State: log entry 4) and writes no register. -/
def Obligations.UnmetPreconditionFaultsUnderDebugChecks : Prop :=
  ∀ (i : Instr) (s : State), i.wellFormed = true → ready i s = false → s.debugChecks = true → s.err = false →
    exec i s = .next { s with err := true, cause := 4, errinfo := (encode i).setWidth 64 }

/-- R68, R284: what a command writes depends on its source registers alone. Two states that agree on the sources, in which the
precondition holds, agree on every destination afterwards. -/
def Obligations.ResultsDependOnTheSourcesAlone : Prop :=
  ∀ (i : Instr) (s₁ s₂ : State), i.wellFormed = true → ready i s₁ = true →
    (∀ r ∈ (footprint i).readsF, s₁.readF r = s₂.readF r) → (∀ k ∈ (footprint i).readsD, s₁.readD k = s₂.readD k) →
    ∃ t₁ t₂, exec i s₁ = .next t₁ ∧ exec i s₂ = .next t₂ ∧
      (∀ r ∈ (footprint i).writesF, t₁.readF r = t₂.readF r) ∧ ∀ k ∈ (footprint i).writesD, t₁.readD k = t₂.readD k

/-- R22, R130, R190: a field command whose sources are below P writes values below P (P's numeric value is PRESUMED, log
entry 1). -/
def Obligations.FieldResultsStayBelowP : Prop :=
  ∀ (i : Instr) (s : State), i.wellFormed = true → (footprint i).need = .belowP → ready i s = true →
    ∃ t, exec i s = .next t ∧ ∀ r ∈ (footprint i).writesF, t.num r < P

/-! ### The digit layer (spec/40_digit_layer.md) -/

/-- R101, R102, R111, R112, R195, R196: MPCOPY, MPZERO, MPCOPYW, MPZEROW, F2COPY and F2ZERO, on any bit patterns. -/
def Obligations.CopiesAndZeros : Prop :=
  ∀ (s : State) (ra rb : FReg),
    Completes (.mpcopy ra rb) s [ra] [] (fun t => t.readF ra = s.readF rb) ∧
    Completes (.mpzero ra) s [ra] [] (fun t => t.readF ra = 0) ∧
    Completes (.mpcopyw ra rb) s [ra, ra + 1] []
      (fun t => t.readF ra = s.readF rb ∧ t.readF (ra + 1) = s.readF (rb + 1)) ∧
    Completes (.mpzerow ra) s [ra, ra + 1] [] (fun t => t.readF ra = 0 ∧ t.readF (ra + 1) = 0) ∧
    Completes (.f2copy ra rb) s [ra, ra + 1] []
      (fun t => t.readF ra = s.readF rb ∧ t.readF (ra + 1) = s.readF (rb + 1)) ∧
    Completes (.f2zero ra) s [ra, ra + 1] [] (fun t => t.readF ra = 0 ∧ t.readF (ra + 1) = 0)

/-- R111, R112: MPCOPYW has the same effect as F2COPY with the same fields, MPZEROW the same effect as F2ZERO. -/
def Obligations.WideAndPairCommandsAgree : Prop :=
  ∀ (s : State) (ra rb : FReg),
    exec (.mpcopyw ra rb) s = exec (.f2copy ra rb) s ∧ exec (.mpzerow ra) s = exec (.f2zero ra) s

/-- R103, R104: MPADD and MPSUB: the sum and the difference modulo 2^768, the carry and the borrow in D[dd]. -/
def Obligations.NarrowAddAndSubtract : Prop :=
  ∀ (s : State) (ra rb rc : FReg) (dd : DReg),
    Completes (.mpadd ra rb rc dd) s [ra] [dd] (fun t =>
      t.num ra = (s.num rb + s.num rc) % 2 ^ 768 ∧ (t.readD dd).toNat = (s.num rb + s.num rc) / 2 ^ 768) ∧
    Completes (.mpsub ra rb rc dd) s [ra] [dd] (fun t =>
      (t.num ra : Int) = ((s.num rb : Int) - s.num rc) % 2 ^ 768 ∧
      t.readD dd = if s.num rb < s.num rc then 1 else 0)

/-- R113, R114: MPADDW and MPSUBW: the same on 1536-bit values. -/
def Obligations.WideAddAndSubtract : Prop :=
  ∀ (s : State) (ra rb rc : FReg) (dd : DReg),
    Completes (.mpaddw ra rb rc dd) s [ra, ra + 1] [dd] (fun t =>
      t.wideNum ra = (s.wideNum rb + s.wideNum rc) % 2 ^ 1536 ∧
      (t.readD dd).toNat = (s.wideNum rb + s.wideNum rc) / 2 ^ 1536) ∧
    Completes (.mpsubw ra rb rc dd) s [ra, ra + 1] [dd] (fun t =>
      (t.wideNum ra : Int) = ((s.wideNum rb : Int) - s.wideNum rc) % 2 ^ 1536 ∧
      t.readD dd = if s.wideNum rb < s.wideNum rc then 1 else 0)

/-- R105, R106, R115, R116: the one-bit shifts, narrow and wide: floor(x / 2), and 2·x modulo 2^n. -/
def Obligations.OneBitShifts : Prop :=
  ∀ (s : State) (ra rb : FReg),
    Completes (.mpshr1 ra rb) s [ra] [] (fun t => t.num ra = s.num rb / 2) ∧
    Completes (.mpshl1 ra rb) s [ra] [] (fun t => t.num ra = 2 * s.num rb % 2 ^ 768) ∧
    Completes (.mpshr1w ra rb) s [ra, ra + 1] [] (fun t => t.wideNum ra = s.wideNum rb / 2) ∧
    Completes (.mpshl1w ra rb) s [ra, ra + 1] [] (fun t => t.wideNum ra = 2 * s.wideNum rb % 2 ^ 1536)

/-- R107, R108, R109, R117, R118, R119: the predicates write 1 or 0 to D[dd] and no F register. The wide evenness is that of
the low register; the wide comparison is decided by the high registers first. -/
def Obligations.DigitPredicates : Prop :=
  ∀ (s : State) (rb rc : FReg) (dd : DReg),
    Completes (.mpiszero rb dd) s [] [dd] (fun t => t.readD dd = if s.num rb = 0 then 1 else 0) ∧
    Completes (.mpiseven rb dd) s [] [dd] (fun t => t.readD dd = if s.num rb % 2 = 0 then 1 else 0) ∧
    Completes (.mpislt rb rc dd) s [] [dd] (fun t => t.readD dd = if s.num rb < s.num rc then 1 else 0) ∧
    Completes (.mpiszerow rb dd) s [] [dd] (fun t =>
      t.readD dd = if s.num rb = 0 ∧ s.num (rb + 1) = 0 then 1 else 0) ∧
    Completes (.mpisevenw rb dd) s [] [dd] (fun t => t.readD dd = if s.num rb % 2 = 0 then 1 else 0) ∧
    Completes (.mpisltw rb rc dd) s [] [dd] (fun t =>
      t.readD dd = if s.num (rb + 1) < s.num (rc + 1) ∨ (s.num (rb + 1) = s.num (rc + 1) ∧ s.num rb < s.num rc)
        then 1 else 0)

/-! ### The base field (spec/41_base_field.md, spec/42_montgomery.md, spec/43_inversion.md) -/

/-- R131, R134 to R137: FPADD, FPSUB, FPNEG and FPDIV2 on sources below P; the result is the one value below P that the
field operation determines (P's numeric value is PRESUMED, log entry 1). -/
def Obligations.BaseFieldOperations : Prop :=
  ∀ (s : State) (ra rb rc : FReg), s.num rb < P → s.num rc < P →
    Completes (.fpadd ra rb rc) s [ra] [] (fun t =>
      t.num ra = if s.num rb + s.num rc < P then s.num rb + s.num rc else s.num rb + s.num rc - P) ∧
    Completes (.fpsub ra rb rc) s [ra] [] (fun t => t.num ra < P ∧ (t.num ra + s.num rc) % P = s.num rb) ∧
    Completes (.fpneg ra rb) s [ra] [] (fun t => t.num ra < P ∧ (t.num ra + s.num rb) % P = 0) ∧
    Completes (.fpdiv2 ra rb) s [ra] [] (fun t => t.num ra < P ∧ 2 * t.num ra % P = s.num rb)

/-- R151, R152, R154 to R157: FPMUL, FPSQR, FPTOMONT and FPFROMMONT on sources below P; the result c is the one value below P
with c·R ≡ x·y (mod P) (P's numeric value is PRESUMED, log entry 1). -/
def Obligations.MontgomeryOperations : Prop :=
  ∀ (s : State) (ra rb rc : FReg), s.num rb < P → s.num rc < P →
    Completes (.fpmul ra rb rc) s [ra] [] (fun t =>
      t.num ra < P ∧ t.num ra * 2 ^ 768 % P = s.num rb * s.num rc % P) ∧
    Completes (.fpsqr ra rb) s [ra] [] (fun t =>
      t.num ra < P ∧ t.num ra * 2 ^ 768 % P = s.num rb * s.num rb % P) ∧
    Completes (.fptomont ra rb) s [ra] [] (fun t => t.num ra = s.num rb * 2 ^ 768 % P) ∧
    Completes (.fpfrommont ra rb) s [ra] [] (fun t => t.num ra < P ∧ t.num ra * 2 ^ 768 % P = s.num rb)

/-- R158, with the functions TM and FM of FPTOMONT and FPFROMMONT and mm of FPMUL: the round trip through Montgomery multiply
is plain modular multiplication, and FM after TM is the identity (P's numeric value is PRESUMED, log entry 1). -/
def Obligations.MontgomeryRoundTrip : Prop :=
  let TM (x : Nat) : Nat := mm x R2
  let FM (x : Nat) : Nat := mm x one
  ∀ a b : Nat, a < P → b < P →
    TM a = a * 2 ^ 768 % P ∧ FM (mm (TM a) (TM b)) = a * b % P ∧ FM (TM a) = a

/-- R170, R175, R176: FPINV of x with 0 < x < P writes the value c < P with c·x ≡ R² (mod P), so that the Montgomery product of
c and x is R mod P; FPINV of 0 writes 0 and raises nothing (P's numeric value is PRESUMED, log entry 1). -/
def Obligations.InversionInverts : Prop :=
  ∀ (s : State) (ra rb : FReg), s.num rb < P →
    Completes (.fpinv ra rb) s [ra] [] (fun t =>
      t.num ra < P ∧
      (s.num rb ≠ 0 → t.num ra * s.num rb % P = (2 ^ 768) ^ 2 % P ∧ mm (t.num ra) (s.num rb) = 2 ^ 768 % P) ∧
      (s.num rb = 0 → t.num ra = 0))

/-- R174: the schedule's exponents: ((P − 3)/4) >> 366 after step 55, (P − 3)/4 after step 116, P − 2 after step 117; the
squarings of the steps sum to 382 + 366 + 2 = 750 (P's numeric value is PRESUMED, log entry 1). -/
def Obligations.ChainRepresentsPMinusTwo : Prop :=
  (chain.take 55).foldl exponentStep 1 = (P - 3) / 4 / 2 ^ 366 ∧
  (chain.take 116).foldl exponentStep 1 = (P - 3) / 4 ∧
  chain.foldl exponentStep 1 = 4 * ((P - 3) / 4) + 1 ∧ 4 * ((P - 3) / 4) + 1 = P - 2 ∧
  ((chain.take 55).map Prod.fst).sum = 382 ∧ (((chain.drop 55).take 61).map Prod.fst).sum = 366 ∧
  (chain.map Prod.fst).sum = 750 ∧ chain.length = 117

/-- R177: for every operand, zero included, finv executes the same operations in the same order with the same table indices:
751 squarings and 148 multiplications (31 for the table, 117 in the chain). -/
def Obligations.InversionTraceIsConstant : Prop :=
  (∀ x : Nat, finvLogged x = (finv x, finvTrace)) ∧
  finvTrace.count .square = 751 ∧ finvTrace.count .multiplyBySquare = 31 ∧
  (finvTrace.filter fun o => o ≠ .square ∧ o ≠ .multiplyBySquare).length = 117 ∧ finvTrace.length = 751 + 148

/-! ### GF(p²) (spec/44_gfp2.md) -/

/-- R191 to R194, R200, R201: the component-wise commands on components below P; the two components never interact
(P's numeric value is PRESUMED, log entry 1). -/
def Obligations.ComponentWiseCommands : Prop :=
  ∀ (s : State) (ra rb rc : FReg), s.num rb < P → s.num (rb + 1) < P → s.num rc < P → s.num (rc + 1) < P →
    Completes (.f2add ra rb rc) s [ra, ra + 1] [] (fun t =>
      t.num ra = (s.num rb + s.num rc) % P ∧ t.num (ra + 1) = (s.num (rb + 1) + s.num (rc + 1)) % P) ∧
    Completes (.f2sub ra rb rc) s [ra, ra + 1] [] (fun t =>
      t.num ra < P ∧ (t.num ra + s.num rc) % P = s.num rb ∧
      t.num (ra + 1) < P ∧ (t.num (ra + 1) + s.num (rc + 1)) % P = s.num (rb + 1)) ∧
    Completes (.f2neg ra rb) s [ra, ra + 1] [] (fun t =>
      t.num ra < P ∧ (t.num ra + s.num rb) % P = 0 ∧
      t.num (ra + 1) < P ∧ (t.num (ra + 1) + s.num (rb + 1)) % P = 0) ∧
    Completes (.f2div2 ra rb) s [ra, ra + 1] [] (fun t =>
      t.num ra < P ∧ 2 * t.num ra % P = s.num rb ∧
      t.num (ra + 1) < P ∧ 2 * t.num (ra + 1) % P = s.num (rb + 1)) ∧
    Completes (.f2tomont ra rb) s [ra, ra + 1] [] (fun t =>
      t.num ra = s.num rb * 2 ^ 768 % P ∧ t.num (ra + 1) = s.num (rb + 1) * 2 ^ 768 % P) ∧
    Completes (.f2frommont ra rb) s [ra, ra + 1] [] (fun t =>
      t.num ra < P ∧ t.num ra * 2 ^ 768 % P = s.num rb ∧
      t.num (ra + 1) < P ∧ t.num (ra + 1) * 2 ^ 768 % P = s.num (rb + 1))

/-- R198: F2MUL on components below P, by its value: c0·R ≡ a0·b0 − a1·b1 and c1·R ≡ a0·b1 + a1·b0 (mod P), c0, c1 < P
(P's numeric value is PRESUMED, log entry 1). -/
def Obligations.KaratsubaMultiplies : Prop :=
  ∀ (s : State) (ra rb rc : FReg), s.num rb < P → s.num (rb + 1) < P → s.num rc < P → s.num (rc + 1) < P →
    Completes (.f2mul ra rb rc) s [ra, ra + 1] [] (fun t =>
      t.num ra < P ∧ t.num (ra + 1) < P ∧
      (t.num ra * 2 ^ 768 + s.num (rb + 1) * s.num (rc + 1)) % P = s.num rb * s.num rc % P ∧
      t.num (ra + 1) * 2 ^ 768 % P = (s.num rb * s.num (rc + 1) + s.num (rb + 1) * s.num rc) % P)

/-- R197: F2SQR on components below P: c0·R ≡ a0² − a1² and c1·R ≡ 2·a0·a1 (mod P), c0, c1 < P; and its result equals that of
`F2MUL Ea, Eb, Eb` digit for digit (the same next state). P's numeric value is PRESUMED (log entry 1). -/
def Obligations.SquarerSquares : Prop :=
  ∀ (s : State) (ra rb : FReg), s.num rb < P → s.num (rb + 1) < P →
    Completes (.f2sqr ra rb) s [ra, ra + 1] [] (fun t =>
      t.num ra < P ∧ t.num (ra + 1) < P ∧
      (t.num ra * 2 ^ 768 + s.num (rb + 1) * s.num (rb + 1)) % P = s.num rb * s.num rb % P ∧
      t.num (ra + 1) * 2 ^ 768 % P = 2 * s.num rb * s.num (rb + 1) % P) ∧
    exec (.f2sqr ra rb) s = exec (.f2mul ra rb rb) s

/-- R199, R250: F2INV of a non-zero element with components below P, then the product with the original (by F2MUL's function),
is (R mod P, 0), the Montgomery form of one; F2INV of (0, 0) writes (0, 0) and raises nothing (P's numeric
value is PRESUMED, log entry 1). -/
def Obligations.NormInverterInverts : Prop :=
  ∀ (s : State) (ra rb : FReg), s.num rb < P → s.num (rb + 1) < P →
    Completes (.f2inv ra rb) s [ra, ra + 1] [] (fun t =>
      t.num ra < P ∧ t.num (ra + 1) < P ∧
      (s.num rb ≠ 0 ∨ s.num (rb + 1) ≠ 0 →
        f2mul (t.num ra) (t.num (ra + 1)) (s.num rb) (s.num (rb + 1)) = (2 ^ 768 % P, 0)) ∧
      (s.num rb = 0 ∧ s.num (rb + 1) = 0 → t.num ra = 0 ∧ t.num (ra + 1) = 0))

/-- R202: for valid elements, F2MUL's function is commutative and distributes over F2ADD's, F2SQR's function is the product of
an element with itself, and F2INV's function gives an inverse of every element but (0, 0) (P's numeric value is PRESUMED,
log entry 1). -/
def Obligations.ExtensionFieldLaws : Prop :=
  let mul (a b : Nat × Nat) : Nat × Nat := f2mul a.1 a.2 b.1 b.2
  let add (a b : Nat × Nat) : Nat × Nat := (fpadd a.1 b.1, fpadd a.2 b.2)
  ∀ a b c : Nat × Nat, a.1 < P → a.2 < P → b.1 < P → b.2 < P → c.1 < P → c.2 < P →
    mul a b = mul b a ∧ mul a (add b c) = add (mul a b) (mul a c) ∧ f2sqr a.1 a.2 = mul a a ∧
    (a ≠ (0, 0) → mul (f2inv a.1 a.2) a = (2 ^ 768 % P, 0))

/-! ### Select and swap (spec/45_select_swap.md) -/

/-- R220, R222 to R224: SELF, SELF2 and SELPT take x under the all-zero mask and y under the all-one mask, whole groups, any
bit patterns; D[dd] is not changed. -/
def Obligations.SelectTakesOneGroup : Prop :=
  ∀ (s : State) (ra rb rc : FReg) (dd : DReg) (y : Bool), s.readD dd = (if y then 0xFFFFFFFFFFFFFFFF else 0) →
    let src : FReg := if y then rc else rb
    Completes (.self ra rb rc dd) s [ra] [] (fun t => t.readF ra = s.readF src) ∧
    Completes (.self2 ra rb rc dd) s [ra, ra + 1] [] (fun t =>
      t.readF ra = s.readF src ∧ t.readF (ra + 1) = s.readF (src + 1)) ∧
    Completes (.selpt ra rb rc dd) s [ra, ra + 1, ra + 2, ra + 3] [] (fun t =>
      t.readF ra = s.readF src ∧ t.readF (ra + 1) = s.readF (src + 1) ∧ t.readF (ra + 2) = s.readF (src + 2) ∧
      t.readF (ra + 3) = s.readF (src + 3))

/-- R226, R227: SWAPPB and SWAPPT on aligned groups: under the all-one mask the groups are exchanged register by register,
under the all-zero mask no register changes. -/
def Obligations.SwapExchangesTheGroups : Prop :=
  ∀ (s : State) (ra rb : FReg) (dd : DReg) (m : Bool), s.readD dd = (if m then 0xFFFFFFFFFFFFFFFF else 0) →
    (ra.val % 2 = 0 → rb.val % 2 = 0 →
      Completes (.swappb ra rb dd) s [ra, ra + 1, rb, rb + 1] [] (fun t =>
        ∀ k ∈ ([0, 1] : List FReg),
          t.readF (ra + k) = s.readF (if m then rb + k else ra + k) ∧
          t.readF (rb + k) = s.readF (if m then ra + k else rb + k))) ∧
    (ra.val % 4 = 0 → rb.val % 4 = 0 →
      Completes (.swappt ra rb dd) s [ra, ra + 1, ra + 2, ra + 3, rb, rb + 1, rb + 2, rb + 3] [] (fun t =>
        ∀ k ∈ ([0, 1, 2, 3] : List FReg),
          t.readF (ra + k) = s.readF (if m then rb + k else ra + k) ∧
          t.readF (rb + k) = s.readF (if m then ra + k else rb + k)))

/-- R228: a swap under the all-zero mask leaves the state as it was; under the all-one mask, issued twice, it restores it
(the model's own fields included: log entries 3 to 6). -/
def Obligations.SwapIsAnInvolution : Prop :=
  ∀ (s : State) (i : Instr) (ra rb : FReg) (dd : DReg), i.wellFormed = true →
    (i = .swappb ra rb dd ∨ i = .swappt ra rb dd) →
    (s.readD dd = 0 → exec i s = .next s) ∧
    (s.readD dd = 0xFFFFFFFFFFFFFFFF → ∃ t, exec i s = .next t ∧ exec i t = .next s)
end

