-- ==== Sys2Proof/Laws/State.lean ====
section
/-! SUPPORT. One lemma per field per update of State, true by rfl, so that no proof unfolds a record update; and the reads of
registers after the updates. -/

set_option Elab.async false

namespace Sys2Proof.Machine

variable (s : State)

/-! ### writeF -/

@[simp] theorem State.writeF_F (r : FReg) (v : Felm) : (s.writeF r v).F = s.F.set r v := rfl
@[simp] theorem State.writeF_D (r : FReg) (v : Felm) : (s.writeF r v).D = s.D := rfl
@[simp] theorem State.writeF_err (r : FReg) (v : Felm) : (s.writeF r v).err = s.err := rfl
@[simp] theorem State.writeF_cause (r : FReg) (v : Felm) : (s.writeF r v).cause = s.cause := rfl
@[simp] theorem State.writeF_errinfo (r : FReg) (v : Felm) : (s.writeF r v).errinfo = s.errinfo := rfl
@[simp] theorem State.writeF_pending (r : FReg) (v : Felm) : (s.writeF r v).pending = s.pending := rfl
@[simp] theorem State.writeF_reply (r : FReg) (v : Felm) : (s.writeF r v).reply = s.reply := rfl
@[simp] theorem State.writeF_debugChecks (r : FReg) (v : Felm) : (s.writeF r v).debugChecks = s.debugChecks := rfl
@[simp] theorem State.writeF_draws (r : FReg) (v : Felm) : (s.writeF r v).draws = s.draws := rfl

/-! ### writeD -/

@[simp] theorem State.writeD_F (k : DReg) (v : Digit) : (s.writeD k v).F = s.F := rfl
@[simp] theorem State.writeD_D (k : DReg) (v : Digit) : (s.writeD k v).D = s.D.set k v := rfl
@[simp] theorem State.writeD_err (k : DReg) (v : Digit) : (s.writeD k v).err = s.err := rfl
@[simp] theorem State.writeD_cause (k : DReg) (v : Digit) : (s.writeD k v).cause = s.cause := rfl
@[simp] theorem State.writeD_errinfo (k : DReg) (v : Digit) : (s.writeD k v).errinfo = s.errinfo := rfl
@[simp] theorem State.writeD_pending (k : DReg) (v : Digit) : (s.writeD k v).pending = s.pending := rfl
@[simp] theorem State.writeD_reply (k : DReg) (v : Digit) : (s.writeD k v).reply = s.reply := rfl
@[simp] theorem State.writeD_debugChecks (k : DReg) (v : Digit) : (s.writeD k v).debugChecks = s.debugChecks := rfl
@[simp] theorem State.writeD_draws (k : DReg) (v : Digit) : (s.writeD k v).draws = s.draws := rfl

/-! ### writeAny -/

@[simp] theorem State.writeAny_F (r : FReg) : (s.writeAny r).F = s.F.set r (Config.anyFelm s.draws) := rfl
@[simp] theorem State.writeAny_D (r : FReg) : (s.writeAny r).D = s.D := rfl
@[simp] theorem State.writeAny_err (r : FReg) : (s.writeAny r).err = s.err := rfl
@[simp] theorem State.writeAny_cause (r : FReg) : (s.writeAny r).cause = s.cause := rfl
@[simp] theorem State.writeAny_errinfo (r : FReg) : (s.writeAny r).errinfo = s.errinfo := rfl
@[simp] theorem State.writeAny_pending (r : FReg) : (s.writeAny r).pending = s.pending := rfl
@[simp] theorem State.writeAny_reply (r : FReg) : (s.writeAny r).reply = s.reply := rfl
@[simp] theorem State.writeAny_debugChecks (r : FReg) : (s.writeAny r).debugChecks = s.debugChecks := rfl
@[simp] theorem State.writeAny_draws (r : FReg) : (s.writeAny r).draws = s.draws + 1 := rfl

/-! ### answer -/

@[simp] theorem State.answer_F (v : Digit) : (s.answer v).F = s.F := rfl
@[simp] theorem State.answer_D (v : Digit) : (s.answer v).D = s.D := rfl
@[simp] theorem State.answer_err (v : Digit) : (s.answer v).err = s.err := rfl
@[simp] theorem State.answer_cause (v : Digit) : (s.answer v).cause = s.cause := rfl
@[simp] theorem State.answer_errinfo (v : Digit) : (s.answer v).errinfo = s.errinfo := rfl
@[simp] theorem State.answer_pending (v : Digit) : (s.answer v).pending = s.pending := rfl
@[simp] theorem State.answer_reply (v : Digit) : (s.answer v).reply = some v := rfl
@[simp] theorem State.answer_debugChecks (v : Digit) : (s.answer v).debugChecks = s.debugChecks := rfl
@[simp] theorem State.answer_draws (v : Digit) : (s.answer v).draws = s.draws := rfl

/-! ### begin -/

@[simp] theorem State.begin_F (rest : List HostEvent) : (s.begin rest).F = s.F := rfl
@[simp] theorem State.begin_D (rest : List HostEvent) : (s.begin rest).D = s.D := rfl
@[simp] theorem State.begin_err (rest : List HostEvent) : (s.begin rest).err = s.err := rfl
@[simp] theorem State.begin_cause (rest : List HostEvent) : (s.begin rest).cause = s.cause := rfl
@[simp] theorem State.begin_errinfo (rest : List HostEvent) : (s.begin rest).errinfo = s.errinfo := rfl
@[simp] theorem State.begin_pending (rest : List HostEvent) : (s.begin rest).pending = rest := rfl
@[simp] theorem State.begin_reply (rest : List HostEvent) : (s.begin rest).reply = none := rfl
@[simp] theorem State.begin_debugChecks (rest : List HostEvent) : (s.begin rest).debugChecks = s.debugChecks := rfl
@[simp] theorem State.begin_draws (rest : List HostEvent) : (s.begin rest).draws = s.draws := rfl

/-! ### doReset -/

@[simp] theorem State.doReset_F : (s.doReset).F = Vector.replicate 32 0 := rfl
@[simp] theorem State.doReset_D : (s.doReset).D = Vector.replicate 8 0 := rfl
@[simp] theorem State.doReset_err : (s.doReset).err = false := rfl
@[simp] theorem State.doReset_cause : (s.doReset).cause = 0 := rfl
@[simp] theorem State.doReset_errinfo : (s.doReset).errinfo = 0 := rfl
@[simp] theorem State.doReset_pending : (s.doReset).pending = s.pending := rfl
@[simp] theorem State.doReset_reply : (s.doReset).reply = s.reply := rfl
@[simp] theorem State.doReset_debugChecks : (s.doReset).debugChecks = s.debugChecks := rfl
@[simp] theorem State.doReset_draws : (s.doReset).draws = s.draws := rfl

/-! ### queueCommand -/

@[simp] theorem State.queueCommand_F (w : Nat) : (s.queueCommand w).F = s.F := rfl
@[simp] theorem State.queueCommand_D (w : Nat) : (s.queueCommand w).D = s.D := rfl
@[simp] theorem State.queueCommand_err (w : Nat) : (s.queueCommand w).err = s.err := rfl
@[simp] theorem State.queueCommand_cause (w : Nat) : (s.queueCommand w).cause = s.cause := rfl
@[simp] theorem State.queueCommand_errinfo (w : Nat) : (s.queueCommand w).errinfo = s.errinfo := rfl
@[simp] theorem State.queueCommand_pending (w : Nat) : (s.queueCommand w).pending = .write cmdAddr (BitVec.ofNat 64 w) :: s.pending := rfl
@[simp] theorem State.queueCommand_reply (w : Nat) : (s.queueCommand w).reply = s.reply := rfl
@[simp] theorem State.queueCommand_debugChecks (w : Nat) : (s.queueCommand w).debugChecks = s.debugChecks := rfl
@[simp] theorem State.queueCommand_draws (w : Nat) : (s.queueCommand w).draws = s.draws := rfl

/-! ### Reading registers -/

@[simp] theorem State.readF_writeF_same (r : FReg) (v : Felm) : (s.writeF r v).readF r = v := by
  simp [State.readF]

theorem State.readF_writeF (r q : FReg) (v : Felm) :
    (s.writeF r v).readF q = if q = r then v else s.readF q := by
  by_cases h : q = r
  · simp [h]
  · have : r.val ≠ q.val := fun e => h (Fin.ext e.symm)
    simp [State.readF, h, Vector.getElem_set_ne _ _ this]

theorem State.readF_writeF_ne {r q : FReg} (h : q ≠ r) (v : Felm) : (s.writeF r v).readF q = s.readF q := by
  simp [State.readF_writeF, h]

@[simp] theorem State.readD_writeD_same (k : DReg) (v : Digit) : (s.writeD k v).readD k = v := by
  simp [State.readD]

theorem State.readD_writeD (k q : DReg) (v : Digit) :
    (s.writeD k v).readD q = if q = k then v else s.readD q := by
  by_cases h : q = k
  · simp [h]
  · have : k.val ≠ q.val := fun e => h (Fin.ext e.symm)
    simp [State.readD, h, Vector.getElem_set_ne _ _ this]

theorem State.readD_writeD_ne {k q : DReg} (h : q ≠ k) (v : Digit) : (s.writeD k v).readD q = s.readD q := by
  simp [State.readD_writeD, h]

@[simp] theorem State.readF_writeD (k : DReg) (v : Digit) (q : FReg) : (s.writeD k v).readF q = s.readF q := rfl
@[simp] theorem State.readD_writeF (r : FReg) (v : Felm) (q : DReg) : (s.writeF r v).readD q = s.readD q := rfl
@[simp] theorem State.readD_writeAny (r : FReg) (q : DReg) : (s.writeAny r).readD q = s.readD q := rfl

theorem State.readF_writeAny (r q : FReg) :
    (s.writeAny r).readF q = if q = r then Config.anyFelm s.draws else s.readF q :=
  State.readF_writeF s r q _

@[simp] theorem State.readF_answer (v : Digit) (q : FReg) : (s.answer v).readF q = s.readF q := rfl
@[simp] theorem State.readD_answer (v : Digit) (q : DReg) : (s.answer v).readD q = s.readD q := rfl
@[simp] theorem State.readF_begin (l : List HostEvent) (q : FReg) : (s.begin l).readF q = s.readF q := rfl
@[simp] theorem State.readD_begin (l : List HostEvent) (q : DReg) : (s.begin l).readD q = s.readD q := rfl

@[simp] theorem State.readF_doReset (q : FReg) : s.doReset.readF q = 0 := by
  simp [State.readF]

@[simp] theorem State.readD_doReset (q : DReg) : s.doReset.readD q = 0 := by
  simp [State.readD]

@[simp] theorem State.readF_reset (q : FReg) : State.reset.readF q = 0 := by
  simp [State.readF, State.reset]

@[simp] theorem State.readD_reset (q : DReg) : State.reset.readD q = 0 := by
  simp [State.readD, State.reset]

/-! ### Fault entry (R242) -/

theorem State.raiseFault_of_err {s : State} (h : s.err = true) (c : Cause) (info : Digit) : s.raiseFault c info = s := by
  simp [State.raiseFault, h]

theorem State.raiseFault_of_ok {s : State} (h : s.err = false) (c : Cause) (info : Digit) :
    s.raiseFault c info = { s with err := true, cause := c.code, errinfo := info } := by
  simp [State.raiseFault, h]

@[simp] theorem State.raiseFault_F (c : Cause) (info : Digit) : (s.raiseFault c info).F = s.F := by
  unfold State.raiseFault; split <;> rfl
@[simp] theorem State.raiseFault_D (c : Cause) (info : Digit) : (s.raiseFault c info).D = s.D := by
  unfold State.raiseFault; split <;> rfl
@[simp] theorem State.raiseFault_pending (c : Cause) (info : Digit) : (s.raiseFault c info).pending = s.pending := by
  unfold State.raiseFault; split <;> rfl
@[simp] theorem State.raiseFault_reply (c : Cause) (info : Digit) : (s.raiseFault c info).reply = s.reply := by
  unfold State.raiseFault; split <;> rfl
@[simp] theorem State.raiseFault_debugChecks (c : Cause) (info : Digit) : (s.raiseFault c info).debugChecks = s.debugChecks := by
  unfold State.raiseFault; split <;> rfl
@[simp] theorem State.raiseFault_draws (c : Cause) (info : Digit) : (s.raiseFault c info).draws = s.draws := by
  unfold State.raiseFault; split <;> rfl

@[simp] theorem State.raiseFault_err (c : Cause) (info : Digit) : (s.raiseFault c info).err = true := by
  unfold State.raiseFault; split <;> simp_all

@[simp] theorem State.readF_raiseFault (c : Cause) (info : Digit) (q : FReg) :
    (s.raiseFault c info).readF q = s.readF q := by
  simp [State.readF]

@[simp] theorem State.readD_raiseFault (c : Cause) (info : Digit) (q : DReg) :
    (s.raiseFault c info).readD q = s.readD q := by
  simp [State.readD]

end Sys2Proof.Machine
end

