-- ==== Sys2Proof/Laws/Ops.lean ====
section
/-! SUPPORT. For each shared operation, what it can do, said once: register lists, free values, the end of a command with a
precondition, the issue of a command and the performance of a host event. -/

set_option Elab.async false

namespace Sys2Proof.Machine

variable {s t u : State}

/-! ### Frames -/

theorem SameControl.refl (s : State) : SameControl s s := ⟨rfl, rfl, rfl, rfl, rfl, rfl⟩

theorem SameControl.trans (h : SameControl s t) (k : SameControl t u) : SameControl s u :=
  ⟨k.err.trans h.err, k.cause.trans h.cause, k.errinfo.trans h.errinfo, k.pending.trans h.pending,
    k.reply.trans h.reply, k.debugChecks.trans h.debugChecks⟩

theorem SameExcept.refl (fs : List FReg) (ds : List DReg) (s : State) : SameExcept fs ds s s :=
  ⟨SameControl.refl s, fun _ _ => rfl, fun _ _ => rfl⟩

theorem SameExcept.mono {fs fs' : List FReg} {ds ds' : List DReg} (h : SameExcept fs ds s t)
    (hf : ∀ r ∈ fs, r ∈ fs') (hd : ∀ k ∈ ds, k ∈ ds') : SameExcept fs' ds' s t :=
  ⟨h.toSameControl, fun r hr => h.regs r fun m => hr (hf r m), fun k hk => h.digits k fun m => hk (hd k m)⟩

theorem SameExcept.trans {fs : List FReg} {ds : List DReg} (h : SameExcept fs ds s t) (k : SameExcept fs ds t u) :
    SameExcept fs ds s u :=
  ⟨h.toSameControl.trans k.toSameControl, fun r hr => (k.regs r hr).trans (h.regs r hr),
    fun d hd => (k.digits d hd).trans (h.digits d hd)⟩

theorem sameExcept_writeF (s : State) (r : FReg) (v : Felm) : SameExcept [r] [] s (s.writeF r v) where
  toSameControl := ⟨rfl, rfl, rfl, rfl, rfl, rfl⟩
  regs q hq := State.readF_writeF_ne s (by simpa using hq) v
  digits _ _ := rfl

theorem sameExcept_writeD (s : State) (k : DReg) (v : Digit) : SameExcept [] [k] s (s.writeD k v) where
  toSameControl := ⟨rfl, rfl, rfl, rfl, rfl, rfl⟩
  regs _ _ := rfl
  digits q hq := State.readD_writeD_ne s (by simpa using hq) v

theorem sameExcept_writeAny (s : State) (r : FReg) : SameExcept [r] [] s (s.writeAny r) where
  toSameControl := ⟨rfl, rfl, rfl, rfl, rfl, rfl⟩
  regs q hq := by rw [State.readF_writeAny, if_neg (by simpa using hq)]
  digits _ _ := rfl

/-- A state is determined by its registers, its control part and its count of draws. -/
theorem State.eq_of_reads (hF : ∀ r, t.readF r = s.readF r) (hD : ∀ k, t.readD k = s.readD k) (hc : SameControl s t)
    (hd : t.draws = s.draws) : t = s := by
  obtain ⟨F, D, e, c, i, p, r, d, n⟩ := s
  obtain ⟨F', D', e', c', i', p', r', d', n'⟩ := t
  obtain ⟨h1, h2, h3, h4, h5, h6⟩ := hc
  simp only at h1 h2 h3 h4 h5 h6 hd
  subst h1 h2 h3 h4 h5 h6 hd
  have eF : F' = F := by ext i hi : 1; exact hF ⟨i, hi⟩
  have eD : D' = D := by ext i hi : 1; exact hD ⟨i, hi⟩
  rw [eF, eD]

/-! ### Lists of register writes -/

@[simp] theorem State.writeFs_nil (s : State) : s.writeFs [] = s := rfl

@[simp] theorem State.writeFs_cons (s : State) (p : FReg × Felm) (l : List (FReg × Felm)) :
    s.writeFs (p :: l) = (s.writeF p.1 p.2).writeFs l := rfl

theorem sameExcept_writeFs (s : State) (l : List (FReg × Felm)) :
    SameExcept (l.map Prod.fst) [] s (s.writeFs l) := by
  induction l generalizing s with
  | nil => exact SameExcept.refl _ _ _
  | cons p l ih =>
    refine SameExcept.trans ((sameExcept_writeF s p.1 p.2).mono ?_ ?_) ((ih (s.writeF p.1 p.2)).mono ?_ ?_) <;> simp_all

@[simp] theorem State.writeFs_draws (s : State) (l : List (FReg × Felm)) : (s.writeFs l).draws = s.draws := by
  induction l generalizing s with
  | nil => rfl
  | cons p l ih => exact ih (s.writeF p.1 p.2)

/-- After writes to registers that are all different, each register holds what was written to it. -/
theorem State.readF_writeFs_of_mem {l : List (FReg × Felm)} (hn : (l.map Prod.fst).Nodup) {p : FReg × Felm}
    (hp : p ∈ l) (s : State) : (s.writeFs l).readF p.1 = p.2 := by
  induction l generalizing s with
  | nil => cases hp
  | cons a l ih =>
    simp only [List.map_cons, List.nodup_cons] at hn
    rcases List.mem_cons.1 hp with rfl | hp
    · rw [State.writeFs_cons, (sameExcept_writeFs _ l).regs _ hn.1, State.readF_writeF_same]
    · exact ih hn.2 hp _

/-! ### Free values -/

/-- What `writeAnys` does: only the listed registers change, each now holds a free value of its own range of draws. -/
theorem State.writeAnys_spec (s : State) (rs : List FReg) :
    SameExcept rs [] s (s.writeAnys rs) ∧ (s.writeAnys rs).draws = s.draws + rs.length ∧
    ∀ r ∈ rs, ∃ n, s.draws ≤ n ∧ n < s.draws + rs.length ∧ (s.writeAnys rs).readF r = Config.anyFelm n := by
  induction rs generalizing s with
  | nil => exact ⟨SameExcept.refl _ _ _, rfl, by simp⟩
  | cons a rs ih =>
    obtain ⟨hf, hd, hv⟩ := ih (s.writeAny a)
    have e : s.writeAnys (a :: rs) = (s.writeAny a).writeAnys rs := rfl
    rw [e]
    refine ⟨SameExcept.trans ((sameExcept_writeAny s a).mono (by simp) (by simp)) (hf.mono ?_ (by simp)), ?_, ?_⟩
    · intro r hr; exact List.mem_cons_of_mem _ hr
    · rw [hd, State.writeAny_draws, List.length_cons]; omega
    · intro r hr
      by_cases hm : r ∈ rs
      · obtain ⟨n, h1, h2, h3⟩ := hv r hm
        rw [State.writeAny_draws] at h1 h2
        exact ⟨n, by omega, by rw [List.length_cons]; omega, h3⟩
      · have ha : r = a := by simpa [hm] using hr
        refine ⟨s.draws, Nat.le_refl _, by rw [List.length_cons]; omega, ?_⟩
        rw [hf.regs r hm, State.readF_writeAny, if_pos ha]

/-! ### Wide views -/

theorem State.sameExcept_writeW (s : State) (r : FReg) (v : Wide) : SameExcept (pairRegs r) [] s (s.writeW r v) :=
  sameExcept_writeFs s [(r, v.extractLsb' 0 768), (r + 1, v.extractLsb' 768 768)]

@[simp] theorem State.writeW_draws (s : State) (r : FReg) (v : Wide) : (s.writeW r v).draws = s.draws :=
  State.writeFs_draws s _

theorem FReg.succ_ne (r : FReg) : r + 1 ≠ r := by
  revert r; decide

theorem State.readF_writeW_low (s : State) (r : FReg) (v : Wide) : (s.writeW r v).readF r = v.extractLsb' 0 768 := by
  simp [State.writeW, State.readF_writeF_ne _ (FReg.succ_ne r).symm]

theorem State.readF_writeW_high (s : State) (r : FReg) (v : Wide) :
    (s.writeW r v).readF (r + 1) = v.extractLsb' 768 768 := by
  simp [State.writeW]

/-! ### The end of a command with a precondition -/

theorem State.complete_of_pre {i : Instr} {pre : Bool} {dests : List FReg} {results : List Felm} (h : pre = true)
    (s : State) : s.complete i pre dests results = .next (s.writeFs (dests.zip results)) := by
  simp [State.complete, h]

theorem State.complete_of_not_pre {i : Instr} {pre : Bool} {dests : List FReg} {results : List Felm}
    (h : pre = false) (s : State) :
    s.complete i pre dests results =
      if s.debugChecks then .next (s.raiseFault .precondition ((encode i).setWidth 64))
      else .next (s.writeAnys dests) := by
  simp [State.complete, h]

/-- A command with a precondition answers one of three next states. -/
theorem State.complete_cases (i : Instr) (pre : Bool) (dests : List FReg) (results : List Felm) (s : State) :
    (pre = true ∧ s.complete i pre dests results = .next (s.writeFs (dests.zip results))) ∨
    (pre = false ∧ s.debugChecks = true ∧
      s.complete i pre dests results = .next (s.raiseFault .precondition ((encode i).setWidth 64))) ∨
    (pre = false ∧ s.debugChecks = false ∧ s.complete i pre dests results = .next (s.writeAnys dests)) := by
  unfold State.complete
  cases pre <;> cases s.debugChecks <;> simp

/-! ### Host events -/

/-- What a CMD write of v can do (R245): it is discarded, it raises cause 2 or 1, or it executes the decoded command. -/
theorem State.issue_cases (s : State) (v : Digit) :
    (s.err = true ∧ s.issue v = .next s) ∨
    (s.err = false ∧ v.extractLsb' 32 32 ≠ 0 ∧
      s.issue v = .next (s.raiseFault .illegalOperand ((v.setWidth 32 : Command).setWidth 64))) ∨
    (s.err = false ∧ v.extractLsb' 32 32 = 0 ∧ decode (v.setWidth 32) = .error .illegalOpcode ∧
      s.issue v = .next (s.raiseFault .illegalOpcode ((v.setWidth 32 : Command).setWidth 64))) ∨
    (s.err = false ∧ v.extractLsb' 32 32 = 0 ∧ decode (v.setWidth 32) = .error .illegalOperand ∧
      s.issue v = .next (s.raiseFault .illegalOperand ((v.setWidth 32 : Command).setWidth 64))) ∨
    (s.err = false ∧ v.extractLsb' 32 32 = 0 ∧ ∃ i, decode (v.setWidth 32) = .ok i ∧ s.issue v = exec i s) := by
  cases he : s.err
  · by_cases hv : v.extractLsb' 32 32 = 0#32
    · rcases hd : decode (v.setWidth 32) with (_ | _) | i <;> simp [State.issue, he, hv, hd]
    · exact .inr (.inl ⟨rfl, hv, by simp only [State.issue, he]; exact if_pos hv⟩)
  · simp [State.issue, he]

/-- What a host read does: it answers the word, or refuses and answers 0 (R59). -/
theorem State.portRead_cases (s : State) (a : Addr) :
    (∃ v, s.peek (target a) = some v ∧ s.portRead a = s.answer v) ∨
    (s.peek (target a) = none ∧ s.portRead a = (s.refuseAccess a).answer 0) := by
  unfold State.portRead
  cases s.peek (target a) <;> simp

/-- A step performs the oldest event, or holds the state when there is none. -/
theorem step_of_pending {e : HostEvent} {rest : List HostEvent} (h : s.pending = e :: rest) :
    step s = (s.begin rest).perform e := by
  simp [step, State.run, h]

theorem step_of_idle (h : s.pending = []) : step s = .next s := by
  simp [step, State.run, h]

theorem target_cmdAddr : target cmdAddr = .cmd := by decide

end Sys2Proof.Machine
end

