-- ==== Sys2Proof/Laws/Bits.lean ====
section
/-! SUPPORT. Digits, wide values, masks and the STATUS word: the lemmas that push them down to bits and integers. -/

set_option Elab.async false

namespace Sys2Proof.Machine

/-! ### Digits of a field element (R11, R61) -/

theorem digit_toNat (x : Felm) (j : Fin 12) : (digit x j).toNat = x.toNat / 2 ^ (64 * j.val) % 2 ^ 64 := by
  simp [digit, BitVec.extractLsb'_toNat, Nat.shiftRight_eq_div_pow]

theorem getLsbD_digit (x : Felm) (j : Fin 12) (i : Nat) :
    (digit x j).getLsbD i = (decide (i < 64) && x.getLsbD (64 * j.val + i)) := by
  rw [digit, BitVec.getLsbD_extractLsb']

theorem getLsbD_setDigit (x : Felm) (j : Fin 12) (v : Digit) {i : Nat} (hi : i < 768) :
    (setDigit x j v).getLsbD i =
      if 64 * j.val ≤ i ∧ i < 64 * j.val + 64 then v.getLsbD (i - 64 * j.val) else x.getLsbD i := by
  have ones : ∀ n, ((BitVec.allOnes 64).setWidth 768).getLsbD n = decide (n < 64) := by
    intro n
    rw [BitVec.getLsbD_setWidth, BitVec.getLsbD_allOnes]
    rcases Nat.lt_or_ge n 64 with h | h
    · simp [h, Nat.lt_trans h (by decide : 64 < 768)]
    · simp [Nat.not_lt.2 h]
  unfold setDigit
  rw [BitVec.getLsbD_or, BitVec.getLsbD_and, BitVec.getLsbD_not, BitVec.getLsbD_shiftLeft, BitVec.getLsbD_shiftLeft,
    ones, BitVec.getLsbD_setWidth]
  rcases Nat.lt_or_ge i (64 * j.val) with h | h
  · simp [hi, h, Nat.not_le.2 h]
  · rcases Nat.lt_or_ge i (64 * j.val + 64) with h' | h'
    · have : i - 64 * j.val < 64 := by omega
      have : i - 64 * j.val < 768 := by omega
      simp [Nat.not_lt.2 h, *]
    · have h2 : ¬ i - 64 * j.val < 64 := by omega
      simp [hi, h, Nat.not_lt.2 h, Nat.not_lt.2 h', h2, BitVec.getLsbD_of_ge v _ (Nat.not_lt.1 h2)]

@[simp] theorem digit_setDigit_same (x : Felm) (j : Fin 12) (v : Digit) : digit (setDigit x j v) j = v := by
  refine BitVec.eq_of_getLsbD_eq fun i hi => ?_
  have hj := j.isLt
  rw [getLsbD_digit, getLsbD_setDigit x j v (by omega), if_pos (by omega), Nat.add_sub_cancel_left]
  simp [hi]

theorem digit_setDigit_ne (x : Felm) {j k : Fin 12} (h : k ≠ j) (v : Digit) :
    digit (setDigit x j v) k = digit x k := by
  refine BitVec.eq_of_getLsbD_eq fun i hi => ?_
  have hk := k.isLt
  have hne : k.val ≠ j.val := fun e => h (Fin.ext e)
  rw [getLsbD_digit, getLsbD_digit, getLsbD_setDigit x j v (by omega), if_neg (by omega)]

/-- A field element is determined by its twelve digits. -/
theorem felm_ext {x y : Felm} (h : ∀ j, digit x j = digit y j) : x = y := by
  refine BitVec.eq_of_getLsbD_eq fun i hi => ?_
  have hj : i / 64 < 12 := by omega
  have e := congrArg (fun d : Digit => d.getLsbD (i % 64)) (h ⟨i / 64, hj⟩)
  have hm : i % 64 < 64 := Nat.mod_lt _ (by omega)
  have hs : 64 * (i / 64) + i % 64 = i := Nat.div_add_mod i 64
  simpa [digit, hm, hs] using e

/-! ### Wide values (R12) -/

theorem State.readW_toNat (s : State) (r : FReg) : (s.readW r).toNat = s.wideNum r := by
  have h := (s.readF r).isLt
  simp only [State.readW, State.wideNum, State.num, BitVec.toNat_append]
  rw [Nat.shiftLeft_eq, Nat.mul_comm, ← Nat.two_pow_add_eq_or_of_lt h, Nat.add_comm]

theorem low_toNat (v : Wide) : (v.extractLsb' 0 768).toNat = v.toNat % 2 ^ 768 := by
  simp [BitVec.extractLsb'_toNat]

theorem high_toNat (v : Wide) : (v.extractLsb' 768 768).toNat = v.toNat / 2 ^ 768 := by
  have h := v.isLt
  rw [BitVec.extractLsb'_toNat, Nat.shiftRight_eq_div_pow]
  exact Nat.mod_eq_of_lt (Nat.div_lt_of_lt_mul (by rw [← Nat.pow_add]; exact h))

theorem State.readW_low (s : State) (r : FReg) : (s.readW r).extractLsb' 0 768 = s.readF r := by
  have h := (s.readF r).isLt
  refine BitVec.eq_of_toNat_eq ?_
  rw [low_toNat, State.readW_toNat, State.wideNum, State.num]
  omega

theorem State.readW_high (s : State) (r : FReg) : (s.readW r).extractLsb' 768 768 = s.readF (r + 1) := by
  have h := (s.readF r).isLt
  refine BitVec.eq_of_toNat_eq ?_
  rw [high_toNat, State.readW_toNat, State.wideNum, State.num, State.num]
  omega

theorem State.wideNum_writeW (s : State) (r : FReg) (v : Wide) : (s.writeW r v).wideNum r = v.toNat := by
  simp only [State.wideNum, State.num, State.readF_writeW_low, State.readF_writeW_high, low_toNat, high_toNat]
  exact Nat.mod_add_div _ _

/-! ### Booleans and masks (R15, R221) -/

theorem boolDigit_toNat (b : Bool) : (boolDigit b).toNat = if b then 1 else 0 := by
  cases b <;> rfl

theorem boolDigit_decide (p : Prop) [Decidable p] : boolDigit (decide p) = if p then 1 else 0 := by
  by_cases h : p <;> simp [h, boolDigit]

theorem carryOut_toNat {n : Nat} (a b : BitVec n) : (carryOut a b).toNat = (a.toNat + b.toNat) / 2 ^ n := by
  have ha := a.isLt
  have hb := b.isLt
  rw [carryOut, boolDigit_toNat]
  by_cases h : 2 ^ n ≤ a.toNat + b.toNat
  · simp only [h, decide_true, if_true]
    exact (Nat.div_eq_of_lt_le (by omega) (by omega)).symm
  · simp only [h, decide_false, if_false, Bool.false_eq_true]
    exact (Nat.div_eq_of_lt (by omega)).symm

theorem borrowOut_eq {n : Nat} (a b : BitVec n) : borrowOut a b = if a.toNat < b.toNat then 1 else 0 :=
  boolDigit_decide _

theorem isZero_eq {n : Nat} (a : BitVec n) : isZero a = if a.toNat = 0 then 1 else 0 := by
  rw [isZero, ← boolDigit_decide, Bool.eq_iff_iff.2 (by simp [← BitVec.toNat_inj] : (a == 0) = true ↔ decide (a.toNat = 0) = true)]

theorem isEven_eq {n : Nat} (a : BitVec n) : isEven a = if a.toNat % 2 = 0 then 1 else 0 := by
  rw [← boolDigit_decide]; rfl

theorem isLess_eq {n : Nat} (a b : BitVec n) : isLess a b = if a.toNat < b.toNat then 1 else 0 :=
  boolDigit_decide _

/-- A difference of bit vectors is the integer difference modulo 2^n. -/
theorem sub_toInt {n : Nat} (a b : BitVec n) :
    ((a - b).toNat : Int) = ((a.toNat : Int) - b.toNat) % (2 ^ n : Nat) := by
  have ha := a.isLt
  have hb := b.isLt
  rw [BitVec.toNat_sub]
  push_cast
  rw [Nat.cast_sub (by omega)]
  push_cast
  rw [show (2 : Int) ^ n - b.toNat + a.toNat = (a.toNat - b.toNat) + (2 : Int) ^ n by ring]
  simp

theorem spread_all0 : spread all0 = 0 := by decide +kernel

theorem spread_all1 : spread all1 = BitVec.allOnes 768 := by decide +kernel

@[simp] theorem selectFelm_all0 (x y : Felm) : selectFelm all0 x y = x := by
  simp [selectFelm, spread_all0]

@[simp] theorem selectFelm_all1 (x y : Felm) : selectFelm all1 x y = y := by
  rw [selectFelm, spread_all1, BitVec.allOnes_and, ← BitVec.xor_assoc, BitVec.xor_self, BitVec.zero_xor]

@[simp] theorem selectFelm_same (m : Digit) (x : Felm) : selectFelm m x x = x := by
  simp [selectFelm]

theorem validMask_iff (m : Digit) : validMask m = true ↔ m = all0 ∨ m = all1 := by
  simp [validMask]

/-! ### STATUS (R30) -/

theorem State.status_toNat (s : State) : s.status.toNat = 16 * s.cause.toNat + s.err.toNat := by
  have h : ∀ (c : BitVec 4) (e : Bool),
      (0#56 ++ c ++ 0#3 ++ BitVec.ofBool e : BitVec 64).toNat = 16 * c.toNat + e.toNat := by decide
  exact h s.cause s.err

end Sys2Proof.Machine
end

