-- ==== Sys2Proof/Laws/PerInstr.lean ====
section
/-! SUPPORT. Statements about every instruction, one lemma per constructor. The family EncodeMatchesRow: the word of a
well-formed command is a legal instance of a row of the opcode map (spec/30_encoding.md R83). -/

set_option Elab.async false

namespace Sys2Proof.Laws

/-! ### The fields of an assembled word -/

theorem extract_high {m n : Nat} (a : BitVec m) (c : BitVec n) (k j : Nat) :
    (a ++ c).extractLsb' (n + k) j = a.extractLsb' k j := by
  refine BitVec.eq_of_getLsbD_eq fun i _ => ?_
  simp only [BitVec.getLsbD_extractLsb', BitVec.getLsbD_append]
  rw [if_neg (by omega), show n + k + i - n = k + i by omega]

theorem extract_all {m : Nat} (a : BitVec m) : a.extractLsb' 0 m = a := by
  refine BitVec.eq_of_getLsbD_eq fun i hi => ?_
  simp [hi]

theorem extract_low {m n : Nat} (a : BitVec m) (c : BitVec n) : (a ++ c).extractLsb' 0 n = c := by
  refine BitVec.eq_of_getLsbD_eq fun i hi => ?_
  rw [BitVec.getLsbD_extractLsb', BitVec.getLsbD_append]
  simp [hi]

section
variable (op : BitVec 8) (ra rb rc : FReg) (dd : DReg)

theorem fieldOp_assemble : fieldOp (assemble op ra rb rc dd) = op :=
  (extract_high _ _ 18 8).trans ((extract_high _ _ 15 8).trans ((extract_high _ _ 10 8).trans ((extract_high _ _ 5 8).trans ((extract_high _ _ 0 8).trans (extract_all op)))))

theorem fieldRa_assemble : fieldRa (assemble op ra rb rc dd) = ra :=
  congrArg BitVec.toFin ((extract_high _ _ 13 5).trans ((extract_high _ _ 10 5).trans ((extract_high _ _ 5 5).trans ((extract_high _ _ 0 5).trans (extract_low _ (BitVec.ofFin ra : BitVec 5))))))

theorem fieldRb_assemble : fieldRb (assemble op ra rb rc dd) = rb :=
  congrArg BitVec.toFin ((extract_high _ _ 8 5).trans ((extract_high _ _ 5 5).trans ((extract_high _ _ 0 5).trans (extract_low _ (BitVec.ofFin rb : BitVec 5)))))

theorem fieldRc_assemble : fieldRc (assemble op ra rb rc dd) = rc :=
  congrArg BitVec.toFin ((extract_high _ _ 3 5).trans ((extract_high _ _ 0 5).trans (extract_low _ (BitVec.ofFin rc : BitVec 5))))

theorem fieldDd_assemble : fieldDd (assemble op ra rb rc dd) = dd :=
  congrArg BitVec.toFin ((extract_high _ _ 0 3).trans (extract_low _ (BitVec.ofFin dd : BitVec 3)))

end

theorem and_append {m n : Nat} (a b : BitVec m) (c d : BitVec n) : (a ++ c) &&& (b ++ d) = (a &&& b) ++ (c &&& d) := by
  refine BitVec.eq_of_getLsbD_eq fun i _ => ?_
  simp only [BitVec.getLsbD_and, BitVec.getLsbD_append]
  split <;> rfl

/-- An assembled word passes the mask of its row when each field vanishes under its part of the mask (R83). -/
theorem assemble_and {op : BitVec 8} {ra rb rc : FReg} {dd : DReg} {ma mb mc : BitVec 5} {md : BitVec 3}
    (ha : (BitVec.ofFin ra : BitVec 5) &&& ma = 0) (hb : (BitVec.ofFin rb : BitVec 5) &&& mb = 0)
    (hc : (BitVec.ofFin rc : BitVec 5) &&& mc = 0) (hd : (BitVec.ofFin dd : BitVec 3) &&& md = 0) :
    assemble op ra rb rc dd &&& (0xFF#8 ++ ma ++ mb ++ mc ++ md ++ 0x3F#6 : BitVec 32) =
      (op ++ 0#5 ++ 0#5 ++ 0#5 ++ 0#3 ++ 0#6 : BitVec 32) := by
  have h8 : op &&& 0xFF#8 = op := BitVec.and_allOnes
  unfold assemble
  rw [and_append, and_append, and_append, and_append, and_append, ha, hb, hc, hd, h8]
  rfl

/-- An aligned register number vanishes under the mask of its group size (R82). -/
theorem aligned_and {g : Nat} {r : FReg} (h : aligned g r = true) (hg : g = 1 ∨ g = 2 ∨ g = 4) :
    (BitVec.ofFin r : BitVec 5) &&& BitVec.ofNat 5 (g - 1) = 0 := by
  rcases hg with rfl | rfl | rfl <;> revert r <;> decide

theorem dd_and (k : DReg) : (BitVec.ofFin k : BitVec 3) &&& 0 = 0 := BitVec.and_zero

theorem zero_and_reg (m : BitVec 5) : (BitVec.ofFin (0 : FReg) : BitVec 5) &&& m = 0 := BitVec.zero_and

theorem zero_and_dig (m : BitVec 3) : (BitVec.ofFin (0 : DReg) : BitVec 3) &&& m = 0 := BitVec.zero_and

/-! ### The family -/

/-- The word of a well-formed command is a legal instance of the row of its opcode. -/
def EncodeMatchesRow.Statement (i : Instr) : Prop :=
  i.wellFormed = true → ∃ row ∈ opTable, row.op = fieldOp (encode i) ∧ row.matchesWord (encode i) = true

/-- The shared step: a row of the table whose mask and pattern are those of the fields. -/
theorem EncodeMatchesRow.of_row {op : BitVec 8} {ra rb rc : FReg} {dd : DReg} {ma mb mc : BitVec 5} {md : BitVec 3}
    (n : Fin opTable.length) (ho : opTable[n].op = op)
    (hm : opTable[n].mask = (0xFF#8 ++ ma ++ mb ++ mc ++ md ++ 0x3F#6 : BitVec 32))
    (hp : opTable[n].pattern = (op ++ 0#5 ++ 0#5 ++ 0#5 ++ 0#3 ++ 0#6 : BitVec 32))
    (ha : (BitVec.ofFin ra : BitVec 5) &&& ma = 0) (hb : (BitVec.ofFin rb : BitVec 5) &&& mb = 0)
    (hc : (BitVec.ofFin rc : BitVec 5) &&& mc = 0) (hd : (BitVec.ofFin dd : BitVec 3) &&& md = 0) :
    ∃ row ∈ opTable, row.op = fieldOp (assemble op ra rb rc dd) ∧
      row.matchesWord (assemble op ra rb rc dd) = true := by
  refine ⟨opTable[n], List.getElem_mem _, by rw [ho, fieldOp_assemble], ?_⟩
  rw [OpRow.matchesWord, hm, hp, assemble_and ha hb hc hd, beq_self_eq_true]

theorem EncodeMatchesRow.mpcopy (ra rb : FReg) :
    EncodeMatchesRow.Statement (.mpcopy ra rb) := by
  intro h
  simp only [Instr.wellFormed, Instr.groups, Instr.groupSize, List.all_cons, List.all_nil, Bool.and_true,
    Bool.and_eq_true] at h
  obtain ⟨ha, hb⟩ := h
  exact EncodeMatchesRow.of_row (op := 0x10) (ma := BitVec.ofNat 5 0) (mb := BitVec.ofNat 5 0) (mc := 0x1F#5) (md := 7#3)
    ⟨0, by decide⟩ rfl (by decide) (by decide)
    (aligned_and ha (by decide)) (aligned_and hb (by decide)) (zero_and_reg _) (zero_and_dig _)

theorem EncodeMatchesRow.mpzero (ra : FReg) :
    EncodeMatchesRow.Statement (.mpzero ra) := by
  intro h
  simp only [Instr.wellFormed, Instr.groups, Instr.groupSize, List.all_cons, List.all_nil, Bool.and_true] at h
  have ha := h
  exact EncodeMatchesRow.of_row (op := 0x11) (ma := BitVec.ofNat 5 0) (mb := 0x1F#5) (mc := 0x1F#5) (md := 7#3)
    ⟨1, by decide⟩ rfl (by decide) (by decide)
    (aligned_and ha (by decide)) (zero_and_reg _) (zero_and_reg _) (zero_and_dig _)

theorem EncodeMatchesRow.mpadd (ra rb rc : FReg) (dd : DReg) :
    EncodeMatchesRow.Statement (.mpadd ra rb rc dd) := by
  intro h
  simp only [Instr.wellFormed, Instr.groups, Instr.groupSize, List.all_cons, List.all_nil, Bool.and_true,
    Bool.and_eq_true] at h
  obtain ⟨ha, hb, hc⟩ := h
  exact EncodeMatchesRow.of_row (op := 0x12) (ma := BitVec.ofNat 5 0) (mb := BitVec.ofNat 5 0) (mc := BitVec.ofNat 5 0) (md := 0#3)
    ⟨2, by decide⟩ rfl (by decide) (by decide)
    (aligned_and ha (by decide)) (aligned_and hb (by decide)) (aligned_and hc (by decide)) (dd_and dd)

theorem EncodeMatchesRow.mpsub (ra rb rc : FReg) (dd : DReg) :
    EncodeMatchesRow.Statement (.mpsub ra rb rc dd) := by
  intro h
  simp only [Instr.wellFormed, Instr.groups, Instr.groupSize, List.all_cons, List.all_nil, Bool.and_true,
    Bool.and_eq_true] at h
  obtain ⟨ha, hb, hc⟩ := h
  exact EncodeMatchesRow.of_row (op := 0x13) (ma := BitVec.ofNat 5 0) (mb := BitVec.ofNat 5 0) (mc := BitVec.ofNat 5 0) (md := 0#3)
    ⟨3, by decide⟩ rfl (by decide) (by decide)
    (aligned_and ha (by decide)) (aligned_and hb (by decide)) (aligned_and hc (by decide)) (dd_and dd)

theorem EncodeMatchesRow.mpshr1 (ra rb : FReg) :
    EncodeMatchesRow.Statement (.mpshr1 ra rb) := by
  intro h
  simp only [Instr.wellFormed, Instr.groups, Instr.groupSize, List.all_cons, List.all_nil, Bool.and_true,
    Bool.and_eq_true] at h
  obtain ⟨ha, hb⟩ := h
  exact EncodeMatchesRow.of_row (op := 0x14) (ma := BitVec.ofNat 5 0) (mb := BitVec.ofNat 5 0) (mc := 0x1F#5) (md := 7#3)
    ⟨4, by decide⟩ rfl (by decide) (by decide)
    (aligned_and ha (by decide)) (aligned_and hb (by decide)) (zero_and_reg _) (zero_and_dig _)

theorem EncodeMatchesRow.mpshl1 (ra rb : FReg) :
    EncodeMatchesRow.Statement (.mpshl1 ra rb) := by
  intro h
  simp only [Instr.wellFormed, Instr.groups, Instr.groupSize, List.all_cons, List.all_nil, Bool.and_true,
    Bool.and_eq_true] at h
  obtain ⟨ha, hb⟩ := h
  exact EncodeMatchesRow.of_row (op := 0x15) (ma := BitVec.ofNat 5 0) (mb := BitVec.ofNat 5 0) (mc := 0x1F#5) (md := 7#3)
    ⟨5, by decide⟩ rfl (by decide) (by decide)
    (aligned_and ha (by decide)) (aligned_and hb (by decide)) (zero_and_reg _) (zero_and_dig _)

theorem EncodeMatchesRow.mpiszero (rb : FReg) (dd : DReg) :
    EncodeMatchesRow.Statement (.mpiszero rb dd) := by
  intro h
  simp only [Instr.wellFormed, Instr.groups, Instr.groupSize, List.all_cons, List.all_nil, Bool.and_true] at h
  have hb := h
  exact EncodeMatchesRow.of_row (op := 0x16) (ma := 0x1F#5) (mb := BitVec.ofNat 5 0) (mc := 0x1F#5) (md := 0#3)
    ⟨6, by decide⟩ rfl (by decide) (by decide)
    (zero_and_reg _) (aligned_and hb (by decide)) (zero_and_reg _) (dd_and dd)

theorem EncodeMatchesRow.mpiseven (rb : FReg) (dd : DReg) :
    EncodeMatchesRow.Statement (.mpiseven rb dd) := by
  intro h
  simp only [Instr.wellFormed, Instr.groups, Instr.groupSize, List.all_cons, List.all_nil, Bool.and_true] at h
  have hb := h
  exact EncodeMatchesRow.of_row (op := 0x17) (ma := 0x1F#5) (mb := BitVec.ofNat 5 0) (mc := 0x1F#5) (md := 0#3)
    ⟨7, by decide⟩ rfl (by decide) (by decide)
    (zero_and_reg _) (aligned_and hb (by decide)) (zero_and_reg _) (dd_and dd)

theorem EncodeMatchesRow.mpislt (rb rc : FReg) (dd : DReg) :
    EncodeMatchesRow.Statement (.mpislt rb rc dd) := by
  intro h
  simp only [Instr.wellFormed, Instr.groups, Instr.groupSize, List.all_cons, List.all_nil, Bool.and_true,
    Bool.and_eq_true] at h
  obtain ⟨hb, hc⟩ := h
  exact EncodeMatchesRow.of_row (op := 0x18) (ma := 0x1F#5) (mb := BitVec.ofNat 5 0) (mc := BitVec.ofNat 5 0) (md := 0#3)
    ⟨8, by decide⟩ rfl (by decide) (by decide)
    (zero_and_reg _) (aligned_and hb (by decide)) (aligned_and hc (by decide)) (dd_and dd)

theorem EncodeMatchesRow.mpcopyw (ra rb : FReg) :
    EncodeMatchesRow.Statement (.mpcopyw ra rb) := by
  intro h
  simp only [Instr.wellFormed, Instr.groups, Instr.groupSize, List.all_cons, List.all_nil, Bool.and_true,
    Bool.and_eq_true] at h
  obtain ⟨ha, hb⟩ := h
  exact EncodeMatchesRow.of_row (op := 0x20) (ma := BitVec.ofNat 5 1) (mb := BitVec.ofNat 5 1) (mc := 0x1F#5) (md := 7#3)
    ⟨9, by decide⟩ rfl (by decide) (by decide)
    (aligned_and ha (by decide)) (aligned_and hb (by decide)) (zero_and_reg _) (zero_and_dig _)

theorem EncodeMatchesRow.mpzerow (ra : FReg) :
    EncodeMatchesRow.Statement (.mpzerow ra) := by
  intro h
  simp only [Instr.wellFormed, Instr.groups, Instr.groupSize, List.all_cons, List.all_nil, Bool.and_true] at h
  have ha := h
  exact EncodeMatchesRow.of_row (op := 0x21) (ma := BitVec.ofNat 5 1) (mb := 0x1F#5) (mc := 0x1F#5) (md := 7#3)
    ⟨10, by decide⟩ rfl (by decide) (by decide)
    (aligned_and ha (by decide)) (zero_and_reg _) (zero_and_reg _) (zero_and_dig _)

theorem EncodeMatchesRow.mpaddw (ra rb rc : FReg) (dd : DReg) :
    EncodeMatchesRow.Statement (.mpaddw ra rb rc dd) := by
  intro h
  simp only [Instr.wellFormed, Instr.groups, Instr.groupSize, List.all_cons, List.all_nil, Bool.and_true,
    Bool.and_eq_true] at h
  obtain ⟨ha, hb, hc⟩ := h
  exact EncodeMatchesRow.of_row (op := 0x22) (ma := BitVec.ofNat 5 1) (mb := BitVec.ofNat 5 1) (mc := BitVec.ofNat 5 1) (md := 0#3)
    ⟨11, by decide⟩ rfl (by decide) (by decide)
    (aligned_and ha (by decide)) (aligned_and hb (by decide)) (aligned_and hc (by decide)) (dd_and dd)

theorem EncodeMatchesRow.mpsubw (ra rb rc : FReg) (dd : DReg) :
    EncodeMatchesRow.Statement (.mpsubw ra rb rc dd) := by
  intro h
  simp only [Instr.wellFormed, Instr.groups, Instr.groupSize, List.all_cons, List.all_nil, Bool.and_true,
    Bool.and_eq_true] at h
  obtain ⟨ha, hb, hc⟩ := h
  exact EncodeMatchesRow.of_row (op := 0x23) (ma := BitVec.ofNat 5 1) (mb := BitVec.ofNat 5 1) (mc := BitVec.ofNat 5 1) (md := 0#3)
    ⟨12, by decide⟩ rfl (by decide) (by decide)
    (aligned_and ha (by decide)) (aligned_and hb (by decide)) (aligned_and hc (by decide)) (dd_and dd)

theorem EncodeMatchesRow.mpshr1w (ra rb : FReg) :
    EncodeMatchesRow.Statement (.mpshr1w ra rb) := by
  intro h
  simp only [Instr.wellFormed, Instr.groups, Instr.groupSize, List.all_cons, List.all_nil, Bool.and_true,
    Bool.and_eq_true] at h
  obtain ⟨ha, hb⟩ := h
  exact EncodeMatchesRow.of_row (op := 0x24) (ma := BitVec.ofNat 5 1) (mb := BitVec.ofNat 5 1) (mc := 0x1F#5) (md := 7#3)
    ⟨13, by decide⟩ rfl (by decide) (by decide)
    (aligned_and ha (by decide)) (aligned_and hb (by decide)) (zero_and_reg _) (zero_and_dig _)

theorem EncodeMatchesRow.mpshl1w (ra rb : FReg) :
    EncodeMatchesRow.Statement (.mpshl1w ra rb) := by
  intro h
  simp only [Instr.wellFormed, Instr.groups, Instr.groupSize, List.all_cons, List.all_nil, Bool.and_true,
    Bool.and_eq_true] at h
  obtain ⟨ha, hb⟩ := h
  exact EncodeMatchesRow.of_row (op := 0x25) (ma := BitVec.ofNat 5 1) (mb := BitVec.ofNat 5 1) (mc := 0x1F#5) (md := 7#3)
    ⟨14, by decide⟩ rfl (by decide) (by decide)
    (aligned_and ha (by decide)) (aligned_and hb (by decide)) (zero_and_reg _) (zero_and_dig _)

theorem EncodeMatchesRow.mpiszerow (rb : FReg) (dd : DReg) :
    EncodeMatchesRow.Statement (.mpiszerow rb dd) := by
  intro h
  simp only [Instr.wellFormed, Instr.groups, Instr.groupSize, List.all_cons, List.all_nil, Bool.and_true] at h
  have hb := h
  exact EncodeMatchesRow.of_row (op := 0x26) (ma := 0x1F#5) (mb := BitVec.ofNat 5 1) (mc := 0x1F#5) (md := 0#3)
    ⟨15, by decide⟩ rfl (by decide) (by decide)
    (zero_and_reg _) (aligned_and hb (by decide)) (zero_and_reg _) (dd_and dd)

theorem EncodeMatchesRow.mpisevenw (rb : FReg) (dd : DReg) :
    EncodeMatchesRow.Statement (.mpisevenw rb dd) := by
  intro h
  simp only [Instr.wellFormed, Instr.groups, Instr.groupSize, List.all_cons, List.all_nil, Bool.and_true] at h
  have hb := h
  exact EncodeMatchesRow.of_row (op := 0x27) (ma := 0x1F#5) (mb := BitVec.ofNat 5 1) (mc := 0x1F#5) (md := 0#3)
    ⟨16, by decide⟩ rfl (by decide) (by decide)
    (zero_and_reg _) (aligned_and hb (by decide)) (zero_and_reg _) (dd_and dd)

theorem EncodeMatchesRow.mpisltw (rb rc : FReg) (dd : DReg) :
    EncodeMatchesRow.Statement (.mpisltw rb rc dd) := by
  intro h
  simp only [Instr.wellFormed, Instr.groups, Instr.groupSize, List.all_cons, List.all_nil, Bool.and_true,
    Bool.and_eq_true] at h
  obtain ⟨hb, hc⟩ := h
  exact EncodeMatchesRow.of_row (op := 0x28) (ma := 0x1F#5) (mb := BitVec.ofNat 5 1) (mc := BitVec.ofNat 5 1) (md := 0#3)
    ⟨17, by decide⟩ rfl (by decide) (by decide)
    (zero_and_reg _) (aligned_and hb (by decide)) (aligned_and hc (by decide)) (dd_and dd)

theorem EncodeMatchesRow.fpadd (ra rb rc : FReg) :
    EncodeMatchesRow.Statement (.fpadd ra rb rc) := by
  intro h
  simp only [Instr.wellFormed, Instr.groups, Instr.groupSize, List.all_cons, List.all_nil, Bool.and_true,
    Bool.and_eq_true] at h
  obtain ⟨ha, hb, hc⟩ := h
  exact EncodeMatchesRow.of_row (op := 0x30) (ma := BitVec.ofNat 5 0) (mb := BitVec.ofNat 5 0) (mc := BitVec.ofNat 5 0) (md := 7#3)
    ⟨18, by decide⟩ rfl (by decide) (by decide)
    (aligned_and ha (by decide)) (aligned_and hb (by decide)) (aligned_and hc (by decide)) (zero_and_dig _)

theorem EncodeMatchesRow.fpsub (ra rb rc : FReg) :
    EncodeMatchesRow.Statement (.fpsub ra rb rc) := by
  intro h
  simp only [Instr.wellFormed, Instr.groups, Instr.groupSize, List.all_cons, List.all_nil, Bool.and_true,
    Bool.and_eq_true] at h
  obtain ⟨ha, hb, hc⟩ := h
  exact EncodeMatchesRow.of_row (op := 0x31) (ma := BitVec.ofNat 5 0) (mb := BitVec.ofNat 5 0) (mc := BitVec.ofNat 5 0) (md := 7#3)
    ⟨19, by decide⟩ rfl (by decide) (by decide)
    (aligned_and ha (by decide)) (aligned_and hb (by decide)) (aligned_and hc (by decide)) (zero_and_dig _)

theorem EncodeMatchesRow.fpneg (ra rb : FReg) :
    EncodeMatchesRow.Statement (.fpneg ra rb) := by
  intro h
  simp only [Instr.wellFormed, Instr.groups, Instr.groupSize, List.all_cons, List.all_nil, Bool.and_true,
    Bool.and_eq_true] at h
  obtain ⟨ha, hb⟩ := h
  exact EncodeMatchesRow.of_row (op := 0x32) (ma := BitVec.ofNat 5 0) (mb := BitVec.ofNat 5 0) (mc := 0x1F#5) (md := 7#3)
    ⟨20, by decide⟩ rfl (by decide) (by decide)
    (aligned_and ha (by decide)) (aligned_and hb (by decide)) (zero_and_reg _) (zero_and_dig _)

theorem EncodeMatchesRow.fpdiv2 (ra rb : FReg) :
    EncodeMatchesRow.Statement (.fpdiv2 ra rb) := by
  intro h
  simp only [Instr.wellFormed, Instr.groups, Instr.groupSize, List.all_cons, List.all_nil, Bool.and_true,
    Bool.and_eq_true] at h
  obtain ⟨ha, hb⟩ := h
  exact EncodeMatchesRow.of_row (op := 0x33) (ma := BitVec.ofNat 5 0) (mb := BitVec.ofNat 5 0) (mc := 0x1F#5) (md := 7#3)
    ⟨21, by decide⟩ rfl (by decide) (by decide)
    (aligned_and ha (by decide)) (aligned_and hb (by decide)) (zero_and_reg _) (zero_and_dig _)

theorem EncodeMatchesRow.fptomont (ra rb : FReg) :
    EncodeMatchesRow.Statement (.fptomont ra rb) := by
  intro h
  simp only [Instr.wellFormed, Instr.groups, Instr.groupSize, List.all_cons, List.all_nil, Bool.and_true,
    Bool.and_eq_true] at h
  obtain ⟨ha, hb⟩ := h
  exact EncodeMatchesRow.of_row (op := 0x38) (ma := BitVec.ofNat 5 0) (mb := BitVec.ofNat 5 0) (mc := 0x1F#5) (md := 7#3)
    ⟨22, by decide⟩ rfl (by decide) (by decide)
    (aligned_and ha (by decide)) (aligned_and hb (by decide)) (zero_and_reg _) (zero_and_dig _)

theorem EncodeMatchesRow.fpfrommont (ra rb : FReg) :
    EncodeMatchesRow.Statement (.fpfrommont ra rb) := by
  intro h
  simp only [Instr.wellFormed, Instr.groups, Instr.groupSize, List.all_cons, List.all_nil, Bool.and_true,
    Bool.and_eq_true] at h
  obtain ⟨ha, hb⟩ := h
  exact EncodeMatchesRow.of_row (op := 0x39) (ma := BitVec.ofNat 5 0) (mb := BitVec.ofNat 5 0) (mc := 0x1F#5) (md := 7#3)
    ⟨23, by decide⟩ rfl (by decide) (by decide)
    (aligned_and ha (by decide)) (aligned_and hb (by decide)) (zero_and_reg _) (zero_and_dig _)

theorem EncodeMatchesRow.fpmul (ra rb rc : FReg) :
    EncodeMatchesRow.Statement (.fpmul ra rb rc) := by
  intro h
  simp only [Instr.wellFormed, Instr.groups, Instr.groupSize, List.all_cons, List.all_nil, Bool.and_true,
    Bool.and_eq_true] at h
  obtain ⟨ha, hb, hc⟩ := h
  exact EncodeMatchesRow.of_row (op := 0x3A) (ma := BitVec.ofNat 5 0) (mb := BitVec.ofNat 5 0) (mc := BitVec.ofNat 5 0) (md := 7#3)
    ⟨24, by decide⟩ rfl (by decide) (by decide)
    (aligned_and ha (by decide)) (aligned_and hb (by decide)) (aligned_and hc (by decide)) (zero_and_dig _)

theorem EncodeMatchesRow.fpsqr (ra rb : FReg) :
    EncodeMatchesRow.Statement (.fpsqr ra rb) := by
  intro h
  simp only [Instr.wellFormed, Instr.groups, Instr.groupSize, List.all_cons, List.all_nil, Bool.and_true,
    Bool.and_eq_true] at h
  obtain ⟨ha, hb⟩ := h
  exact EncodeMatchesRow.of_row (op := 0x3B) (ma := BitVec.ofNat 5 0) (mb := BitVec.ofNat 5 0) (mc := 0x1F#5) (md := 7#3)
    ⟨25, by decide⟩ rfl (by decide) (by decide)
    (aligned_and ha (by decide)) (aligned_and hb (by decide)) (zero_and_reg _) (zero_and_dig _)

theorem EncodeMatchesRow.fpinv (ra rb : FReg) :
    EncodeMatchesRow.Statement (.fpinv ra rb) := by
  intro h
  simp only [Instr.wellFormed, Instr.groups, Instr.groupSize, List.all_cons, List.all_nil, Bool.and_true,
    Bool.and_eq_true] at h
  obtain ⟨ha, hb⟩ := h
  exact EncodeMatchesRow.of_row (op := 0x3C) (ma := BitVec.ofNat 5 0) (mb := BitVec.ofNat 5 0) (mc := 0x1F#5) (md := 7#3)
    ⟨26, by decide⟩ rfl (by decide) (by decide)
    (aligned_and ha (by decide)) (aligned_and hb (by decide)) (zero_and_reg _) (zero_and_dig _)

theorem EncodeMatchesRow.f2add (ra rb rc : FReg) :
    EncodeMatchesRow.Statement (.f2add ra rb rc) := by
  intro h
  simp only [Instr.wellFormed, Instr.groups, Instr.groupSize, List.all_cons, List.all_nil, Bool.and_true,
    Bool.and_eq_true] at h
  obtain ⟨ha, hb, hc⟩ := h
  exact EncodeMatchesRow.of_row (op := 0x40) (ma := BitVec.ofNat 5 1) (mb := BitVec.ofNat 5 1) (mc := BitVec.ofNat 5 1) (md := 7#3)
    ⟨27, by decide⟩ rfl (by decide) (by decide)
    (aligned_and ha (by decide)) (aligned_and hb (by decide)) (aligned_and hc (by decide)) (zero_and_dig _)

theorem EncodeMatchesRow.f2sub (ra rb rc : FReg) :
    EncodeMatchesRow.Statement (.f2sub ra rb rc) := by
  intro h
  simp only [Instr.wellFormed, Instr.groups, Instr.groupSize, List.all_cons, List.all_nil, Bool.and_true,
    Bool.and_eq_true] at h
  obtain ⟨ha, hb, hc⟩ := h
  exact EncodeMatchesRow.of_row (op := 0x41) (ma := BitVec.ofNat 5 1) (mb := BitVec.ofNat 5 1) (mc := BitVec.ofNat 5 1) (md := 7#3)
    ⟨28, by decide⟩ rfl (by decide) (by decide)
    (aligned_and ha (by decide)) (aligned_and hb (by decide)) (aligned_and hc (by decide)) (zero_and_dig _)

theorem EncodeMatchesRow.f2neg (ra rb : FReg) :
    EncodeMatchesRow.Statement (.f2neg ra rb) := by
  intro h
  simp only [Instr.wellFormed, Instr.groups, Instr.groupSize, List.all_cons, List.all_nil, Bool.and_true,
    Bool.and_eq_true] at h
  obtain ⟨ha, hb⟩ := h
  exact EncodeMatchesRow.of_row (op := 0x42) (ma := BitVec.ofNat 5 1) (mb := BitVec.ofNat 5 1) (mc := 0x1F#5) (md := 7#3)
    ⟨29, by decide⟩ rfl (by decide) (by decide)
    (aligned_and ha (by decide)) (aligned_and hb (by decide)) (zero_and_reg _) (zero_and_dig _)

theorem EncodeMatchesRow.f2div2 (ra rb : FReg) :
    EncodeMatchesRow.Statement (.f2div2 ra rb) := by
  intro h
  simp only [Instr.wellFormed, Instr.groups, Instr.groupSize, List.all_cons, List.all_nil, Bool.and_true,
    Bool.and_eq_true] at h
  obtain ⟨ha, hb⟩ := h
  exact EncodeMatchesRow.of_row (op := 0x43) (ma := BitVec.ofNat 5 1) (mb := BitVec.ofNat 5 1) (mc := 0x1F#5) (md := 7#3)
    ⟨30, by decide⟩ rfl (by decide) (by decide)
    (aligned_and ha (by decide)) (aligned_and hb (by decide)) (zero_and_reg _) (zero_and_dig _)

theorem EncodeMatchesRow.f2copy (ra rb : FReg) :
    EncodeMatchesRow.Statement (.f2copy ra rb) := by
  intro h
  simp only [Instr.wellFormed, Instr.groups, Instr.groupSize, List.all_cons, List.all_nil, Bool.and_true,
    Bool.and_eq_true] at h
  obtain ⟨ha, hb⟩ := h
  exact EncodeMatchesRow.of_row (op := 0x44) (ma := BitVec.ofNat 5 1) (mb := BitVec.ofNat 5 1) (mc := 0x1F#5) (md := 7#3)
    ⟨31, by decide⟩ rfl (by decide) (by decide)
    (aligned_and ha (by decide)) (aligned_and hb (by decide)) (zero_and_reg _) (zero_and_dig _)

theorem EncodeMatchesRow.f2zero (ra : FReg) :
    EncodeMatchesRow.Statement (.f2zero ra) := by
  intro h
  simp only [Instr.wellFormed, Instr.groups, Instr.groupSize, List.all_cons, List.all_nil, Bool.and_true] at h
  have ha := h
  exact EncodeMatchesRow.of_row (op := 0x45) (ma := BitVec.ofNat 5 1) (mb := 0x1F#5) (mc := 0x1F#5) (md := 7#3)
    ⟨32, by decide⟩ rfl (by decide) (by decide)
    (aligned_and ha (by decide)) (zero_and_reg _) (zero_and_reg _) (zero_and_dig _)

theorem EncodeMatchesRow.f2sqr (ra rb : FReg) :
    EncodeMatchesRow.Statement (.f2sqr ra rb) := by
  intro h
  simp only [Instr.wellFormed, Instr.groups, Instr.groupSize, List.all_cons, List.all_nil, Bool.and_true,
    Bool.and_eq_true] at h
  obtain ⟨ha, hb⟩ := h
  exact EncodeMatchesRow.of_row (op := 0x46) (ma := BitVec.ofNat 5 1) (mb := BitVec.ofNat 5 1) (mc := 0x1F#5) (md := 7#3)
    ⟨33, by decide⟩ rfl (by decide) (by decide)
    (aligned_and ha (by decide)) (aligned_and hb (by decide)) (zero_and_reg _) (zero_and_dig _)

theorem EncodeMatchesRow.f2mul (ra rb rc : FReg) :
    EncodeMatchesRow.Statement (.f2mul ra rb rc) := by
  intro h
  simp only [Instr.wellFormed, Instr.groups, Instr.groupSize, List.all_cons, List.all_nil, Bool.and_true,
    Bool.and_eq_true] at h
  obtain ⟨ha, hb, hc⟩ := h
  exact EncodeMatchesRow.of_row (op := 0x47) (ma := BitVec.ofNat 5 1) (mb := BitVec.ofNat 5 1) (mc := BitVec.ofNat 5 1) (md := 7#3)
    ⟨34, by decide⟩ rfl (by decide) (by decide)
    (aligned_and ha (by decide)) (aligned_and hb (by decide)) (aligned_and hc (by decide)) (zero_and_dig _)

theorem EncodeMatchesRow.f2inv (ra rb : FReg) :
    EncodeMatchesRow.Statement (.f2inv ra rb) := by
  intro h
  simp only [Instr.wellFormed, Instr.groups, Instr.groupSize, List.all_cons, List.all_nil, Bool.and_true,
    Bool.and_eq_true] at h
  obtain ⟨ha, hb⟩ := h
  exact EncodeMatchesRow.of_row (op := 0x48) (ma := BitVec.ofNat 5 1) (mb := BitVec.ofNat 5 1) (mc := 0x1F#5) (md := 7#3)
    ⟨35, by decide⟩ rfl (by decide) (by decide)
    (aligned_and ha (by decide)) (aligned_and hb (by decide)) (zero_and_reg _) (zero_and_dig _)

theorem EncodeMatchesRow.f2tomont (ra rb : FReg) :
    EncodeMatchesRow.Statement (.f2tomont ra rb) := by
  intro h
  simp only [Instr.wellFormed, Instr.groups, Instr.groupSize, List.all_cons, List.all_nil, Bool.and_true,
    Bool.and_eq_true] at h
  obtain ⟨ha, hb⟩ := h
  exact EncodeMatchesRow.of_row (op := 0x49) (ma := BitVec.ofNat 5 1) (mb := BitVec.ofNat 5 1) (mc := 0x1F#5) (md := 7#3)
    ⟨36, by decide⟩ rfl (by decide) (by decide)
    (aligned_and ha (by decide)) (aligned_and hb (by decide)) (zero_and_reg _) (zero_and_dig _)

theorem EncodeMatchesRow.f2frommont (ra rb : FReg) :
    EncodeMatchesRow.Statement (.f2frommont ra rb) := by
  intro h
  simp only [Instr.wellFormed, Instr.groups, Instr.groupSize, List.all_cons, List.all_nil, Bool.and_true,
    Bool.and_eq_true] at h
  obtain ⟨ha, hb⟩ := h
  exact EncodeMatchesRow.of_row (op := 0x4A) (ma := BitVec.ofNat 5 1) (mb := BitVec.ofNat 5 1) (mc := 0x1F#5) (md := 7#3)
    ⟨37, by decide⟩ rfl (by decide) (by decide)
    (aligned_and ha (by decide)) (aligned_and hb (by decide)) (zero_and_reg _) (zero_and_dig _)

theorem EncodeMatchesRow.self (ra rb rc : FReg) (dd : DReg) :
    EncodeMatchesRow.Statement (.self ra rb rc dd) := by
  intro h
  simp only [Instr.wellFormed, Instr.groups, Instr.groupSize, List.all_cons, List.all_nil, Bool.and_true,
    Bool.and_eq_true] at h
  obtain ⟨ha, hb, hc⟩ := h
  exact EncodeMatchesRow.of_row (op := 0x50) (ma := BitVec.ofNat 5 0) (mb := BitVec.ofNat 5 0) (mc := BitVec.ofNat 5 0) (md := 0#3)
    ⟨38, by decide⟩ rfl (by decide) (by decide)
    (aligned_and ha (by decide)) (aligned_and hb (by decide)) (aligned_and hc (by decide)) (dd_and dd)

theorem EncodeMatchesRow.self2 (ra rb rc : FReg) (dd : DReg) :
    EncodeMatchesRow.Statement (.self2 ra rb rc dd) := by
  intro h
  simp only [Instr.wellFormed, Instr.groups, Instr.groupSize, List.all_cons, List.all_nil, Bool.and_true,
    Bool.and_eq_true] at h
  obtain ⟨ha, hb, hc⟩ := h
  exact EncodeMatchesRow.of_row (op := 0x51) (ma := BitVec.ofNat 5 1) (mb := BitVec.ofNat 5 1) (mc := BitVec.ofNat 5 1) (md := 0#3)
    ⟨39, by decide⟩ rfl (by decide) (by decide)
    (aligned_and ha (by decide)) (aligned_and hb (by decide)) (aligned_and hc (by decide)) (dd_and dd)

theorem EncodeMatchesRow.selpt (ra rb rc : FReg) (dd : DReg) :
    EncodeMatchesRow.Statement (.selpt ra rb rc dd) := by
  intro h
  simp only [Instr.wellFormed, Instr.groups, Instr.groupSize, List.all_cons, List.all_nil, Bool.and_true,
    Bool.and_eq_true] at h
  obtain ⟨ha, hb, hc⟩ := h
  exact EncodeMatchesRow.of_row (op := 0x52) (ma := BitVec.ofNat 5 3) (mb := BitVec.ofNat 5 3) (mc := BitVec.ofNat 5 3) (md := 0#3)
    ⟨40, by decide⟩ rfl (by decide) (by decide)
    (aligned_and ha (by decide)) (aligned_and hb (by decide)) (aligned_and hc (by decide)) (dd_and dd)

theorem EncodeMatchesRow.swappb (ra rb : FReg) (dd : DReg) :
    EncodeMatchesRow.Statement (.swappb ra rb dd) := by
  intro h
  simp only [Instr.wellFormed, Instr.groups, Instr.groupSize, List.all_cons, List.all_nil, Bool.and_true,
    Bool.and_eq_true] at h
  obtain ⟨ha, hb⟩ := h
  exact EncodeMatchesRow.of_row (op := 0x54) (ma := BitVec.ofNat 5 1) (mb := BitVec.ofNat 5 1) (mc := 0x1F#5) (md := 0#3)
    ⟨41, by decide⟩ rfl (by decide) (by decide)
    (aligned_and ha (by decide)) (aligned_and hb (by decide)) (zero_and_reg _) (dd_and dd)

theorem EncodeMatchesRow.swappt (ra rb : FReg) (dd : DReg) :
    EncodeMatchesRow.Statement (.swappt ra rb dd) := by
  intro h
  simp only [Instr.wellFormed, Instr.groups, Instr.groupSize, List.all_cons, List.all_nil, Bool.and_true,
    Bool.and_eq_true] at h
  obtain ⟨ha, hb⟩ := h
  exact EncodeMatchesRow.of_row (op := 0x55) (ma := BitVec.ofNat 5 3) (mb := BitVec.ofNat 5 3) (mc := 0x1F#5) (md := 0#3)
    ⟨42, by decide⟩ rfl (by decide) (by decide)
    (aligned_and ha (by decide)) (aligned_and hb (by decide)) (zero_and_reg _) (dd_and dd)

end Sys2Proof.Laws
end

