-- ==== Sys2Proof/Laws/Encoding.lean ====
section
/-! SUPPORT. Command words and their fields: what the mask check of spec/30_encoding.md R83 says of each field of a word. -/

set_option Elab.async false

namespace Sys2Proof.Laws

/-- The opcodes of the rows are all different (R85). -/
theorem opTable_ops_nodup : (opTable.map OpRow.op).Nodup := by decide

/-- The row of an opcode is found (R84). -/
theorem find_row {row : OpRow} (h : row ∈ opTable) : opTable.find? (fun r => r.op == row.op) = some row := by
  cases e : opTable.find? (fun r => r.op == row.op) with
  | none => exact absurd (beq_self_eq_true row.op) (by simpa using List.find?_eq_none.1 e row h)
  | some r =>
    have hr : r.op = row.op := by simpa using List.find?_some e
    exact congrArg some (List.inj_on_of_nodup_map opTable_ops_nodup (List.mem_of_find?_eq_some e) h hr)

/-- A word is the concatenation of its fields (R80). -/
theorem word_of_fields (w : Command) :
    (w.extractLsb' 24 8 ++ w.extractLsb' 19 5 ++ w.extractLsb' 14 5 ++ w.extractLsb' 9 5 ++ w.extractLsb' 6 3
      ++ w.extractLsb' 0 6 : BitVec 32) = w := by
  refine BitVec.eq_of_getLsbD_eq fun i hi => ?_
  simp only [BitVec.getLsbD_append, BitVec.getLsbD_extractLsb']
  repeat' split
  all_goals first
   | (rw [decide_eq_true (by omega), Bool.true_and]; congr 1; omega)

theorem assemble_fields (w : Command) (hz : w.extractLsb' 0 6 = 0#6) :
    assemble (fieldOp w) (fieldRa w) (fieldRb w) (fieldRc w) (fieldDd w) = w := by
  conv_rhs => rw [← word_of_fields w, hz]
  rfl

theorem extract_and {n : Nat} (a b : BitVec n) (k j : Nat) :
    (a &&& b).extractLsb' k j = a.extractLsb' k j &&& b.extractLsb' k j := by
  refine BitVec.eq_of_getLsbD_eq fun i hi => ?_
  simp [hi]

section
variable {w : Command} {op : BitVec 8} {ma mb mc : BitVec 5} {md : BitVec 3}
    (h : w &&& (0xFF#8 ++ ma ++ mb ++ mc ++ md ++ 0x3F#6 : BitVec 32) =
      (op ++ 0#5 ++ 0#5 ++ 0#5 ++ 0#3 ++ 0#6 : BitVec 32))
include h

theorem op_of_mask : fieldOp w = op := by
  have e := congrArg (BitVec.extractLsb' 24 8) h
  rw [extract_and] at e
  have eM : (0xFF#8 ++ ma ++ mb ++ mc ++ md ++ 0x3F#6 : BitVec 32).extractLsb' 24 8 = BitVec.allOnes 8 :=
    (extract_high _ _ 18 8).trans ((extract_high _ _ 15 8).trans ((extract_high _ _ 10 8).trans
      ((extract_high _ _ 5 8).trans ((extract_high _ _ 0 8).trans (extract_all _)))))
  have eP : (op ++ 0#5 ++ 0#5 ++ 0#5 ++ 0#3 ++ 0#6 : BitVec 32).extractLsb' 24 8 = op :=
    (extract_high _ _ 18 8).trans ((extract_high _ _ 15 8).trans ((extract_high _ _ 10 8).trans
      ((extract_high _ _ 5 8).trans ((extract_high _ _ 0 8).trans (extract_all _)))))
  rwa [eM, eP, BitVec.and_allOnes] at e

theorem ra_of_mask : w.extractLsb' 19 5 &&& ma = 0#5 := by
  have e := congrArg (BitVec.extractLsb' 19 5) h
  rw [extract_and] at e
  have eM : (0xFF#8 ++ ma ++ mb ++ mc ++ md ++ 0x3F#6 : BitVec 32).extractLsb' 19 5 = ma :=
    (extract_high _ _ 13 5).trans ((extract_high _ _ 10 5).trans ((extract_high _ _ 5 5).trans
      ((extract_high _ _ 0 5).trans (extract_low _ ma))))
  have eP : (op ++ 0#5 ++ 0#5 ++ 0#5 ++ 0#3 ++ 0#6 : BitVec 32).extractLsb' 19 5 = 0#5 :=
    (extract_high _ _ 13 5).trans ((extract_high _ _ 10 5).trans ((extract_high _ _ 5 5).trans
      ((extract_high _ _ 0 5).trans (extract_low op 0#5))))
  rwa [eM, eP] at e

theorem rb_of_mask : w.extractLsb' 14 5 &&& mb = 0#5 := by
  have e := congrArg (BitVec.extractLsb' 14 5) h
  rw [extract_and] at e
  have eM : (0xFF#8 ++ ma ++ mb ++ mc ++ md ++ 0x3F#6 : BitVec 32).extractLsb' 14 5 = mb :=
    (extract_high _ _ 8 5).trans ((extract_high _ _ 5 5).trans ((extract_high _ _ 0 5).trans (extract_low _ mb)))
  have eP : (op ++ 0#5 ++ 0#5 ++ 0#5 ++ 0#3 ++ 0#6 : BitVec 32).extractLsb' 14 5 = 0#5 :=
    (extract_high _ _ 8 5).trans ((extract_high _ _ 5 5).trans ((extract_high _ _ 0 5).trans
      (extract_low (op ++ 0#5) 0#5)))
  rwa [eM, eP] at e

theorem rc_of_mask : w.extractLsb' 9 5 &&& mc = 0#5 := by
  have e := congrArg (BitVec.extractLsb' 9 5) h
  rw [extract_and] at e
  have eM : (0xFF#8 ++ ma ++ mb ++ mc ++ md ++ 0x3F#6 : BitVec 32).extractLsb' 9 5 = mc :=
    (extract_high _ _ 3 5).trans ((extract_high _ _ 0 5).trans (extract_low _ mc))
  have eP : (op ++ 0#5 ++ 0#5 ++ 0#5 ++ 0#3 ++ 0#6 : BitVec 32).extractLsb' 9 5 = 0#5 :=
    (extract_high _ _ 3 5).trans ((extract_high _ _ 0 5).trans (extract_low (op ++ 0#5 ++ 0#5) 0#5))
  rwa [eM, eP] at e

theorem dd_of_mask : w.extractLsb' 6 3 &&& md = 0#3 := by
  have e := congrArg (BitVec.extractLsb' 6 3) h
  rw [extract_and] at e
  have eM : (0xFF#8 ++ ma ++ mb ++ mc ++ md ++ 0x3F#6 : BitVec 32).extractLsb' 6 3 = md :=
    (extract_high _ _ 0 3).trans (extract_low _ md)
  have eP : (op ++ 0#5 ++ 0#5 ++ 0#5 ++ 0#3 ++ 0#6 : BitVec 32).extractLsb' 6 3 = 0#3 :=
    (extract_high _ _ 0 3).trans (extract_low (op ++ 0#5 ++ 0#5 ++ 0#5) 0#3)
  rwa [eM, eP] at e

theorem z_of_mask : w.extractLsb' 0 6 = 0#6 := by
  have e := congrArg (BitVec.extractLsb' 0 6) h
  rw [extract_and] at e
  have eM : (0xFF#8 ++ ma ++ mb ++ mc ++ md ++ 0x3F#6 : BitVec 32).extractLsb' 0 6 = BitVec.allOnes 6 :=
    extract_low (0xFF#8 ++ ma ++ mb ++ mc ++ md) _
  have eP : (op ++ 0#5 ++ 0#5 ++ 0#5 ++ 0#3 ++ 0#6 : BitVec 32).extractLsb' 0 6 = 0#6 :=
    extract_low (op ++ 0#5 ++ 0#5 ++ 0#5 ++ 0#3) 0#6
  rwa [eM, eP, BitVec.and_allOnes] at e

end

/-- A register field that vanishes under the mask of its group size is aligned (R82). -/
theorem aligned_of_and {g : Nat} {b : BitVec 5} (hg : g = 1 ∨ g = 2 ∨ g = 4)
    (h : b &&& BitVec.ofNat 5 (g - 1) = 0#5) : aligned g b.toFin = true := by
  rcases hg with rfl | rfl | rfl <;> revert b <;> decide

/-- A field that vanishes under all ones is zero (R83). -/
theorem reg_zero_of_and {b : BitVec 5} (h : b &&& 0x1F#5 = 0#5) : b.toFin = (0 : FReg) := by
  revert b; decide

theorem dig_zero_of_and {b : BitVec 3} (h : b &&& 7#3 = 0#3) : b.toFin = (0 : DReg) := by
  revert b; decide

/-- The rows' masks and patterns are those of R83. -/
theorem opTable_masks :
    ∀ row ∈ opTable, row.mask = maskOf row.format row.group ∧
      row.pattern = (row.op ++ 0#5 ++ 0#5 ++ 0#5 ++ 0#3 ++ 0#6 : BitVec 32) := by
  have h : (opTable.all fun row => decide (row.mask = maskOf row.format row.group ∧
      row.pattern = (row.op ++ 0#5 ++ 0#5 ++ 0#5 ++ 0#3 ++ 0#6 : BitVec 32))) = true := by decide
  intro row hr
  simpa using List.all_eq_true.1 h row hr

end Sys2Proof.Laws
end

