-- ==== Sys2Proof/Laws/Prime.lean ====
section
/-! SUPPORT. The modulus is prime, at least 2^750, below 2^751 and ≡ 3 mod 4 (spec/00_scope.md R8). P + 1 = 2^372·3^239, so an
element of order P + 1 in the q² elements of (ZMod q)[i], q a divisor of P, makes q² exceed P: P has no divisor up to
its square root. The element is (3 + 2i)/(3 − 2i). -/

set_option Elab.async false

namespace Sys2Proof.Laws

open Sys2Proof.Config

theorem P_succ : P + 1 = 2 ^ 372 * 3 ^ 239 := by decide +kernel

theorem P_ge : 2 ^ 750 ≤ P := by decide +kernel

theorem P_lt : P < 2 ^ 751 := by decide +kernel

theorem P_mod_four : P % 4 = 3 := by decide +kernel

/-- The product of x.1 + x.2·i and y.1 + y.2·i modulo P. -/
def gmul (x y : Nat × Nat) : Nat × Nat :=
  ((x.1 * y.1 + (P - 1) * (x.2 * y.2)) % P, (x.1 * y.2 + x.2 * y.1) % P)

/-- n squarings. -/
def gsquares : Nat → Nat × Nat → Nat × Nat
  | 0, x => x
  | n + 1, x => gsquares n (gmul x x)

/-- n cubings. -/
def gcubes : Nat → Nat × Nat → Nat × Nat
  | 0, x => x
  | n + 1, x => gcubes n (gmul (gmul x x) x)

/-- (3 + 2i)/(3 − 2i), an element of norm 1. -/
def base : Nat × Nat :=
  (0x89b868eeb9fb25032826e2210f431a5219ddfbef3058a7c331bae122592fd1f3350c67585e1c2c36e0a40c4580cfeab13b13b13b13b13b13b13b13b13b13b13b13b13b13b13b13b13b13b13b13b13b13b13b13b13b13b13b13b13b13b14,
   0x2b09a0ca9a1e7b90fc8c26aa54c4f839a8155ebabf1bb46cff8a665abbdef19c0093e04b9d68cdd1263343d5b840f95762762762762762762762762762762762762762762762762762762762762762762762762762762762762762762763)

/-- Its power 2^371·3^238: a primitive sixth root of one. -/
def sixth : Nat × Nat :=
  (0x37f2eaa0fb8e0709484fcbdd6e3342b15a822e592ba404274c33eb75f43b6d4acd8d09fbe63b71f64b42a4fc3c54775800000000000000000000000000000000000000000000000000000000000000000000000000000000000000000000,
   0x9293536d337e2b8f13623c85b71cb760c1e1f9d761dc88c20000000000000000000000000000000000000000000000)

/-- The inverse of sixth² − 1. -/
def witness : Nat × Nat :=
  (0x37f2eaa0fb8e0709484fcbdd6e3342b15a822e592ba404274c33eb75f43b6d4acd8d09fbe63b71f64b42a4fc3c547757ffffffffffffffffffffffffffffffffffffffffffffffffffffffffffffffffffffffffffffffffffffffffffff,
   0x6fe5d541f71c0e12909f97badc668562b5045cb25748084e9867d6ebe876da959b1a13f7cc76e3ec968549f878a8ee7f243986442b46d04edf4128c2f66d8a6a0a020d8a0bd269ffffffffffffffffffffffffffffffffffffffffffffff)

theorem base_power : gcubes 238 (gsquares 371 base) = sixth := by decide +kernel

theorem sixth_cubed : gmul (gmul sixth sixth) sixth = (P - 1, 0) := by decide +kernel

theorem sixth_squared_sub_one :
    gmul ((gmul sixth sixth).1 + (P - 1), (gmul sixth sixth).2) witness = (1, 0) := by decide +kernel

/-- (ZMod q)[i]. -/
abbrev Gauss (q : Nat) := QuadraticAlgebra (ZMod q) (-1) 0

/-- The element that a pair stands for. -/
def toGauss (q : Nat) (x : Nat × Nat) : Gauss q := ⟨x.1, x.2⟩

section
variable {q : Nat} (hq : q ∣ P)
include hq

theorem P_cast : ((P : Nat) : ZMod q) = 0 := (ZMod.natCast_eq_zero_iff P q).2 hq

theorem P_pred_cast : ((P - 1 : Nat) : ZMod q) = -1 := by
  have h : P - 1 + 1 = P := by decide +kernel
  have := congrArg (fun n : Nat => (n : ZMod q)) h
  simp only [Nat.cast_add, Nat.cast_one, P_cast hq] at this
  exact eq_neg_of_add_eq_zero_left this

theorem cast_mod_P (n : Nat) : ((n % P : Nat) : ZMod q) = n := by
  conv_rhs => rw [← Nat.mod_add_div n P]
  rw [Nat.cast_add, Nat.cast_mul, P_cast hq, zero_mul, add_zero]

theorem toGauss_gmul (x y : Nat × Nat) : toGauss q (gmul x y) = toGauss q x * toGauss q y := by
  ext
  · simp only [toGauss, gmul, QuadraticAlgebra.re_mul, cast_mod_P hq, Nat.cast_add, Nat.cast_mul, P_pred_cast hq]
    ring
  · simp only [toGauss, gmul, QuadraticAlgebra.im_mul, cast_mod_P hq, Nat.cast_add, Nat.cast_mul]
    ring

theorem toGauss_gsquares (n : Nat) (x : Nat × Nat) : toGauss q (gsquares n x) = toGauss q x ^ 2 ^ n := by
  induction n generalizing x with
  | zero => simp [gsquares]
  | succ n ih => rw [gsquares, ih, toGauss_gmul hq, ← sq, ← pow_mul, pow_succ' 2 n]

theorem toGauss_gcubes (n : Nat) (x : Nat × Nat) : toGauss q (gcubes n x) = toGauss q x ^ 3 ^ n := by
  induction n generalizing x with
  | zero => simp [gcubes]
  | succ n ih => rw [gcubes, ih, toGauss_gmul hq, toGauss_gmul hq, ← sq, ← pow_succ, ← pow_mul, pow_succ' 3 n]

theorem toGauss_base_power : toGauss q base ^ (2 ^ 371 * 3 ^ 238) = toGauss q sixth := by
  rw [← base_power, toGauss_gcubes hq, toGauss_gsquares hq, ← pow_mul]

theorem toGauss_sixth_cubed : toGauss q sixth ^ 3 = -1 := by
  have h := congrArg (toGauss q) sixth_cubed
  rw [toGauss_gmul hq, toGauss_gmul hq, ← sq, ← pow_succ] at h
  rw [h]
  ext
  · simp [toGauss, P_pred_cast hq, QuadraticAlgebra.re_one]
  · simp [toGauss, QuadraticAlgebra.im_one]

theorem toGauss_sixth_squared (h1 : 1 < q) : toGauss q sixth ^ 2 ≠ 1 := by
  intro e
  have : Fact (1 < q) := ⟨h1⟩
  have h := congrArg (toGauss q) sixth_squared_sub_one
  have hs : toGauss q ((gmul sixth sixth).1 + (P - 1), (gmul sixth sixth).2) = toGauss q sixth ^ 2 - 1 := by
    rw [sq, ← toGauss_gmul hq]
    ext
    · simp only [toGauss, Nat.cast_add, P_pred_cast hq, QuadraticAlgebra.re_sub, QuadraticAlgebra.re_one]
      ring
    · simp [toGauss, QuadraticAlgebra.im_one]
  rw [toGauss_gmul hq, hs, e, sub_self, zero_mul] at h
  have := congrArg QuadraticAlgebra.re h
  simp [toGauss] at this

/-- The element has order P + 1. -/
theorem order_base (h1 : 2 < q) : orderOf (toGauss q base) = P + 1 := by
  have : Fact (2 < q) := ⟨h1⟩
  have : Fact (1 < q) := ⟨by omega⟩
  have h6 : toGauss q base ^ (2 ^ 371 * 3 ^ 238 * 6) = 1 := by
    rw [pow_mul, toGauss_base_power hq, show 6 = 3 * 2 from rfl, pow_mul, toGauss_sixth_cubed hq]
    exact neg_one_sq
  have hP : P + 1 = 2 ^ 371 * 3 ^ 238 * 6 := by decide +kernel
  rw [hP]
  refine orderOf_eq_of_pow_and_pow_div_prime (by decide +kernel) h6 fun p hp hd => ?_
  rw [← hP, P_succ] at hd
  rcases (Nat.Prime.dvd_mul hp).1 hd with h | h
  · have : p = 2 := (Nat.prime_dvd_prime_iff_eq hp Nat.prime_two).1 (hp.dvd_of_dvd_pow h)
    subst this
    rw [show 2 ^ 371 * 3 ^ 238 * 6 / 2 = 2 ^ 371 * 3 ^ 238 * 3 by decide +kernel, pow_mul, toGauss_base_power hq,
      toGauss_sixth_cubed hq]
    intro e
    have := congrArg QuadraticAlgebra.re e
    rw [QuadraticAlgebra.re_neg, QuadraticAlgebra.re_one] at this
    exact ZMod.neg_one_ne_one this
  · have : p = 3 := (Nat.prime_dvd_prime_iff_eq hp Nat.prime_three).1 (hp.dvd_of_dvd_pow h)
    subst this
    rw [show 2 ^ 371 * 3 ^ 238 * 6 / 3 = 2 ^ 371 * 3 ^ 238 * 2 by decide +kernel, pow_mul, toGauss_base_power hq]
    exact toGauss_sixth_squared hq (by omega)

end

theorem card_gauss (q : Nat) [NeZero q] : Nat.card (Gauss q) = q ^ 2 := by
  rw [Nat.card_congr (QuadraticAlgebra.equivProd (-1 : ZMod q) 0), Nat.card_prod, Nat.card_zmod, sq]

/-- R8: "p is prime". -/
theorem P_prime : Nat.Prime P := by
  by_contra hn
  have hq : P.minFac ∣ P := Nat.minFac_dvd P
  have hP1 : P ≠ 1 := by decide +kernel
  have hp : P.minFac.Prime := Nat.minFac_prime hP1
  have h2 : 2 < P.minFac := by
    refine lt_of_le_of_ne hp.two_le fun e => ?_
    have : P % 2 = 0 := Nat.mod_eq_zero_of_dvd (e ▸ hq)
    exact absurd this (by decide +kernel)
  have : NeZero P.minFac := ⟨hp.ne_zero⟩
  have hpos : 0 < P := by decide +kernel
  have hsq : P.minFac ^ 2 ≤ P := Nat.minFac_sq_le_self hpos hn
  have hfin : Finite (Gauss P.minFac) := Finite.of_equiv _ (QuadraticAlgebra.equivProd (-1 : ZMod P.minFac) 0).symm
  have hfin' : Fintype (Gauss P.minFac) := Fintype.ofFinite _
  have ho : orderOf (toGauss P.minFac base) ≤ Nat.card (Gauss P.minFac) := by
    rw [Nat.card_eq_fintype_card]
    have hinj := pow_injOn_Iio_orderOf (x := toGauss P.minFac base)
    have := Finset.card_le_card_of_injOn (s := Finset.range (orderOf (toGauss P.minFac base))) (t := Finset.univ)
      (fun n => toGauss P.minFac base ^ n) (fun _ _ => Finset.mem_univ _)
      (fun a ha b hb h => hinj (by simpa using ha) (by simpa using hb) h)
    simpa using this
  rw [order_base hq h2, card_gauss] at ho
  omega

end Sys2Proof.Laws
end

