-- ==== Sys2Proof/Laws/Field.lean ====
section
/-! SUPPORT. The arithmetic of the field layers: ranges, and the contract of the Montgomery multiplier (spec/42_montgomery.md
R151, R152), on integers and in ZMod P. -/

set_option Elab.async false

namespace Sys2Proof.Laws

open Sys2Proof.Config Sys2Proof.Machine

theorem P_pos : 0 < P := by decide +kernel

theorem P_lt_R : 2 * P < R := by decide +kernel

theorem R_eq : R = 2 ^ 768 := rfl

/-- `Rinv` is the inverse of R modulo P (R10). -/
theorem R_mul_Rinv_mod : R * Rinv % P = 1 := by decide +kernel

theorem R2_lt : R2 < P := Nat.mod_lt _ P_pos

theorem one_lt_P : one < P := by decide +kernel

theorem oneM_lt : oneM < P := Nat.mod_lt _ P_pos

/-! ### Narrowing -/

theorem toNat_felm (n : Nat) : (felm n).toNat = n % 2 ^ 768 := BitVec.toNat_ofNat n 768

theorem toNat_felm_of_lt {n : Nat} (h : n < P) : (felm n).toNat = n := by
  rw [toNat_felm, ← R_eq]
  exact Nat.mod_eq_of_lt (by have := P_lt_R; omega)

theorem validFelm_iff (x : Felm) : validFelm x = true ↔ x.toNat < P := by
  simp [validFelm]

theorem valid_iff (s : State) (rs : List FReg) : s.valid rs = true ↔ ∀ r ∈ rs, s.num r < P := by
  simp [State.valid, State.readFs, validFelm, State.num]

/-! ### The base-field backend -/

theorem fpadd_lt (a b : Nat) : fpadd a b < P := Nat.mod_lt _ P_pos

theorem fpsub_lt {a b : Nat} (ha : a < P) (hb : b < P) : fpsub a b < P := by
  unfold fpsub; split <;> omega

theorem fpneg_lt {a : Nat} (ha : a < P) : fpneg a < P := by
  unfold fpneg; split <;> omega

theorem fpdiv2_lt {a : Nat} (ha : a < P) : fpdiv2 a < P := by
  unfold fpdiv2; split <;> omega

/-- The contract of fpsub (R131). -/
theorem fpsub_add_mod {a b : Nat} (ha : a < P) (hb : b < P) : (fpsub a b + b) % P = a := by
  unfold fpsub; split
  · rw [Nat.sub_add_cancel ‹_›, Nat.mod_eq_of_lt ha]
  · rw [Nat.sub_add_cancel (by omega), Nat.add_mod_right, Nat.mod_eq_of_lt ha]

/-- The contract of fpneg (R131). -/
theorem fpneg_add_mod {a : Nat} (ha : a < P) : (fpneg a + a) % P = 0 := by
  unfold fpneg; split
  · subst ‹a = 0›; simp
  · rw [Nat.sub_add_cancel (by omega), Nat.mod_self]

theorem P_odd : P % 2 = 1 := by decide +kernel

/-- The contract of fpdiv2 (R131). -/
theorem two_mul_fpdiv2_mod {a : Nat} (ha : a < P) : 2 * fpdiv2 a % P = a := by
  have h := P_odd
  unfold fpdiv2; split
  · rw [show 2 * (a / 2) = a by omega, Nat.mod_eq_of_lt ha]
  · rw [show 2 * ((a + P) / 2) = a + P by omega, Nat.add_mod_right, Nat.mod_eq_of_lt ha]

theorem mpadd_eq {a b : Nat} (ha : a < P) (hb : b < P) : mpadd a b = a + b := by
  unfold mpadd
  rw [← R_eq]
  exact Nat.mod_eq_of_lt (by have := P_lt_R; omega)

/-! ### The reducer -/

theorem montgomeryReduce_of_lt {T : Nat} (h : T < P * R) : montgomeryReduce T = T * Rinv % P := by
  simp [montgomeryReduce, h]

theorem montgomeryReduce_lt {T : Nat} (h : T < P * R) : montgomeryReduce T < P := by
  rw [montgomeryReduce_of_lt h]
  exact Nat.mod_lt _ P_pos

/-- The contract of R151: c·R ≡ T (mod P). -/
theorem montgomeryReduce_mul_R {T : Nat} (h : T < P * R) : montgomeryReduce T * R % P = T % P := by
  rw [montgomeryReduce_of_lt h, Nat.mod_mul_mod, Nat.mul_assoc, Nat.mul_comm Rinv R, Nat.mul_mod, R_mul_Rinv_mod,
    Nat.mul_one, Nat.mod_mod]

/-- R151 fixes the result: it is the only value below P with c·R ≡ T (mod P). -/
theorem eq_of_mul_R {c d : Nat} (hc : c < P) (hd : d < P) (h : c * R % P = d * R % P) : c = d := by
  have e := congrArg (· * Rinv % P) h
  simp only [Nat.mod_mul_mod, Nat.mul_assoc] at e
  rw [Nat.mul_mod, R_mul_Rinv_mod, Nat.mul_mod d, R_mul_Rinv_mod] at e
  simpa [Nat.mod_eq_of_lt hc, Nat.mod_eq_of_lt hd] using e

/-! ### The Montgomery product -/

theorem mm_domain {x y : Nat} (hx : x < R) (hy : y < P) : rawMultiply x y < P * R := by
  unfold rawMultiply
  calc x * y ≤ R * y := Nat.mul_le_mul_right _ (Nat.le_of_lt hx)
    _ < R * P := Nat.mul_lt_mul_of_pos_left hy (by decide +kernel)
    _ = P * R := Nat.mul_comm _ _

theorem lt_R_of_lt_P {x : Nat} (h : x < P) : x < R := by
  have := P_lt_R; omega

theorem mm_lt {x y : Nat} (hx : x < R) (hy : y < P) : mm x y < P := montgomeryReduce_lt (mm_domain hx hy)

theorem mm_mul_R {x y : Nat} (hx : x < R) (hy : y < P) : mm x y * R % P = x * y % P :=
  montgomeryReduce_mul_R (mm_domain hx hy)

theorem msqr_lt {x : Nat} (hx : x < P) : msqr x < P := mm_lt (lt_R_of_lt_P hx) hx

/-! ### In ZMod P -/

theorem cast_mod (n : Nat) : ((n % P : Nat) : ZMod P) = n := by
  rw [ZMod.natCast_mod]

theorem cast_R_mul_Rinv : (R : ZMod P) * (Rinv : ZMod P) = 1 := by
  rw [← Nat.cast_mul, ← cast_mod, R_mul_Rinv_mod, Nat.cast_one]

theorem mm_cast {x y : Nat} (hx : x < R) (hy : y < P) : ((mm x y : Nat) : ZMod P) = x * y * (Rinv : ZMod P) := by
  rw [mm, montgomeryReduce_of_lt (mm_domain hx hy), cast_mod, rawMultiply, Nat.cast_mul, Nat.cast_mul]

theorem fpadd_cast (a b : Nat) : ((fpadd a b : Nat) : ZMod P) = a + b := by
  rw [fpadd, cast_mod, Nat.cast_add]

theorem fpsub_cast {a b : Nat} (ha : a < P) (hb : b < P) : ((fpsub a b : Nat) : ZMod P) = a - b := by
  have h := congrArg (fun n : Nat => (n : ZMod P)) (fpsub_add_mod ha hb)
  simp only [cast_mod, Nat.cast_add] at h
  rw [← h]; ring

theorem fpneg_cast {a : Nat} (ha : a < P) : ((fpneg a : Nat) : ZMod P) = -a := by
  have h := congrArg (fun n : Nat => (n : ZMod P)) (fpneg_add_mod ha)
  simp only [cast_mod, Nat.cast_add, Nat.cast_zero] at h
  exact eq_neg_of_add_eq_zero_left h

/-- Two values below P are equal when they are equal in ZMod P. -/
theorem eq_of_cast {a b : Nat} (ha : a < P) (hb : b < P) (h : (a : ZMod P) = b) : a = b := by
  have := (ZMod.natCast_eq_natCast_iff' a b P).1 h
  rwa [Nat.mod_eq_of_lt ha, Nat.mod_eq_of_lt hb] at this

/-- The chain's exponent identity needs the lists as data: 27 table entries, 117 steps (R172, R173). -/
theorem exps_length : exps.length = 27 := rfl

theorem chain_length : chain.length = 117 := by decide

end Sys2Proof.Laws
end

