-- ==== Sys2Proof/Laws/Gfp2.lean ====
section
/-! SUPPORT. The Karatsuba multiplier (spec/44_gfp2.md R198) said once: its two results as reductions of exact integers, their
range, and their values in ZMod P. The square of an element is its product with itself (R197). -/

set_option Elab.async false

namespace Sys2Proof.Laws

open Sys2Proof.Config Sys2Proof.Machine

theorem mul_lt_P_sq {a b : Nat} (ha : a < P) (hb : b < P) : a * b < P * P := Nat.mul_lt_mul'' ha hb

theorem P_sq_bounds : 4 * (P * P) < P * R ∧ P * R < 2 ^ 1536 := by decide +kernel

/-- The integer the first reduction of R198 is given: a0·b0 − a1·b1, with P·R added when it would be negative. -/
def realPart (a0 a1 b0 b1 : Nat) : Nat :=
  if a0 * b0 < a1 * b1 then a0 * b0 + P * R - a1 * b1 else a0 * b0 - a1 * b1

/-- F2MUL's function (R198): no buffer overflows, and both reductions are inside the reducer's domain. -/
theorem f2mul_spec {a0 a1 b0 b1 : Nat} (h1 : a0 < P) (h2 : a1 < P) (h3 : b0 < P) (h4 : b1 < P) :
    f2mul a0 a1 b0 b1 = (montgomeryReduce (realPart a0 a1 b0 b1), montgomeryReduce (a0 * b1 + a1 * b0)) ∧
      realPart a0 a1 b0 b1 < P * R ∧ a0 * b1 + a1 * b0 < P * R := by
  have l1 := mul_lt_P_sq h1 h3
  have l2 := mul_lt_P_sq h2 h4
  have l3 := mul_lt_P_sq h1 h4
  have l4 := mul_lt_P_sq h2 h3
  obtain ⟨k1, k2⟩ := P_sq_bounds
  have hs : mpadd a0 a1 * mpadd b0 b1 = a0 * b0 + a0 * b1 + a1 * b0 + a1 * b1 := by
    rw [mpadd_eq h1 h2, mpadd_eq h3 h4]; ring
  unfold f2mul rawMultiply realPart
  dsimp only
  rw [hs]
  generalize a0 * b0 = x at *
  generalize a1 * b1 = y at *
  generalize a0 * b1 = z at *
  generalize a1 * b0 = w at *
  have e1 : (BitVec.ofNat 1536 x).toNat = x := by rw [BitVec.toNat_ofNat]; exact Nat.mod_eq_of_lt (by omega)
  have e2 : (BitVec.ofNat 1536 y).toNat = y := by rw [BitVec.toNat_ofNat]; exact Nat.mod_eq_of_lt (by omega)
  have e3 : (BitVec.ofNat 1536 (x + z + w + y)).toNat = x + z + w + y := by
    rw [BitVec.toNat_ofNat]; exact Nat.mod_eq_of_lt (by omega)
  refine ⟨?_, by split <;> omega, by omega⟩
  refine congrArg₂ Prod.mk (congrArg _ ?_) (congrArg _ ?_)
  · by_cases hb : x < y
    · have hbo : borrowOut (BitVec.ofNat 1536 x) (BitVec.ofNat 1536 y) = 1 := by rw [borrowOut_eq, e1, e2, if_pos hb]
      have hm : spread (0 - (1 : Digit)) = BitVec.allOnes 768 := spread_all1
      have hP : ((felm P).setWidth 1536 <<< 768).toNat = P * R := by decide +kernel
      rw [hbo, hm, BitVec.and_allOnes, if_pos hb, BitVec.toNat_add, BitVec.toNat_sub, hP, e1, e2, Nat.mod_add_mod,
        show 2 ^ 1536 - y + x + P * R = (x + P * R - y) + 2 ^ 1536 by omega, Nat.add_mod_right]
      exact Nat.mod_eq_of_lt (by omega)
    · have hbo : borrowOut (BitVec.ofNat 1536 x) (BitVec.ofNat 1536 y) = 0 := by
        rw [borrowOut_eq, e1, e2, if_neg hb]
      have hm : spread (0 - (0 : Digit)) = 0 := spread_all0
      have hz : ((0 : Felm).setWidth 1536 <<< 768) = 0 := by decide +kernel
      have hadd : ∀ v : Wide, v + 0 = v := fun v => BitVec.add_zero v
      rw [hbo, hm, show felm P &&& 0 = 0 from BitVec.and_zero, if_neg hb, hz, hadd, BitVec.toNat_sub, e1, e2,
        show 2 ^ 1536 - y + x = (x - y) + 2 ^ 1536 by omega, Nat.add_mod_right]
      exact Nat.mod_eq_of_lt (by omega)
  · rw [BitVec.toNat_sub, BitVec.toNat_sub, e1, e2, e3, Nat.add_mod_mod,
      show 2 ^ 1536 - y + (2 ^ 1536 - x + (x + z + w + y)) = (z + w) + 2 ^ 1536 + 2 ^ 1536 by omega,
      Nat.add_mod_right, Nat.add_mod_right]
    exact Nat.mod_eq_of_lt (by omega)

theorem f2mul_lt {a0 a1 b0 b1 : Nat} (h1 : a0 < P) (h2 : a1 < P) (h3 : b0 < P) (h4 : b1 < P) :
    (f2mul a0 a1 b0 b1).1 < P ∧ (f2mul a0 a1 b0 b1).2 < P := by
  obtain ⟨e, l1, l2⟩ := f2mul_spec h1 h2 h3 h4
  rw [e]
  dsimp only
  exact ⟨montgomeryReduce_lt l1, montgomeryReduce_lt l2⟩

theorem f2mul_cast {a0 a1 b0 b1 : Nat} (h1 : a0 < P) (h2 : a1 < P) (h3 : b0 < P) (h4 : b1 < P) :
    ((f2mul a0 a1 b0 b1).1 : ZMod P) = (a0 * b0 - a1 * b1) * (Rinv : ZMod P) ∧
      ((f2mul a0 a1 b0 b1).2 : ZMod P) = (a0 * b1 + a1 * b0) * (Rinv : ZMod P) := by
  obtain ⟨e, l1, l2⟩ := f2mul_spec h1 h2 h3 h4
  have l3 := mul_lt_P_sq h2 h4
  have k := P_sq_bounds
  rw [e]
  dsimp only
  constructor
  · rw [montgomeryReduce_of_lt l1, cast_mod, Nat.cast_mul, realPart]
    split
    · rw [Nat.cast_sub (by omega)]
      push_cast
      rw [show ((P : Nat) : ZMod P) = 0 by simp]
      ring
    · rw [Nat.cast_sub (by omega)]
      push_cast
      ring
  · rw [montgomeryReduce_of_lt l2, cast_mod]
    push_cast
    ring

theorem f2sqr_eq_f2mul {a0 a1 : Nat} (h1 : a0 < P) (h2 : a1 < P) : f2sqr a0 a1 = f2mul a0 a1 a0 a1 := by
  obtain ⟨l1, l2⟩ := f2mul_lt h1 h2 h1 h2
  obtain ⟨k1, k2⟩ := f2mul_cast h1 h2 h1 h2
  have q := P_lt_R
  have r1 : a0 + a1 < R := by omega
  have r2 : a0 + a0 < R := by omega
  have hl := fpsub_lt h1 h2
  unfold f2sqr
  dsimp only
  rw [mpadd_eq h1 h2, mpadd_eq h1 h1]
  refine Prod.ext ?_ ?_
  · dsimp only
    refine eq_of_cast (mm_lt r1 hl) l1 ?_
    rw [mm_cast r1 hl, k1, fpsub_cast h1 h2]
    push_cast
    ring
  · dsimp only
    refine eq_of_cast (mm_lt r2 h2) l2 ?_
    rw [mm_cast r2 h2, k2]
    push_cast
    ring

end Sys2Proof.Laws
end

