-- ==== Sys2Proof/Laws/Inversion.lean ====
section
/-! SUPPORT. The inversion engine (spec/43_inversion.md R171 to R174) said once: every value of the run is a Montgomery power
of the operand, the exponent of the result is P − 2; and the instrumented run has the same values (R177). -/

set_option Elab.async false

namespace Sys2Proof.Laws

open Sys2Proof.Config Sys2Proof.Machine

/-- v is the e-th Montgomery power of x: x^e·R^(1−e) modulo P, below P. -/
def Power (x : ZMod P) (e v : Nat) : Prop := 1 ≤ e ∧ v < P ∧ (v : ZMod P) = x ^ e * (Rinv : ZMod P) ^ (e - 1)

theorem Power.mul {x : ZMod P} {a b u v : Nat} (h : Power x a u) (k : Power x b v) : Power x (a + b) (mm u v) := by
  obtain ⟨h1, h2, h3⟩ := h
  obtain ⟨k1, k2, k3⟩ := k
  refine ⟨by omega, mm_lt (lt_R_of_lt_P h2) k2, ?_⟩
  rw [mm_cast (lt_R_of_lt_P h2) k2, h3, k3]
  obtain ⟨a, rfl⟩ := Nat.exists_eq_add_of_le' h1
  obtain ⟨b, rfl⟩ := Nat.exists_eq_add_of_le' k1
  simp only [Nat.add_sub_cancel, show a + 1 + (b + 1) - 1 = a + b + 1 by omega]
  ring

theorem Power.squarings {x : ZMod P} (n : Nat) {e v : Nat} (h : Power x e v) :
    Power x (e * 2 ^ n) (Machine.squarings n v) := by
  induction n generalizing e v with
  | zero => simpa [Machine.squarings] using h
  | succ n ih =>
    have k := ih (h.mul h)
    rw [Machine.squarings, msqr]
    convert k using 1
    ring_nf

/-- The exponents beside one turn of the table-building loop. -/
def exponentTableStep (st : Nat × List Nat) (e : Nat) : Nat × List Nat :=
  (st.1 + 2, if exps[st.2.length]? = some e then st.2 ++ [st.1 + 2] else st.2)

theorem powers_of_tableSteps {x : ZMod P} {tt : Nat} (ht : Power x 2 tt) (l : List Nat) (st es : Nat × List Nat)
    (h1 : Power x es.1 st.1) (h2 : List.Forall₂ (Power x) es.2 st.2) :
    List.Forall₂ (Power x) (l.foldl exponentTableStep es).2 (l.foldl (tableStep tt) st).2 := by
  induction l generalizing st es with
  | nil => exact h2
  | cons e l ih =>
    have hl := h2.length_eq
    have hy := h1.mul ht
    have e1 : tableStep tt st e =
        (mm st.1 tt, if exps[st.2.length]? = some e then st.2 ++ [mm st.1 tt] else st.2) := rfl
    rw [List.foldl_cons, List.foldl_cons, e1]
    generalize mm st.1 tt = y at hy ⊢
    refine ih _ _ hy ?_
    simp only [exponentTableStep, hl]
    split
    · have h3 : List.Forall₂ (Power x) [es.1 + 2] [y] := .cons hy .nil
      exact List.rel_append h2 h3
    · exact h2

theorem power_getD {x : ZMod P} {L T : List Nat} (h : List.Forall₂ (Power x) L T) {i : Nat} (hi : i < L.length) :
    Power x (L.getD i 0) (T.getD i 0) := by
  have hT : i < T.length := by rw [← h.length_eq]; exact hi
  rw [List.getD_eq_getElem _ _ hi, List.getD_eq_getElem _ _ hT]
  exact h.get hi hT

theorem powers_of_chainSteps {x : ZMod P} {T : List Nat} (h : List.Forall₂ (Power x) exps T) (l : List (Nat × Nat))
    {e v : Nat} (hp : ∀ p ∈ l, p.2 < 27) (h1 : Power x e v) :
    Power x (l.foldl exponentStep e) (l.foldl (chainStep T) v) := by
  induction l generalizing e v with
  | nil => exact h1
  | cons p l ih =>
    have k := (h1.squarings p.1).mul (power_getD h (hp p List.mem_cons_self))
    have e1 : chainStep T v p = mm (Machine.squarings p.1 v) (T.getD p.2 0) := rfl
    rw [List.foldl_cons, List.foldl_cons, e1]
    exact ih (fun q hq => hp q (List.mem_cons_of_mem _ hq)) k

/-- finv's result is the Montgomery power of exponent P − 2 (R170, R174). -/
theorem finv_power {x : Nat} (hx : x < P) : Power (x : ZMod P) (P - 2) (finv x) := by
  have h1 : Power (x : ZMod P) 1 x := ⟨le_refl _, hx, by simp⟩
  have hT : List.Forall₂ (Power (x : ZMod P)) exps (finvTable x) := by
    have h := powers_of_tableSteps (h1.mul h1) oddExps (x, [x]) (1, [1]) h1 (.cons h1 .nil)
    have e : (oddExps.foldl exponentTableStep (1, [1])).2 = exps := by decide +kernel
    rw [e] at h
    exact h
  have h := powers_of_chainSteps hT chain (e := 1) (by decide +kernel) (power_getD hT (i := 0) (by decide))
  have e : chain.foldl exponentStep 1 = P - 2 := by decide +kernel
  rw [e] at h
  exact h

theorem finv_lt {x : Nat} (hx : x < P) : finv x < P := (finv_power hx).2.1

/-! ### The instrumented run -/

theorem squaringsLogged_eq (n : Nat) (a : Logged) :
    squaringsLogged n a = (Machine.squarings n a.1, a.2 ++ List.replicate n .square) := by
  induction n generalizing a with
  | zero => simp [squaringsLogged, Machine.squarings]
  | succ n ih => rw [squaringsLogged, ih]; simp [Machine.squarings, List.replicate_succ]

end Sys2Proof.Laws
end

