-- ==== Sys2Proof/Laws/Port.lean ====
section
/-! SUPPORT. The host port, said once: which addresses the map gives to each target (spec/20_memory.md R53), the targets of the
windows' addresses (R54, R55), a refused access (R59), and a CMD write as one equation (spec/60_exceptions.md R245). -/

set_option Elab.async false

namespace Sys2Proof.Machine

/-! ### The address map (R53) -/

/-- Every address has one target, and each target has exactly the addresses of its row of the map. -/
theorem target_spec (a : Addr) :
    (∃ r j, target a = .felmDigit r j ∧ a.toNat = 16 * r.val + j.val) ∨
    (∃ k, target a = .digitReg k ∧ a.toNat = 0x0200 + k.val) ∨
    (target a = .cmd ∧ a.toNat = 0x0300) ∨ (target a = .status ∧ a.toNat = 0x0301) ∨
    (target a = .errinfo ∧ a.toNat = 0x0302) ∨ (target a = .ctrl ∧ a.toNat = 0x0303) ∨
    (target a = .ident ∧ a.toNat = 0x0304) ∨
    (∃ j, target a = .modulus j ∧ a.toNat = 0x0400 + j.val) ∨
    (∃ j, target a = .modulusPlusOne j ∧ a.toNat = 0x0410 + j.val) ∨
    (∃ j, target a = .rSquared j ∧ a.toNat = 0x0420 + j.val) ∨
    (target a = .unmapped ∧ ((a.toNat < 0x0200 ∧ 12 ≤ a.toNat % 16) ∨ (0x0208 ≤ a.toNat ∧ a.toNat ≤ 0x02FF) ∨
      (0x0305 ≤ a.toNat ∧ a.toNat ≤ 0x03FF) ∨ (0x040C ≤ a.toNat ∧ a.toNat ≤ 0x040F) ∨
      (0x041C ≤ a.toNat ∧ a.toNat ≤ 0x041F) ∨ 0x042C ≤ a.toNat)) := by
  unfold target
  dsimp only
  by_cases h1 : a.toNat < 0x0200
  · by_cases h2 : a.toNat % 16 < 12
    · rw [dif_pos h1, dif_pos h2]
      exact .inl ⟨_, _, rfl, by dsimp only; omega⟩
    · rw [dif_pos h1, dif_neg h2]
      exact .inr (.inr (.inr (.inr (.inr (.inr (.inr (.inr (.inr (.inr (⟨rfl, by omega⟩))))))))))
  rw [dif_neg h1]
  by_cases h3 : a.toNat < 0x0208
  · rw [dif_pos h3]
    exact .inr (.inl ⟨_, rfl, by dsimp only; omega⟩)
  rw [dif_neg h3]
  by_cases h4 : a.toNat = 0x0300
  · rw [if_pos h4]
    exact .inr (.inr (.inl ⟨rfl, h4⟩))
  rw [if_neg h4]
  by_cases h5 : a.toNat = 0x0301
  · rw [if_pos h5]
    exact .inr (.inr (.inr (.inl ⟨rfl, h5⟩)))
  rw [if_neg h5]
  by_cases h6 : a.toNat = 0x0302
  · rw [if_pos h6]
    exact .inr (.inr (.inr (.inr (.inl ⟨rfl, h6⟩))))
  rw [if_neg h6]
  by_cases h7 : a.toNat = 0x0303
  · rw [if_pos h7]
    exact .inr (.inr (.inr (.inr (.inr (.inl ⟨rfl, h7⟩)))))
  rw [if_neg h7]
  by_cases h8 : a.toNat = 0x0304
  · rw [if_pos h8]
    exact .inr (.inr (.inr (.inr (.inr (.inr (.inl ⟨rfl, h8⟩))))))
  rw [if_neg h8]
  by_cases h9 : 0x0400 ≤ a.toNat ∧ a.toNat < 0x040c
  · rw [dif_pos h9]
    exact .inr (.inr (.inr (.inr (.inr (.inr (.inr (.inl ⟨_, rfl, by dsimp only; omega⟩)))))))
  rw [dif_neg h9]
  by_cases h10 : 0x0410 ≤ a.toNat ∧ a.toNat < 0x041c
  · rw [dif_pos h10]
    exact .inr (.inr (.inr (.inr (.inr (.inr (.inr (.inr (.inl ⟨_, rfl, by dsimp only; omega⟩))))))))
  rw [dif_neg h10]
  by_cases h11 : 0x0420 ≤ a.toNat ∧ a.toNat < 0x042c
  · rw [dif_pos h11]
    exact .inr (.inr (.inr (.inr (.inr (.inr (.inr (.inr (.inr (.inl ⟨_, rfl, by dsimp only; omega⟩)))))))))
  rw [dif_neg h11]
  exact .inr (.inr (.inr (.inr (.inr (.inr (.inr (.inr (.inr (.inr (⟨rfl, by omega⟩))))))))))

theorem target_F_window (r : FReg) (j : Fin 12) :
    target (BitVec.ofNat 16 (16 * r.val + j.val)) = .felmDigit r j := by
  revert r j; decide +kernel

theorem target_D_window (k : DReg) : target (BitVec.ofNat 16 (0x0200 + k.val)) = .digitReg k := by
  revert k; decide +kernel

/-! ### Refused accesses (R59) -/

theorem State.refuseAccess_eq (s : State) (a : Addr) :
    s.refuseAccess a =
      if s.err then s else { s with err := true, cause := 3, errinfo := a.setWidth 64 } := rfl

/-! ### A CMD write (R245) -/

theorem upper_half_ne_zero_iff (v : Digit) : v.extractLsb' 32 32 ≠ 0 ↔ 2 ^ 32 ≤ v.toNat := by
  have := v.isLt
  rw [ne_eq, not_iff_comm, ← BitVec.toNat_inj]
  simp only [BitVec.extractLsb'_toNat, Nat.shiftRight_eq_div_pow, BitVec.ofNat_eq_ofNat, BitVec.toNat_ofNat]
  omega

/-- A CMD write while ERR = 0 by its outcomes. -/
theorem State.issue_of_ok {s : State} (h : s.err = false) (v : Digit) :
    s.issue v =
      if 2 ^ 32 ≤ v.toNat then .next (s.raiseFault .illegalOperand ((v.setWidth 32 : Command).setWidth 64))
      else
        match decode (v.setWidth 32) with
        | .error .illegalOpcode => .next (s.raiseFault .illegalOpcode ((v.setWidth 32 : Command).setWidth 64))
        | .error .illegalOperand => .next (s.raiseFault .illegalOperand ((v.setWidth 32 : Command).setWidth 64))
        | .ok i => exec i s := by
  simp only [State.issue, h, upper_half_ne_zero_iff]
  rfl

end Sys2Proof.Machine
end

