-- ==== Sys2Proof/Tests/Slice0.lean ====
section
/-! SUPPORT. Tests and witnesses. The expected values are the spec's: the vectors of spec/96_derived_vectors.md (V), of
spec/95_test_vectors.md sections 3 and 4 (X, H, P), and the tables of spec/30_encoding.md. A witness shows a concrete
state and operands that meet the hypotheses of one statement. -/

set_option Elab.async false

namespace Sys2Proof.Tests

open Sys2Proof Sys2Proof.Machine Sys2Proof.Config

/-! ### Helpers -/

/-- The reset state with some registers set. -/
def start (fs : List (FReg × Nat)) (ds : List (DReg × Digit)) : State :=
  ds.foldl (fun s p => s.writeD p.1 p.2) (fs.foldl (fun s p => s.writeF p.1 (felm p.2)) State.reset)

/-- The registers of the two lists hold the listed values. -/
def holds (fs : List (FReg × Nat)) (ds : List (DReg × Digit)) (t : State) : Bool :=
  fs.all (fun p => t.readF p.1 == felm p.2) && ds.all fun p => t.readD p.1 == p.2

/-- The next state of an answer has the property. -/
def answers (r : Result) (post : State → Bool) : Bool :=
  match r with
  | .next t => post t
  | _ => false

/-- A CMD write of the word is the next step: it leaves the listed values, and STATUS at 0. -/
def runs (w : Nat) (s : State) (fs : List (FReg × Nat)) (ds : List (DReg × Digit)) : Bool :=
  answers (step (s.withFetchWord 32 w)) fun t => holds fs ds t && t.status == 0

/-- The state with one host event pending. -/
def facing (s : State) (e : HostEvent) : State := { s with pending := [e] }

/-- The event leaves STATUS and ERRINFO at the listed values, and F[1], F[2], D[0] as they were. -/
def faults (s : State) (e : HostEvent) (status info : Digit) : Bool :=
  answers (step (facing s e)) fun t => t.status == status && t.errinfo == info && t.readF 1 == s.readF 1 &&
    t.readF 2 == s.readF 2 && t.readD 0 == s.readD 0

/-- The read returns the value to the host. -/
def returns (s : State) (a : Addr) (v : Digit) : Bool := answers (step (facing s (.read a))) fun t => t.reply == some v

/-- The value A of spec/95_test_vectors.md section 0. -/
def A : Nat := 0x123456789ABCABCDF012345678999ABCDF012345678889ABCDF012345677789ABCDF012345666789ABCDF012345556789ABCDF012344456789ABCDF012333456789ABCDF012223456789ABCDF011123456789ABCDF000123456789ABCDEF

/-- The value B of spec/95_test_vectors.md section 0. -/
def B : Nat := 0x5EADBEEF0123F4D2B08E6C4A2806F5D3B18F6D4B2907F6D4B2906E4C2A08F7D5B3916F4D2B09F8D6B492704E2C0AF9D7B593714F2D0BFAD8B69472502E0CFBD9B79573512F0DFCDAB8967452300EFDDBB9977553310FFEDCBA9876543210

/-- A state in the fault state: cause 3 at address 0x001C (H9). -/
def faulted : State := { start [(1, 5)] [(0, 7)] with err := true, cause := 3, errinfo := 0x1C }

/-! ### Well-formedness: the check of each register field refuses a term that is no command (R82) -/

theorem test_wellFormed_refuses_pair_ra : (Instr.f2mul 1 4 6).wellFormed = false := by decide

theorem test_wellFormed_refuses_pair_rb : (Instr.f2mul 2 5 6).wellFormed = false := by decide

theorem test_wellFormed_refuses_pair_rc : (Instr.mpisltw 2 7 0).wellFormed = false := by decide

theorem test_wellFormed_refuses_quad_ra : (Instr.selpt 2 4 8 0).wellFormed = false := by decide

theorem test_wellFormed_refuses_quad_rb : (Instr.swappt 4 30 0).wellFormed = false := by decide

theorem test_wellFormed_refuses_quad_rc : (Instr.selpt 0 4 9 0).wellFormed = false := by decide

theorem test_wellFormed_accepts_the_last_groups :
    (Instr.mpsub 31 31 31 7).wellFormed = true ∧ (Instr.f2mul 30 30 30).wellFormed = true ∧
      (Instr.selpt 28 28 28 7).wellFormed = true := by decide

/-! ### Decoding: a word for every constructor, written out by the fields of R80 and the opcodes of R85 -/

/-- The narrow digit layer: opcode, ra, rb, rc, dd, z. -/
theorem test_decode_narrow :
    decode 0b00010000_10101_01001_00000_000_000000 = .ok (.mpcopy 21 9) ∧
    decode 0b00010001_10111_00000_00000_000_000000 = .ok (.mpzero 23) ∧
    decode 0b00010010_11001_01111_11100_111_000000 = .ok (.mpadd 25 15 28 7) ∧
    decode 0b00010011_11011_10010_00011_000_000000 = .ok (.mpsub 27 18 3 0) ∧
    decode 0b00010100_11101_10101_00000_000_000000 = .ok (.mpshr1 29 21) ∧
    decode 0b00010101_11111_11000_00000_000_000000 = .ok (.mpshl1 31 24) ∧
    decode 0b00010110_00000_11011_00000_011_000000 = .ok (.mpiszero 27 3) ∧
    decode 0b00010111_00000_11110_00000_100_000000 = .ok (.mpiseven 30 4) ∧
    decode 0b00011000_00000_00001_00110_101_000000 = .ok (.mpislt 1 6 5) := by
  decide

/-- The wide digit layer: opcode, ra, rb, rc, dd, z. -/
theorem test_decode_wide :
    decode 0b00100000_10100_01000_00000_000_000000 = .ok (.mpcopyw 20 8) ∧
    decode 0b00100001_10110_00000_00000_000_000000 = .ok (.mpzerow 22) ∧
    decode 0b00100010_11000_01110_11100_111_000000 = .ok (.mpaddw 24 14 28 7) ∧
    decode 0b00100011_11010_10010_00010_000_000000 = .ok (.mpsubw 26 18 2 0) ∧
    decode 0b00100100_11100_10100_00000_000_000000 = .ok (.mpshr1w 28 20) ∧
    decode 0b00100101_11110_11000_00000_000_000000 = .ok (.mpshl1w 30 24) ∧
    decode 0b00100110_00000_11010_00000_011_000000 = .ok (.mpiszerow 26 3) ∧
    decode 0b00100111_00000_11110_00000_100_000000 = .ok (.mpisevenw 30 4) ∧
    decode 0b00101000_00000_00000_00110_101_000000 = .ok (.mpisltw 0 6 5) := by
  decide

/-- The base-field backend: opcode, ra, rb, rc, dd, z. -/
theorem test_decode_backend :
    decode 0b00110000_10101_01001_01110_000_000000 = .ok (.fpadd 21 9 14) ∧
    decode 0b00110001_10111_01100_10101_000_000000 = .ok (.fpsub 23 12 21) ∧
    decode 0b00110010_11001_01111_00000_000_000000 = .ok (.fpneg 25 15) ∧
    decode 0b00110011_11011_10010_00000_000_000000 = .ok (.fpdiv2 27 18) := by
  decide

/-- The Montgomery base field and inversion: opcode, ra, rb, rc, dd, z. -/
theorem test_decode_montgomery :
    decode 0b00111000_10101_01001_00000_000_000000 = .ok (.fptomont 21 9) ∧
    decode 0b00111001_10111_01100_00000_000_000000 = .ok (.fpfrommont 23 12) ∧
    decode 0b00111010_11001_01111_11100_000_000000 = .ok (.fpmul 25 15 28) ∧
    decode 0b00111011_11011_10010_00000_000_000000 = .ok (.fpsqr 27 18) ∧
    decode 0b00111100_11101_10101_00000_000_000000 = .ok (.fpinv 29 21) := by
  decide

/-- The GF(p²) layer: opcode, ra, rb, rc, dd, z. -/
theorem test_decode_gfp2 :
    decode 0b01000000_10100_01000_01110_000_000000 = .ok (.f2add 20 8 14) ∧
    decode 0b01000001_10110_01100_10100_000_000000 = .ok (.f2sub 22 12 20) ∧
    decode 0b01000010_11000_01110_00000_000_000000 = .ok (.f2neg 24 14) ∧
    decode 0b01000011_11010_10010_00000_000_000000 = .ok (.f2div2 26 18) ∧
    decode 0b01000100_11100_10100_00000_000_000000 = .ok (.f2copy 28 20) ∧
    decode 0b01000101_11110_00000_00000_000_000000 = .ok (.f2zero 30) ∧
    decode 0b01000110_00000_11010_00000_000_000000 = .ok (.f2sqr 0 26) ∧
    decode 0b01000111_00010_11110_11110_000_000000 = .ok (.f2mul 2 30 30) ∧
    decode 0b01001000_00100_00000_00000_000_000000 = .ok (.f2inv 4 0) ∧
    decode 0b01001001_00110_00100_00000_000_000000 = .ok (.f2tomont 6 4) ∧
    decode 0b01001010_01000_00110_00000_000_000000 = .ok (.f2frommont 8 6) := by
  decide

/-- The select and swap commands: opcode, ra, rb, rc, dd, z. -/
theorem test_decode_select_swap :
    decode 0b01010000_10101_01001_01110_101_000000 = .ok (.self 21 9 14 5) ∧
    decode 0b01010001_10110_01100_10100_110_000000 = .ok (.self2 22 12 20 6) ∧
    decode 0b01010010_11000_01100_11100_111_000000 = .ok (.selpt 24 12 28 7) ∧
    decode 0b01010100_11010_10010_00000_000_000000 = .ok (.swappb 26 18 0) ∧
    decode 0b01010101_11100_10100_00000_001_000000 = .ok (.swappt 28 20 1) := by
  decide

/-! ### The digit layer, narrow (R101 to R109) -/

/-- V1: `MPCOPY F2, F1`. -/
theorem test_mpcopy_V1 :
    runs 0x10104000 (start [(1, 0x1234)] []) [(2, 0x1234), (1, 0x1234)] [] = true := by
  decide +kernel

/-- V2: `MPCOPY F1, F1`. -/
theorem test_mpcopy_V2 :
    runs 0x10084000 (start [(1, 2 ^ 768 - 1)] []) [(1, 2 ^ 768 - 1)] [] = true := by
  decide +kernel

/-- V3: `MPZERO F9`. -/
theorem test_mpzero_V3 :
    runs 0x11480000 (start [(9, A)] []) [(9, 0x0)] [] = true := by
  decide +kernel

/-- V5: `MPADD F3, F1, F2, D1`. -/
theorem test_mpadd_V5 :
    runs 0x12184440 (start [(1, 2 ^ 768 - 1), (2, 0x1)] []) [(3, 0x0)] [(1, 0x1)] = true := by
  decide +kernel

/-- V6: `MPADD F1, F1, F1, D7`. -/
theorem test_mpadd_V6 :
    runs 0x120843C0 (start [(1, 2 ^ 768 - 1)] []) [(1, 2 ^ 768 - 2)] [(7, 0x1)] = true := by
  decide +kernel

/-- V8: `MPSUB F3, F1, F2, D0`. -/
theorem test_mpsub_V8 :
    runs 0x13184400 (start [(1, 0x5), (2, 0x7)] []) [(3, 2 ^ 768 - 2)] [(0, 0x1)] = true := by
  decide +kernel

/-- V11: `MPSUB F3, F1, F2, D0`. -/
theorem test_mpsub_V11 :
    runs 0x13184400 (start [(1, 2 ^ 64), (2, 0x1)] []) [(3, 2 ^ 64 - 1)] [(0, 0x0)] = true := by
  decide +kernel

/-- V13: `MPSHR1 F4, F4`. -/
theorem test_mpshr1_V13 :
    runs 0x14210000 (start [(4, 2 ^ 64 + 1)] []) [(4, 2 ^ 63)] [] = true := by
  decide +kernel

/-- V15: `MPSHR1 F5, F4`. -/
theorem test_mpshr1_V15 :
    runs 0x14290000 (start [(4, 0x1)] []) [(5, 0x0)] [] = true := by
  decide +kernel

/-- V16: `MPSHL1 F5, F4`. -/
theorem test_mpshl1_V16 :
    runs 0x15290000 (start [(4, 2 ^ 63 + 1)] []) [(5, 2 ^ 64 + 2)] [] = true := by
  decide +kernel

/-- V17: `MPSHL1 F5, F4`. -/
theorem test_mpshl1_V17 :
    runs 0x15290000 (start [(4, 2 ^ 767)] []) [(5, 0x0)] [] = true := by
  decide +kernel

/-- V19: `MPISZERO D2, F7`. -/
theorem test_mpiszero_V19 :
    runs 0x1601C080 (start [] [(2, 0x5)]) [] [(2, 0x1)] = true := by
  decide +kernel

/-- V20: `MPISZERO D2, F7`. -/
theorem test_mpiszero_V20 :
    runs 0x1601C080 (start [(7, 2 ^ 767)] []) [] [(2, 0x0)] = true := by
  decide +kernel

/-- V22: `MPISEVEN D2, F7`. -/
theorem test_mpiseven_V22 :
    runs 0x1701C080 (start [(7, 0x3)] []) [] [(2, 0x0)] = true := by
  decide +kernel

/-- V23: `MPISEVEN D2, F7`. -/
theorem test_mpiseven_V23 :
    runs 0x1701C080 (start [(7, 2 ^ 64)] []) [] [(2, 0x1)] = true := by
  decide +kernel

/-- V24: `MPISLT D0, F4, F5`. -/
theorem test_mpislt_V24 :
    runs 0x18010A00 (start [(4, 0x9), (5, 0xa)] []) [] [(0, 0x1)] = true := by
  decide +kernel

/-- V26: `MPISLT D0, F4, F5`. -/
theorem test_mpislt_V26 :
    runs 0x18010A00 (start [(4, 2 ^ 64), (5, 2 ^ 64 - 1)] []) [] [(0, 0x0)] = true := by
  decide +kernel

/-! ### The digit layer, wide (R111 to R119) -/

/-- V30: `MPCOPYW W1, W0`. -/
theorem test_mpcopyw_V30 :
    runs 0x20100000 (start [(0, 0x7), (1, 0x8)] []) [(2, 0x7), (3, 0x8)] [] = true := by
  decide +kernel

/-- V31: `MPZEROW W3`. -/
theorem test_mpzerow_V31 :
    runs 0x21300000 (start [(6, 0x1), (7, 0x2)] []) [(6, 0x0), (7, 0x0)] [] = true := by
  decide +kernel

/-- V32: `MPADDW W2, W0, W1, D0`. -/
theorem test_mpaddw_V32 :
    runs 0x22200400 (start [(0, 2 ^ 768 - 1), (1, 0x0), (2, 0x1), (3, 0x0)] []) [(4, 0x0), (5, 0x1)] [(0, 0x0)] = true := by
  decide +kernel

/-- V33: `MPADDW W2, W0, W1, D0`. -/
theorem test_mpaddw_V33 :
    runs 0x22200400 (start [(0, 2 ^ 768 - 1), (1, 2 ^ 768 - 1), (2, 0x1), (3, 0x0)] [])
      [(4, 0x0), (5, 0x0)] [(0, 0x1)] = true := by
  decide +kernel

/-- V34: `MPSUBW W2, W0, W1, D0`. -/
theorem test_mpsubw_V34 :
    runs 0x23200400 (start [(0, 0x0), (1, 0x1), (2, 0x1), (3, 0x0)] []) [(4, 2 ^ 768 - 1), (5, 0x0)] [(0, 0x0)] = true := by
  decide +kernel

/-- V35: `MPSUBW W2, W0, W1, D0`. -/
theorem test_mpsubw_V35 :
    runs 0x23200400 (start [(2, 0x1)] []) [(4, 2 ^ 768 - 1), (5, 2 ^ 768 - 1)] [(0, 0x1)] = true := by
  decide +kernel

/-- V36: `MPSHR1W W0, W0`. -/
theorem test_mpshr1w_V36 :
    runs 0x24000000 (start [(0, 0x0), (1, 0x1)] []) [(0, 2 ^ 767), (1, 0x0)] [] = true := by
  decide +kernel

/-- V37: `MPSHL1W W1, W0`. -/
theorem test_mpshl1w_V37 :
    runs 0x25100000 (start [(0, 2 ^ 767), (1, 0x0)] []) [(2, 0x0), (3, 0x1)] [] = true := by
  decide +kernel

/-- V38: `MPSHL1W W1, W0`. -/
theorem test_mpshl1w_V38 :
    runs 0x25100000 (start [(0, 0x0), (1, 2 ^ 767)] []) [(2, 0x0), (3, 0x0)] [] = true := by
  decide +kernel

/-- V39: `MPISZEROW D1, W1`. -/
theorem test_mpiszerow_V39 :
    runs 0x26008040 (start [(2, 0x0), (3, 0x1)] []) [] [(1, 0x0)] = true := by
  decide +kernel

/-- V40: `MPISZEROW D1, W1`. -/
theorem test_mpiszerow_V40 :
    runs 0x26008040 (start [] [(1, 0x9)]) [] [(1, 0x1)] = true := by
  decide +kernel

/-- V41: `MPISEVENW D1, W1`. -/
theorem test_mpisevenw_V41 :
    runs 0x27008040 (start [(2, 0x2), (3, 0x1)] []) [] [(1, 0x1)] = true := by
  decide +kernel

/-- V42: `MPISEVENW D1, W1`. -/
theorem test_mpisevenw_V42 :
    runs 0x27008040 (start [(2, 0x1), (3, 0x0)] []) [] [(1, 0x0)] = true := by
  decide +kernel

/-- V43: `MPISLTW D0, W0, W1`. -/
theorem test_mpisltw_V43 :
    runs 0x28000400 (start [(0, 0x5), (1, 0x0), (2, 0x0), (3, 0x1)] []) [] [(0, 0x1)] = true := by
  decide +kernel

/-- V44: `MPISLTW D0, W0, W1`. -/
theorem test_mpisltw_V44 :
    runs 0x28000400 (start [(0, 0x5), (1, 0x1), (2, 0x6), (3, 0x0)] []) [] [(0, 0x0)] = true := by
  decide +kernel

/-! ### The base-field backend (R134 to R137) -/

/-- V50: `FPADD F3, F1, F2`. -/
theorem test_fpadd_V50 :
    runs 0x30184400 (start [(1, P - 1), (2, 0x2)] []) [(3, 0x1)] [] = true := by
  decide +kernel

/-- V52: `FPADD F3, F1, F1`. -/
theorem test_fpadd_V52 :
    runs 0x30184200 (start [(1, P - 1)] []) [(3, P - 2)] [] = true := by
  decide +kernel

/-- V54: `FPSUB F3, F1, F2`. -/
theorem test_fpsub_V54 :
    runs 0x31184400 (start [(1, 0x3), (2, 0x5)] []) [(3, P - 2)] [] = true := by
  decide +kernel

/-- V57: `FPSUB F3, F1, F2`. -/
theorem test_fpsub_V57 :
    runs 0x31184400 (start [(1, A), (2, B)] [])
      [(3, 0x236C6CCB90B4C50DD0235FC72CF92A4BE27612AC95C89B25B3C77AD414E55B5AA467A5CDE6D3529F8DC0C9BC80F34B50E5296DB1F6384A8ED3175B9FE426387CC105498DD214266AAEF3377BC00214589CE12569ADF002468ACF13579BDE)] [] = true := by
  decide +kernel

/-- V59: `FPNEG F4, F4`. -/
theorem test_fpneg_V59 :
    runs 0x32210000 (start [(4, 0x1)] []) [(4, P - 1)] [] = true := by
  decide +kernel

/-- V60: `FPNEG F5, F4`. -/
theorem test_fpneg_V60 :
    runs 0x32290000 (start [(5, 0x7)] []) [(5, 0x0)] [] = true := by
  decide +kernel

/-- V62: `FPDIV2 F2, F1`. -/
theorem test_fpdiv2_V62 :
    runs 0x33104000 (start [(1, 0x1)] [])
      [(2, 0x37F2EAA0FB8E0709484FCBDD6E3342B15A822E592BA404274C33EB75F43B6D4ACD8D09FBE63B71F64B42A4FC3C54775800000000000000000000000000000000000000000000000000000000000000000000000000000000000000000000)] [] = true := by
  decide +kernel

/-- V63: `FPDIV2 F2, F1`. -/
theorem test_fpdiv2_V63 :
    runs 0x33104000 (start [(1, 0x2)] []) [(2, 0x1)] [] = true := by
  decide +kernel

/-! ### The Montgomery base field (R154 to R157) and inversion (R170) -/

/-- V73: `FPTOMONT F2, F1`. -/
theorem test_fptomont_V73 :
    runs 0x38104000 (start [(1, A)] [])
      [(2, 0x1AB4163260355710D49DF6F6EC039588FFCE5CCE21BD5C96F652FBEBC5923C575ADF2BACE4F1CCA942FD7D59B8FF1AE3C24BE809C0FC71CC5E07E6FA09E1587D425A4B863B0FB5D44B8BFBE9A43186C907A0E7F89104EF1CF2EAE0E3F0F4)] [] = true := by
  decide +kernel

/-- V74: `FPTOMONT F2, F1`. -/
theorem test_fptomont_V74 :
    runs 0x38104000 (start [(1, P - 1)] [])
      [(2, 0x428AB0851139FD1AFE3322A8147D38BE00CA8AAAEDF13FB0E0B52A8F9A48711E035AD4A8A7A68EC4E4A1129C0C426B9FFFFFFFFFFFFFFFFFFFFFFFFFFFFFFFFFFFFFFFFFFFFFFFFFFFFFFFFFFFFFFFFFFFFFFFFFFFFFFFFFFFFFFFFDB652)] [] = true := by
  decide +kernel

/-- V76: `FPFROMMONT F2, F1`. -/
theorem test_fpfrommont_V76 :
    runs 0x39104000 (start [(1, 0x1)] [])
      [(2, 0x10697B6387EB53CCDBC062EB0C61F118A0C0E417A25D438209E6CE499615F828587C510583CF29EBE4D49805C5C62F75F424F8DF437CFA421554FE2E49CA85BAB790796CF84D4D74319A6C9BCA37551AE9F5F5F6AFF3B7F731B89B2DA43F)] [] = true := by
  decide +kernel

/-- V77: `FPFROMMONT F2, F1`. -/
theorem test_fpfrommont_V77 :
    runs 0x39104000 (start [(1, 0x1AB4163260355710D49DF6F6EC039588FFCE5CCE21BD5C96F652FBEBC5923C575ADF2BACE4F1CCA942FD7D59B8FF1AE3C24BE809C0FC71CC5E07E6FA09E1587D425A4B863B0FB5D44B8BFBE9A43186C907A0E7F89104EF1CF2EAE0E3F0F4)] [])
      [(2, A)] [] = true := by
  decide +kernel

/-- V80: `FPMUL F3, F1, F2`. -/
theorem test_fpmul_V80 :
    runs 0x3A184400 (start [(1, A), (2, B)] [])
      [(3, 0x11E0739EC0FC58B84EB8BEDCA10B8ECB5A88A8304DC930376141FFAD823A307E7C5D34003ADB85669118A433E2FEFCBF50C56D82BFD75EA50EA9E716DB890C683BC30D3BD9EE4C42DA1A90305DE45A6B7B2E0D1968B7A66295AEB0594AC5)] [] = true := by
  decide +kernel

/-- V83: `FPMUL F3, F1, F1`. -/
theorem test_fpmul_V83 :
    runs 0x3A184200 (start [(1, P - 1)] [])
      [(3, 0x10697B6387EB53CCDBC062EB0C61F118A0C0E417A25D438209E6CE499615F828587C510583CF29EBE4D49805C5C62F75F424F8DF437CFA421554FE2E49CA85BAB790796CF84D4D74319A6C9BCA37551AE9F5F5F6AFF3B7F731B89B2DA43F)] [] = true := by
  decide +kernel

/-- V85: `FPSQR F2, F1`. -/
theorem test_fpsqr_V85 :
    runs 0x3B104000 (start [(1, 0x182B98F4BA8A24D426A5C77D7B55608B67A91963E4BC518A8EB02E29021461D12C23A9F5A1FA1B8A7F275C1CCC8A9A800000000000000000000000000000000000000000000000000000000000000000000000000000000000000006DD08)] [])
      [(2, 0x4882CADE2F9E6E7C73F15678720021A236FB4C2BAE34F49FAC108A7B063D2573846AFDE0E5EE529F7D761456659FCF8000000000000000000000000000000000000000000000000000000000000000000000000000000000000000149718)] [] = true := by
  decide +kernel

/-- V86: `FPSQR F2, F1`. -/
theorem test_fpsqr_V86 :
    runs 0x3B104000 (start [(1, A)] [])
      [(2, 0x172EAF26E771E0C4419440C3D32417374799A1712F0321AC7A6B1DB4139F78496401259CC6634CD931F7E19F010C253966C1AE5EE9BB3B7278F1D0358BCB15364D5AC0DBA657F67EDF39620B89CD8FCFC9CEC3DDAF983E4F4A763A126F79)] [] = true := by
  decide +kernel

/-- V92: `FPINV F2, F1`. -/
theorem test_fpinv_V92 :
    runs 0x3C104000 (start [(2, A)] []) [(2, 0x0)] [] = true := by
  decide +kernel

/-- V97: `FPINV F2, F1`. -/
theorem test_fpinv_V97 :
    runs 0x3C104000 (start [(1, 0x2FC0D2C8F3238B0BADF19E82EC174721B1860C06021DA7765ADAFF5B5FA5A2AC088149C1F23E1ED4C6A80DD2CAEB1F0000000000000000000000000000000000000000000000000000000000000000000000000000000000000000B7063)] [])
      [(2, 0x35D48FD9C4053C38F0BBEDB4E68ADE486C73B57C04C7C50BC81A120A6C9F3953C2CA47D9592605CCF962F575DF8B467CCCCCCCCCCCCCCCCCCCCCCCCCCCCCCCCCCCCCCCCCCCCCCCCCCCCCCCCCCCCCCCCCCCCCCCCCCCCCCCCCCCCCCCCD41EF)] [] = true := by
  decide +kernel

/-! ### GF(p²) (R191 to R201) -/

/-- V100: `F2ADD E0, E1, E2`. -/
theorem test_f2add_V100 :
    runs 0x40008800 (start [(2, 0x3), (3, P - 1), (4, 0x4), (5, 0x2)] []) [(0, 0x7), (1, 0x1)] [] = true := by
  decide +kernel

/-- V101: `F2SUB E0, E1, E2`. -/
theorem test_f2sub_V101 :
    runs 0x41008800 (start [(2, 0x3), (3, 0x0), (4, 0x4), (5, 0x2)] []) [(0, P - 1), (1, P - 2)] [] = true := by
  decide +kernel

/-- V103: `F2NEG E3, E3`. -/
theorem test_f2neg_V103 :
    runs 0x42318000 (start [(6, 0x0), (7, 0x1)] []) [(6, 0x0), (7, P - 1)] [] = true := by
  decide +kernel

/-- V105: `F2DIV2 E0, E1`. -/
theorem test_f2div2_V105 :
    runs 0x43008000 (start [(2, 0x2), (3, 0x1)] [])
      [(0, 0x1),
       (1, 0x37F2EAA0FB8E0709484FCBDD6E3342B15A822E592BA404274C33EB75F43B6D4ACD8D09FBE63B71F64B42A4FC3C54775800000000000000000000000000000000000000000000000000000000000000000000000000000000000000000000)] [] = true := by
  decide +kernel

/-- V106: `F2COPY E2, E0`. -/
theorem test_f2copy_V106 :
    runs 0x44200000 (start [(0, A), (1, B)] []) [(4, A), (5, B)] [] = true := by
  decide +kernel

/-- V107: `F2ZERO E5`. -/
theorem test_f2zero_V107 :
    runs 0x45500000 (start [(10, A), (11, B)] []) [(10, 0x0), (11, 0x0)] [] = true := by
  decide +kernel

/-- V109: `F2TOMONT E1, E0`. -/
theorem test_f2tomont_V109 :
    runs 0x49100000 (start [(0, A), (1, B)] [])
      [(2, 0x1AB4163260355710D49DF6F6EC039588FFCE5CCE21BD5C96F652FBEBC5923C575ADF2BACE4F1CCA942FD7D59B8FF1AE3C24BE809C0FC71CC5E07E6FA09E1587D425A4B863B0FB5D44B8BFBE9A43186C907A0E7F89104EF1CF2EAE0E3F0F4),
       (3, 0x48AC8BD54BD034432BD44A0B851A52C9B68E22A8651728E67BABCCB6675246C9F05BA43E4517B6E037DD9F5FDF7F3C1E04E49DBEDD6C1FAFC12D493F8649688547B27F83DE7D87560789A9A1FF018DF4058AD7517AF65E92CB2AC3E6BCCA)] [] = true := by
  decide +kernel

/-- V111: `F2FROMMONT E1, E0`. -/
theorem test_f2frommont_V111 :
    runs 0x4A100000 (start [(0, 0x1AB4163260355710D49DF6F6EC039588FFCE5CCE21BD5C96F652FBEBC5923C575ADF2BACE4F1CCA942FD7D59B8FF1AE3C24BE809C0FC71CC5E07E6FA09E1587D425A4B863B0FB5D44B8BFBE9A43186C907A0E7F89104EF1CF2EAE0E3F0F4),
       (1, 0x48AC8BD54BD034432BD44A0B851A52C9B68E22A8651728E67BABCCB6675246C9F05BA43E4517B6E037DD9F5FDF7F3C1E04E49DBEDD6C1FAFC12D493F8649688547B27F83DE7D87560789A9A1FF018DF4058AD7517AF65E92CB2AC3E6BCCA)] [])
      [(2, A), (3, B)] [] = true := by
  decide +kernel

/-- V113: `F2SQR E0, E1`. -/
theorem test_f2sqr_V113 :
    runs 0x46008000 (start [(2, A), (3, B)] [])
      [(0, 0x569B0E3A1D9900EF53EC3C3BDD56959F472E00FEB1CCD04C1A022E9BBB7D9D14245D22C8355DD6EE26E1E9E72DF74B0FBD365B3D99EECE6C12BFC07359E87628A3E2EE828DD4C04A503DC88369120016EA760F1B9BA82023AC379EEF0578),
       (1, 0x23C0E73D81F8B1709D717DB942171D96B51150609B92606EC283FF5B047460FCF8BA680075B70ACD22314867C5FDF97EA18ADB057FAEBD4A1D53CE2DB71218D077861A77B3DC9885B4352060BBC8B4D6F65C1A32D16F4CC52B5D60B2958A)] [] = true := by
  decide +kernel

/-- V115: `F2SQR E1, E1`. -/
theorem test_f2sqr_V115 :
    runs 0x46108000 (start [(2, 0x0),
       (3, 0x2D5B24BCE5E210F7926C7512C7E94CA4B439D2076956C89DB7B2AC5C4E2E697797BF3F4F24D05527B1E4375C6C668310000000000000000000000000000000000000000000000000000000000000000000000000000000000000000249AD)] [])
      [(2, 0x428AB0851139FD1AFE3322A8147D38BE00CA8AAAEDF13FB0E0B52A8F9A48711E035AD4A8A7A68EC4E4A1129C0C426B9FFFFFFFFFFFFFFFFFFFFFFFFFFFFFFFFFFFFFFFFFFFFFFFFFFFFFFFFFFFFFFFFFFFFFFFFFFFFFFFFFFFFFFFFDB652),
       (3, 0x0)] [] = true := by
  decide +kernel

/-- V117: `F2MUL E0, E1, E2`. -/
theorem test_f2mul_V117 :
    runs 0x47008800 (start [(2, 0x2D5B24BCE5E210F7926C7512C7E94CA4B439D2076956C89DB7B2AC5C4E2E697797BF3F4F24D05527B1E4375C6C668310000000000000000000000000000000000000000000000000000000000000000000000000000000000000000249AD),
       (3, 0x5AB64979CBC421EF24D8EA258FD299496873A40ED2AD913B6F6558B89C5CD2EF2F7E7E9E49A0AA4F63C86EB8D8CD06200000000000000000000000000000000000000000000000000000000000000000000000000000000000000004935A),
       (4, 0x182B98F4BA8A24D426A5C77D7B55608B67A91963E4BC518A8EB02E29021461D12C23A9F5A1FA1B8A7F275C1CCC8A9A800000000000000000000000000000000000000000000000000000000000000000000000000000000000000006DD08),
       (5, 0x4586BDB1A06C35CBB9123C90433EAD301BE2EB6B4E131A284662DA855042CB48C3E2E944C6CA70B2310B937938F11D90000000000000000000000000000000000000000000000000000000000000000000000000000000000000000926B5)] [])
      [(0, 0x6CE9C81567E9D561D5C07DD2ADA510F099EBFBF1F7262DD732BA26F6327C806ADA91FF5BAD5301FF4A1AC91B4BFA3CBFFFFFFFFFFFFFFFFFFFFFFFFFFFFFFFFFFFFFFFFFFFFFFFFFFFFFFFFFFFFFFFFFFFFFFFFFFFFFFFFFFFFFFFF48F9C),
       (1, 0x5F81A591E64716175BE33D05D82E8E43630C180C043B4EECB5B5FEB6BF4B455811029383E47C3DA98D501BA595D63E00000000000000000000000000000000000000000000000000000000000000000000000000000000000000016E0C6)] [] = true := by
  decide +kernel

/-- V123: `F2MUL E0, E1, E2`. -/
theorem test_f2mul_V123 :
    runs 0x47008800 (start [(2, P - 1), (3, P - 1), (4, P - 1), (5, P - 1)] [])
      [(0, 0x0),
       (1, 0x20D2F6C70FD6A799B780C5D618C3E2314181C82F44BA870413CD9C932C2BF050B0F8A20B079E53D7C9A9300B8B8C5EEBE849F1BE86F9F4842AA9FC5C93950B756F20F2D9F09A9AE86334D937946EAA35D3EBEBED5FE76FEE6371365B487E)] [] = true := by
  decide +kernel

/-- V124: `F2INV E0, E1`. -/
theorem test_f2inv_V124 :
    runs 0x48008000 (start [(2, 0x2D5B24BCE5E210F7926C7512C7E94CA4B439D2076956C89DB7B2AC5C4E2E697797BF3F4F24D05527B1E4375C6C668310000000000000000000000000000000000000000000000000000000000000000000000000000000000000000249AD),
       (3, 0x5AB64979CBC421EF24D8EA258FD299496873A40ED2AD913B6F6558B89C5CD2EF2F7E7E9E49A0AA4F63C86EB8D8CD06200000000000000000000000000000000000000000000000000000000000000000000000000000000000000004935A)] [])
      [(0, 0x35D48FD9C4053C38F0BBEDB4E68ADE486C73B57C04C7C50BC81A120A6C9F3953C2CA47D9592605CCF962F575DF8B467CCCCCCCCCCCCCCCCCCCCCCCCCCCCCCCCCCCCCCCCCCCCCCCCCCCCCCCCCCCCCCCCCCCCCCCCCCCCCCCCCCCCCCCCD41EF),
       (1, 0x43CB58E6F1195A0AF27BC510F50C8D1DC1CF1BA4DB87E370833B2D70F3867EE158584451A2AD852A3BF5F0CB99261B666666666666666666666666666666666666666666666666666666666666666666666666666666666666666657C21)] [] = true := by
  decide +kernel

/-- V126: `F2INV E1, E1`. -/
theorem test_f2inv_V126 :
    runs 0x48108000 (start [(2, 0x0),
       (3, 0x2D5B24BCE5E210F7926C7512C7E94CA4B439D2076956C89DB7B2AC5C4E2E697797BF3F4F24D05527B1E4375C6C668310000000000000000000000000000000000000000000000000000000000000000000000000000000000000000249AD)] [])
      [(2, 0x0),
       (3, 0x428AB0851139FD1AFE3322A8147D38BE00CA8AAAEDF13FB0E0B52A8F9A48711E035AD4A8A7A68EC4E4A1129C0C426B9FFFFFFFFFFFFFFFFFFFFFFFFFFFFFFFFFFFFFFFFFFFFFFFFFFFFFFFFFFFFFFFFFFFFFFFFFFFFFFFFFFFFFFFFDB652)] [] = true := by
  decide +kernel

/-! ### Select and swap (R222 to R227) -/

/-- V131: `SELF F0, F1, F2, D7`. -/
theorem test_self_V131 :
    runs 0x500045C0 (start [(0, 0x3), (1, 0x5), (2, 0x9)] [(7, 0x0)]) [(0, 0x5)] [] = true := by
  decide +kernel

/-- V132: `SELF F1, F1, F2, D0`. -/
theorem test_self_V132 :
    runs 0x50084400 (start [(1, A), (2, B)] [(0, 0xFFFFFFFFFFFFFFFF)]) [(1, B), (2, B)] [] = true := by
  decide +kernel

/-- V134: `SELF2 E0, E1, E2, D0`. -/
theorem test_self2_V134 :
    runs 0x51008800 (start [(2, 0x1), (3, 0x2), (4, 0x3), (5, 0x4)] [(0, 0x0)]) [(0, 0x1), (1, 0x2)] [] = true := by
  decide +kernel

/-- V135: `SELF2 E0, E1, E2, D0`. -/
theorem test_self2_V135 :
    runs 0x51008800 (start [(2, 0x1), (3, 0x2), (4, 0x3), (5, 0x4)] [(0, 0xFFFFFFFFFFFFFFFF)])
      [(0, 0x3), (1, 0x4)] [] = true := by
  decide +kernel

/-- V136: `SELPT Q0, Q1, Q2, D1`. -/
theorem test_selpt_V136 :
    runs 0x52011040 (start [(4, 0x1),
       (5, 0x2),
       (6, 0x3),
       (7, 0x4),
       (8, 0x5),
       (9, 0x6),
       (10, 0x7),
       (11, 0x8)] [(1, 0xFFFFFFFFFFFFFFFF)])
      [(0, 0x5), (1, 0x6), (2, 0x7), (3, 0x8)] [] = true := by
  decide +kernel

/-- V137: `SELPT Q0, Q1, Q2, D1`. -/
theorem test_selpt_V137 :
    runs 0x52011040 (start [(4, 0x1), (5, 0x2), (6, 0x3), (7, 0x4), (8, 0x5), (9, 0x6), (10, 0x7), (11, 0x8)] [(1, 0x0)])
      [(0, 0x1), (1, 0x2), (2, 0x3), (3, 0x4)] [] = true := by
  decide +kernel

/-- V138: `SWAPPB B0, B1, D3`. -/
theorem test_swappb_V138 :
    runs 0x540080C0 (start [(0, 0x1), (1, 0x2), (2, 0x3), (3, 0x4)] [(3, 0xFFFFFFFFFFFFFFFF)])
      [(0, 0x3), (1, 0x4), (2, 0x1), (3, 0x2)] [] = true := by
  decide +kernel

/-- V140: `SWAPPB B0, B0, D3`. -/
theorem test_swappb_V140 :
    runs 0x540000C0 (start [(0, 0x1), (1, 0x2)] [(3, 0xFFFFFFFFFFFFFFFF)]) [(0, 0x1), (1, 0x2)] [] = true := by
  decide +kernel

/-- V141: `SWAPPT Q0, Q1, D3`. -/
theorem test_swappt_V141 :
    runs 0x550100C0 (start [(0, 0x1),
       (1, 0x2),
       (2, 0x3),
       (3, 0x4),
       (4, 0x5),
       (5, 0x6),
       (6, 0x7),
       (7, 0x8)] [(3, 0xFFFFFFFFFFFFFFFF)])
      [(0, 0x5), (1, 0x6), (2, 0x7), (3, 0x8), (4, 0x1), (5, 0x2), (6, 0x3), (7, 0x4)] [] = true := by
  decide +kernel

/-- V142: `SWAPPT Q0, Q1, D3`. -/
theorem test_swappt_V142 :
    runs 0x550100C0 (start [(0, 0x1), (1, 0x2), (2, 0x3), (3, 0x4), (4, 0x5), (5, 0x6), (6, 0x7), (7, 0x8)] [(3, 0x0)])
      [(0, 0x1), (1, 0x2), (2, 0x3), (3, 0x4), (4, 0x5), (5, 0x6), (6, 0x7), (7, 0x8)] [] = true := by
  decide +kernel

/-! ### An unmet precondition (V150 to V154, R18, R246) -/

/-- V150, V153: `FPADD` of P and 1, and `SELF` under a boolean: the sources stay as they were and STATUS stays 0. -/
theorem test_unmet_preconditions :
    runs 0x30184400 (start [(1, P), (2, 1)] []) [(1, P), (2, 1)] [] = true ∧
      runs 0x50004400 (start [(1, 5), (2, 9)] [(0, 1)]) [(1, 5), (2, 9)] [(0, 1)] = true := by
  decide +kernel

/-- V150 with DEBUG_CHECKS true: STATUS 0x41, ERRINFO the command word, no register written. -/
theorem test_debug_checks_V150 :
    faults { start [(1, P), (2, 1)] [] with debugChecks := true } (.write 0x0300 0x30184400) 0x41 0x30184400 = true := by
  decide +kernel

/-- V154 with DEBUG_CHECKS true. -/
theorem test_debug_checks_V154 :
    faults { start [(1, 2), (2, 3)] [(0, 0xFFFFFFFF)] with debugChecks := true } (.write 0x0300 0x54008000)
      0x41 0x54008000 = true := by
  decide +kernel

/-! ### Malformed CMD writes (X2 to X17) -/

theorem test_illegal_opcodes :
    ([0x0, 0xFFFFFFFF, 0x19000000, 0x53000000] : List Digit).all (fun v =>
      faults (start [(1, 5), (2, 7)] []) (.write 0x0300 v) 0x11 v) = true := by
  decide +kernel

theorem test_illegal_operands :
    ([0x3A184401, 0x3A184440, 0x3B104200, 0x11480040, 0x1609C080, 0x47084400, 0x52110000] : List Digit).all (fun v =>
      faults (start [(1, 5), (2, 7)] []) (.write 0x0300 v) 0x21 v) = true := by
  decide +kernel

/-- X16 and X17: bits 63:32 are not zero; INFO is the low half. -/
theorem test_upper_half_of_CMD :
    faults (start [(1, 5), (2, 7)] []) (.write 0x0300 0x13A184400) 0x21 0x3A184400 = true ∧
      faults (start [(1, 5), (2, 7)] []) (.write 0x0300 0xFFFFFFFF00000000) 0x21 0x0 = true := by
  decide +kernel

/-- X12, X14 and X15: words at the edges of the legal operands. -/
theorem test_legal_words :
    decode 0x47100C00 = .ok (.f2mul 2 0 6) ∧ decode 0x52211040 = .ok (.selpt 4 4 8 1) ∧
      decode 0x13FFFFC0 = .ok (.mpsub 31 31 31 7) := by
  decide

/-! ### The host port (H1 to H26) -/

/-- H1 and H2: a digit is written and read back. -/
theorem test_F_window :
    answers (step (facing State.reset (.write 0x0013 0xAAAA))) (fun t =>
      t.readF 1 == felm (0xAAAA * 2 ^ 192) && returns t 0x0013 0xAAAA && t.reply == none) = true := by
  decide +kernel

/-- H7 and H8. -/
theorem test_D_window :
    answers (step (facing State.reset (.write 0x0207 0xFFFFFFFFFFFFFFFF))) (fun t =>
      t.readD 7 == 0xFFFFFFFFFFFFFFFF && returns t 0x0207 0xFFFFFFFFFFFFFFFF) = true := by
  decide +kernel

/-- H3 to H6 and H13: ID, P.d[5], P1.d[5], R2.d[0] and P.d[0]. -/
theorem test_constant_reads :
    returns State.reset 0x0304 0x10820400C = true ∧ returns State.reset 0x0405 0xEEAFFFFFFFFFFFFF = true ∧
      returns State.reset 0x0415 0xEEB0000000000000 = true ∧ returns State.reset 0x0420 0x233046449DAD4058 = true ∧
      returns faulted 0x0400 0xFFFFFFFFFFFFFFFF = true := by
  decide +kernel

/-- H9: a hole of the F window; H24: CMD is write-only. -/
theorem test_refused_reads :
    faults State.reset (.read 0x001C) 0x31 0x1C = true ∧ returns State.reset 0x001C 0 = true ∧
      faults State.reset (.read 0x0300) 0x31 0x300 = true := by
  decide +kernel

/-- H10 and H11: STATUS and ERRINFO are read in the fault state. -/
theorem test_fault_state_reads :
    returns faulted 0x0301 0x31 = true ∧ returns faulted 0x0302 0x1C = true := by
  decide +kernel

/-- H12, H14, H15 and H18: in the fault state a refused write records nothing, a CMD write of an illegal word and of
`MPCOPY F2, F1` is discarded, and a CTRL write with bit 0 = 0 does nothing. -/
theorem test_fault_state_writes :
    faults faulted (.write 0x0400 0x5) 0x31 0x1C = true ∧ faults faulted (.write 0x0300 0x0) 0x31 0x1C = true ∧
      faults faulted (.write 0x0300 0x10104000) 0x31 0x1C = true ∧
      faults faulted (.write 0x0303 0x0) 0x31 0x1C = true := by
  decide +kernel

/-- H20 to H23: a CTRL reset clears F, D, STATUS and ERRINFO. -/
theorem test_ctrl_reset :
    answers (step (facing faulted (.write 0x0303 0x1))) (fun t =>
      holds [(1, 0)] [(0, 0)] t && t.status == 0 && t.errinfo == 0) = true := by
  decide +kernel

/-! ### The constants (R28, R29, R172 to R174) -/

theorem test_P : P = 2 ^ 372 * 3 ^ 239 - 1 := by decide +kernel

/-- ONE_M and R2 of spec/95_test_vectors.md section 0. -/
theorem test_R_residues :
    oneM = 0x2D5B24BCE5E210F7926C7512C7E94CA4B439D2076956C89DB7B2AC5C4E2E697797BF3F4F24D05527B1E4375C6C668310000000000000000000000000000000000000000000000000000000000000000000000000000000000000000249AD ∧
      R2 = 0x41AD830F1F3506C905261132294B5673ED2C6A6AC82A441DD47B735F9C90B56C383CCDB607C5A24F4D80C1048E181F735F1F1EE7FC814932CCA8904F8751F40BFE2082A2E7065E36941472E3FD8EDB010161A696452A233046449DAD4058 := by
  decide +kernel

/-- The lowest digits of HALF are 0 and its digit 5 is 0x7758000000000000 (95_test_vectors.md section 0). -/
theorem test_half : (P + 1) / 2 % 2 ^ 320 = 0 ∧ (P + 1) / 2 / 2 ^ 320 % 2 ^ 64 = 0x7758000000000000 := by
  decide +kernel

/-- How many steps of the schedule have each burst length (96_derived_vectors.md, chain checks). -/
theorem test_chain_bursts :
    [2, 5, 6, 7, 8, 9, 10].map (fun b => (chain.map Prod.fst).count b) = [1, 2, 88, 9, 11, 1, 5] := by
  decide +kernel

/-- Every mask of the opcode map is the one R83 gives for its format and group size. -/
theorem test_masks : opTable.all (fun row => row.mask == maskOf row.format row.group) = true := by decide +kernel

/-! ### Witnesses of the statements' hypotheses -/

/-- An answer compared with one state is that next state. -/
theorem of_answers {r : Result} {t : State} (h : answers r (fun u => u == t) = true) : r = .next t := by
  cases r <;> simp_all [answers]

theorem witness_DecodeOfEncode :
    (Instr.selpt 28 0 4 7).wellFormed = true ∧ (Instr.mpsub 31 31 31 7).wellFormed = true := by decide

theorem witness_EncodeOfDecode : decode 0x52211040 = .ok (.selpt 4 4 8 1) := by decide

theorem witness_StepRunsTheDecodedCommand :
    let w : Command := 0x3A184400
    let s := facing (start [(1, A), (2, B)] []) (.write 0x0300 (w.setWidth 64))
    s.pending = .write 0x0300 (w.setWidth 64) :: [] ∧ s.err = false ∧ decode w = .ok (.fpmul 3 1 2) := by
  decide +kernel

/-- The three clauses: the least value with a non-zero upper half; the greatest value without one, whose opcode is of no
row; a word with one must-be-zero bit set. -/
theorem witness_MalformedCommandRaisesItsCause :
    (∀ v : Digit, (facing State.reset (.write 0x0300 v)).pending = .write 0x0300 v :: []) ∧ State.reset.err = false ∧
      2 ^ 32 ≤ (0x100000000 : Digit).toNat ∧
      ((0xFFFFFFFF : Digit).toNat < 2 ^ 32 ∧ ∀ row ∈ opTable, row.op ≠ fieldOp ((0xFFFFFFFF : Digit).setWidth 32)) ∧
      ((0x3A184401 : Digit).toNat < 2 ^ 32 ∧ ∃ row ∈ opTable, row.op = fieldOp ((0x3A184401 : Digit).setWidth 32) ∧
        (0x3A184401 : Digit).setWidth 32 &&& row.mask ≠ row.pattern) := by
  refine ⟨fun _ => rfl, ?_, ?_, ?_, ?_⟩ <;> decide +kernel

theorem witness_CommandIsDiscardedWhileErr :
    let s := facing faulted (.write 0x0300 0x10104000)
    s.pending = .write 0x0300 0x10104000 :: [] ∧ s.err = true := by
  decide +kernel

/-- One step keeps the record, another is a reset. -/
theorem witness_OnlyResetLeavesTheFaultState :
    faulted.err = true ∧
      step (facing faulted (.read 0x0301)) = .next { faulted with reply := some 0x31 } ∧
      step (facing faulted (.write 0x0303 1)) = .next State.reset := by
  refine ⟨rfl, of_answers ?_, of_answers ?_⟩ <;> decide +kernel

/-- An event pending, none pending, and a step that answers a next state. -/
theorem witness_StepTakesOneEvent :
    (facing State.reset (.read 0x0304)).pending = .read 0x0304 :: [] ∧ State.reset.pending = [] ∧
      step (facing State.reset (.read 0x0304)) = .next { State.reset with reply := some 0x10820400C } := by
  refine ⟨rfl, rfl, of_answers ?_⟩
  decide +kernel

/-- The least and the greatest address of each range, for reads and for writes. -/
theorem witness_RefusedAccess :
    (∀ e, (facing State.reset e).pending = e :: []) ∧
    ([0x000C, 0x000F, 0x01FC, 0x01FF] : List Addr).all (fun a => a.toNat < 0x0200 ∧ 12 ≤ a.toNat % 16) = true ∧
    ([0x0208, 0x02FF] : List Addr).all (fun a => 0x0208 ≤ a.toNat ∧ a.toNat ≤ 0x02FF) = true ∧
    ([0x0305, 0x03FF] : List Addr).all (fun a => 0x0305 ≤ a.toNat ∧ a.toNat ≤ 0x03FF) = true ∧
    ([0x040C, 0x040F] : List Addr).all (fun a => 0x040C ≤ a.toNat ∧ a.toNat ≤ 0x040F) = true ∧
    ([0x041C, 0x041F] : List Addr).all (fun a => 0x041C ≤ a.toNat ∧ a.toNat ≤ 0x041F) = true ∧
    ([0x042C, 0xFFFF] : List Addr).all (fun a => 0x042C ≤ a.toNat) = true ∧
    ((0x0300 : Addr).toNat = 0x0300 ∧ (0x0303 : Addr).toNat = 0x0303) ∧
    ((0x0301 : Addr).toNat = 0x0301 ∧ (0x0302 : Addr).toNat = 0x0302 ∧ (0x0304 : Addr).toNat = 0x0304) ∧
    ([0x0400, 0x040B] : List Addr).all (fun a => 0x0400 ≤ a.toNat ∧ a.toNat ≤ 0x040B) = true ∧
    ([0x0410, 0x041B] : List Addr).all (fun a => 0x0410 ≤ a.toNat ∧ a.toNat ≤ 0x041B) = true ∧
    ([0x0420, 0x042B] : List Addr).all (fun a => 0x0420 ≤ a.toNat ∧ a.toNat ≤ 0x042B) = true := by
  refine ⟨fun _ => rfl, ?_⟩
  decide +kernel

/-- At each of those addresses a read or a write is refused, and at the neighbours that are mapped it is not. -/
theorem test_refused_boundaries :
    ([0x000C, 0x000F, 0x01FC, 0x01FF, 0x0208, 0x02FF, 0x0305, 0x03FF, 0x040C, 0x040F, 0x041C, 0x041F, 0x042C, 0xFFFF,
        0x0300, 0x0303] : List Addr).all (fun a => faults State.reset (.read a) 0x31 (a.setWidth 64)) = true ∧
    ([0x000C, 0x000F, 0x01FC, 0x01FF, 0x0208, 0x02FF, 0x0305, 0x03FF, 0x040C, 0x040F, 0x041C, 0x041F, 0x042C, 0xFFFF,
        0x0301, 0x0302, 0x0304, 0x0400, 0x040B, 0x0410, 0x041B, 0x0420, 0x042B] : List Addr).all
      (fun a => faults State.reset (.write a 1) 0x31 (a.setWidth 64)) = true ∧
    ([0x000B, 0x0010, 0x01FB, 0x0200, 0x0207, 0x0301, 0x0302, 0x0304, 0x0400, 0x040B, 0x0410, 0x041B, 0x0420,
        0x042B] : List Addr).all (fun a => faults State.reset (.read a) 0 0) = true := by
  decide +kernel

/-- The first and the last digit of the window, read and written, and the last digit by the addresses of its groups. -/
theorem witness_FWindow :
    (facing State.reset (.read 0x0000)).pending = .read (BitVec.ofNat 16 (16 * (0 : FReg).val + (0 : Fin 12).val)) :: [] ∧
    (facing State.reset (.read 0x01FB)).pending =
      .read (BitVec.ofNat 16 (16 * (31 : FReg).val + (11 : Fin 12).val)) :: [] ∧
    (facing State.reset (.write 0x0000 1)).pending =
      .write (BitVec.ofNat 16 (16 * (0 : FReg).val + (0 : Fin 12).val)) 1 :: [] ∧
    (facing State.reset (.write 0x01FB 1)).pending =
      .write (BitVec.ofNat 16 (16 * (31 : FReg).val + (11 : Fin 12).val)) 1 :: [] ∧ (10 : Fin 12) ≠ 11 ∧
    (facing State.reset (.read 0x01FB)).pending =
      .read (BitVec.ofNat 16 (32 * (15 : Fin 16).val + 16 * (1 : Fin 2).val + (11 : Fin 12).val)) :: [] ∧
    (facing State.reset (.write 0x01FB 1)).pending =
      .write (BitVec.ofNat 16 (32 * (15 : Fin 16).val + 16 * (1 : Fin 2).val + (11 : Fin 12).val)) 1 :: [] ∧
    (facing State.reset (.read 0x01FB)).pending =
      .read (BitVec.ofNat 16 (64 * (7 : Fin 8).val + 16 * (3 : Fin 4).val + (11 : Fin 12).val)) :: [] ∧
    (facing State.reset (.write 0x01FB 1)).pending =
      .write (BitVec.ofNat 16 (64 * (7 : Fin 8).val + 16 * (3 : Fin 4).val + (11 : Fin 12).val)) 1 :: [] := by
  decide +kernel

theorem witness_DWindow :
    (facing State.reset (.read 0x0200)).pending = .read (BitVec.ofNat 16 (0x0200 + (0 : DReg).val)) :: [] ∧
    (facing State.reset (.read 0x0207)).pending = .read (BitVec.ofNat 16 (0x0200 + (7 : DReg).val)) :: [] ∧
    (facing State.reset (.write 0x0200 1)).pending = .write (BitVec.ofNat 16 (0x0200 + (0 : DReg).val)) 1 :: [] ∧
    (facing State.reset (.write 0x0207 1)).pending = .write (BitVec.ofNat 16 (0x0200 + (7 : DReg).val)) 1 :: [] := by
  decide +kernel

theorem witness_ControlRegisterReads :
    (facing faulted (.read 0x0301)).pending = .read 0x0301 :: [] ∧
    (facing faulted (.read 0x0302)).pending = .read 0x0302 :: [] ∧
    (facing faulted (.read 0x0304)).pending = .read 0x0304 :: [] := by
  decide +kernel

/-- The first and the last digit of each constant. -/
theorem witness_ConstantsWindow :
    ∀ base ∈ [0x0400, 0x0410, 0x0420], ∀ j ∈ ([0, 11] : List (Fin 12)),
      (facing State.reset (.read (BitVec.ofNat 16 (base + j.val)))).pending =
        .read (BitVec.ofNat 16 (base + j.val)) :: [] := by
  decide +kernel

theorem witness_ResetsClearTheState :
    (facing faulted .resetInput).pending = .resetInput :: [] ∧ (facing faulted .powerOn).pending = .powerOn :: [] ∧
    ((facing faulted (.write 0x0303 0xFFFFFFFFFFFFFFFF)).pending = .write 0x0303 0xFFFFFFFFFFFFFFFF :: [] ∧
      (0xFFFFFFFFFFFFFFFF : Digit).toNat % 2 = 1) ∧
    ((facing faulted (.write 0x0303 0xFFFFFFFFFFFFFFFE)).pending = .write 0x0303 0xFFFFFFFFFFFFFFFE :: [] ∧
      (0xFFFFFFFFFFFFFFFE : Digit).toNat % 2 = 0) := by
  decide +kernel

/-- A state with a recorded fault and one without, and a step from each. -/
theorem witness_FaultRecordIsKept :
    FaultRecord (facing faulted (.read 0x0301)) ∧
      step (facing faulted (.read 0x0301)) = .next { faulted with reply := some 0x31 } ∧
      FaultRecord (facing State.reset (.read 0x001C)) ∧
      step (facing State.reset (.read 0x001C)) =
        .next { State.reset with err := true, cause := 3, errinfo := 0x1C, reply := some 0 } := by
  refine ⟨⟨fun h => absurd h (by decide), fun _ => .inr (.inr (.inl ⟨rfl, 0x1C, rfl, by decide, by decide⟩))⟩,
    of_answers (by decide +kernel), ⟨fun _ => ⟨rfl, rfl⟩, fun h => absurd h (by decide)⟩, of_answers (by decide +kernel)⟩

/-- One command of each kind of precondition. -/
theorem witness_ReadyCommandCompletesInItsFrame :
    ((Instr.mpaddw 0 2 30 7).wellFormed = true ∧ ready (.mpaddw 0 2 30 7) State.reset = true) ∧
    ((Instr.f2mul 0 2 4).wellFormed = true ∧ ready (.f2mul 0 2 4) (start [(2, P - 1), (5, P - 1)] []) = true) ∧
    ((Instr.swappt 0 28 7).wellFormed = true ∧
      ready (.swappt 0 28 7) (start [] [(7, 0xFFFFFFFFFFFFFFFF)]) = true) := by
  decide +kernel

/-- A source equal to P, and a D register that holds a boolean. -/
theorem witness_UnmetPreconditionLeavesFreeValues :
    ((Instr.f2sqr 0 2).wellFormed = true ∧ ready (.f2sqr 0 2) (start [(2, 1), (3, P)] []) = false ∧
      (start [(2, 1), (3, P)] []).debugChecks = false) ∧
    ((Instr.swappb 2 2 0).wellFormed = true ∧ ready (.swappb 2 2 0) (start [] [(0, 1)]) = false ∧
      (start [] [(0, 1)]).debugChecks = false) := by
  decide +kernel

theorem witness_UnmetPreconditionFaultsUnderDebugChecks :
    let s : State := { start [(1, P)] [(0, 1)] with debugChecks := true }
    ((Instr.fpadd 3 1 2).wellFormed = true ∧ ready (.fpadd 3 1 2) s = false) ∧
      ((Instr.self 0 1 2 0).wellFormed = true ∧ ready (.self 0 1 2 0) s = false) ∧
      s.debugChecks = true ∧ s.err = false := by
  decide +kernel

/-- Two states that differ outside the sources. -/
theorem witness_ResultsDependOnTheSourcesAlone :
    let i : Instr := .fpmul 3 1 2
    let s₁ := start [(1, A), (2, B)] []
    let s₂ := start [(1, A), (2, B), (3, P), (4, 9)] [(0, 1)]
    i.wellFormed = true ∧ ready i s₁ = true ∧ (∀ r ∈ (footprint i).readsF, s₁.readF r = s₂.readF r) ∧
      (∀ k ∈ (footprint i).readsD, s₁.readD k = s₂.readD k) ∧ s₁ ≠ s₂ := by
  decide +kernel

theorem witness_FieldResultsStayBelowP :
    let i : Instr := .fpadd 3 1 2
    i.wellFormed = true ∧ (footprint i).need = .belowP ∧ ready i (start [(1, P - 1), (2, P - 1)] []) = true := by
  decide +kernel

theorem witness_BaseFieldOperations :
    let s := start [(1, P - 1)] []
    s.num 1 < P ∧ s.num 2 < P ∧ s.num 1 = P - 1 ∧ s.num 2 = 0 := by
  decide +kernel

theorem witness_MontgomeryOperations :
    let s := start [(1, P - 1), (2, P - 1)] []
    s.num 1 < P ∧ s.num 2 < P ∧ s.num 1 = P - 1 := by
  decide +kernel

theorem witness_MontgomeryRoundTrip : P - 1 < P ∧ 0 < P := by decide +kernel

/-- The two clauses: a non-zero operand and zero. -/
theorem witness_InversionInverts :
    let s := start [(1, P - 1)] []
    (s.num 1 < P ∧ s.num 1 ≠ 0) ∧ (s.num 2 < P ∧ s.num 2 = 0) := by
  decide +kernel

theorem witness_ComponentWiseCommands :
    let s := start [(2, P - 1), (4, P - 1), (5, P - 1)] []
    s.num 2 < P ∧ s.num (2 + 1) < P ∧ s.num 4 < P ∧ s.num (4 + 1) < P ∧ s.num 2 = P - 1 ∧ s.num 3 = 0 := by
  decide +kernel

theorem witness_KaratsubaMultiplies :
    let s := start [(2, P - 1), (3, P - 1), (4, P - 1), (5, P - 1)] []
    s.num 2 < P ∧ s.num (2 + 1) < P ∧ s.num 4 < P ∧ s.num (4 + 1) < P ∧ s.num 2 = P - 1 := by
  decide +kernel

theorem witness_SquarerSquares :
    let s := start [(2, 0), (3, P - 1)] []
    s.num 2 < P ∧ s.num (2 + 1) < P ∧ s.num 3 = P - 1 := by
  decide +kernel

/-- The two clauses: an element with one component zero, and (0, 0). -/
theorem witness_NormInverterInverts :
    let s := start [(3, P - 1)] []
    (s.num 2 < P ∧ s.num (2 + 1) < P ∧ (s.num 2 ≠ 0 ∨ s.num (2 + 1) ≠ 0)) ∧
      (s.num 4 < P ∧ s.num (4 + 1) < P ∧ s.num 4 = 0 ∧ s.num (4 + 1) = 0) := by
  decide +kernel

theorem witness_ExtensionFieldLaws :
    let a : Nat × Nat := (P - 1, 0)
    let b : Nat × Nat := (A, B)
    let c : Nat × Nat := (0, 0)
    a.1 < P ∧ a.2 < P ∧ b.1 < P ∧ b.2 < P ∧ c.1 < P ∧ c.2 < P ∧ a ≠ (0, 0) := by
  decide +kernel

/-- Both masks. -/
theorem witness_SelectTakesOneGroup :
    let s := start [] [(7, 0xFFFFFFFFFFFFFFFF)]
    s.readD 7 = (if true then 0xFFFFFFFFFFFFFFFF else 0) ∧ s.readD 0 = (if false then 0xFFFFFFFFFFFFFFFF else 0) := by
  decide +kernel

/-- Both masks, and groups of each size at both ends of the register file. -/
theorem witness_SwapExchangesTheGroups :
    let s := start [] [(7, 0xFFFFFFFFFFFFFFFF)]
    s.readD 7 = (if true then 0xFFFFFFFFFFFFFFFF else 0) ∧ s.readD 0 = (if false then 0xFFFFFFFFFFFFFFFF else 0) ∧
      ((0 : FReg).val % 2 = 0 ∧ (30 : FReg).val % 2 = 0) ∧ ((0 : FReg).val % 4 = 0 ∧ (28 : FReg).val % 4 = 0) := by
  decide +kernel

theorem witness_SwapIsAnInvolution :
    let s := start [] [(7, 0xFFFFFFFFFFFFFFFF)]
    ((Instr.swappb 0 30 7).wellFormed = true ∧ s.readD 7 = 0xFFFFFFFFFFFFFFFF) ∧
      ((Instr.swappt 0 28 0).wellFormed = true ∧ s.readD 0 = 0) := by
  decide +kernel

end Sys2Proof.Tests
end

section
/-! SUPPORT. Every command, said once: either it has no precondition and writes inside its footprint, or it ends as
`State.complete` ends it, on its own precondition and its own destinations. From it the claims of spec/00_scope.md
R16 to R18 about all 43 commands. -/

namespace Sys2Proof.Machine

variable {i : Instr} {s t : State}

/-! ### Frames of the writes commands end with -/

/-- A write to D[k] after writes to F registers only. -/
theorem SameExcept.writeD {fs : List FReg} (h : SameExcept fs [] s t) (k : DReg) (v : Digit) :
    SameExcept fs [k] s (t.writeD k v) :=
  (h.mono (fun _ hr => hr) (by simp)).trans ((sameExcept_writeD t k v).mono (by simp) (fun _ hk => hk))

theorem sameExcept_writeFs_zip (s : State) (dests : List FReg) (results : List Felm) :
    SameExcept dests [] s (s.writeFs (dests.zip results)) := by
  refine (sameExcept_writeFs s (dests.zip results)).mono (fun r hr => ?_) (by simp)
  obtain ⟨p, hp, rfl⟩ := List.mem_map.1 hr
  exact (List.of_mem_zip hp).1

/-! ### The precondition of a command -/

theorem ready_of_need_nothing (h : (footprint i).need = .nothing) : ready i s = true := by
  simp [ready, h]

theorem ready_of_need_mask {dd : DReg} (hn : (footprint i).need = .mask) (hd : (footprint i).readsD = [dd]) :
    ready i s = validMask (s.readD dd) := by
  simp [ready, hn, hd]

/-! ### What a command does -/

/-- The command answers a next state inside its footprint, and draws no free value. -/
def RunsInFrame (i : Instr) (s : State) : Prop :=
  ∃ t, exec i s = .next t ∧ SameExcept (footprint i).writesF (footprint i).writesD s t ∧ t.draws = s.draws

/-- The command ends as `State.complete` ends it: on its own precondition, with its own destinations (R18, R246). -/
def EndsChecked (i : Instr) (s : State) : Prop :=
  ∃ results, exec i s = s.complete i (ready i s) (footprint i).writesF results

theorem EndsChecked.of_complete {pre : Bool} {results : List Felm} (hr : ready i s = pre)
    (he : exec i s = s.complete i pre (footprint i).writesF results) : EndsChecked i s :=
  ⟨results, hr ▸ he⟩

/-- What a command can do, by the kind of its precondition: without one it runs in its frame, with one it ends
checked. -/
theorem exec_cases (i : Instr) (s : State) :
    ((footprint i).need = .nothing ∧ RunsInFrame i s) ∨
    ((footprint i).need ≠ .nothing ∧ EndsChecked i s) := by
  cases i with
  | mpcopy | mpzero | mpshr1 | mpshl1 => exact .inl ⟨rfl, _, rfl, sameExcept_writeF _ _ _, rfl⟩
  | mpadd | mpsub => exact .inl ⟨rfl, _, rfl, (sameExcept_writeF _ _ _).writeD _ _, rfl⟩
  | mpiszero | mpiseven | mpislt | mpiszerow | mpisevenw | mpisltw =>
    exact .inl ⟨rfl, _, rfl, sameExcept_writeD _ _ _, rfl⟩
  | mpcopyw | mpzerow | mpshr1w | mpshl1w =>
    exact .inl ⟨rfl, _, rfl, State.sameExcept_writeW _ _ _, State.writeW_draws _ _ _⟩
  | mpaddw | mpsubw =>
    exact .inl ⟨rfl, _, rfl, (State.sameExcept_writeW _ _ _).writeD _ _,
      (State.writeD_draws _ _ _).trans (State.writeW_draws _ _ _)⟩
  | f2copy | f2zero => exact .inl ⟨rfl, _, rfl, sameExcept_writeFs_zip _ _ _, State.writeFs_draws _ _⟩
  | fpadd | fpsub | fpneg | fpdiv2 | fptomont | fpfrommont | fpmul | fpsqr | fpinv
  | f2add | f2sub | f2neg | f2div2 | f2sqr | f2mul | f2inv | f2tomont | f2frommont =>
    exact .inr ⟨nofun, .of_complete rfl rfl⟩
  | self | self2 | selpt | swappb | swappt =>
    exact .inr ⟨nofun, .of_complete (ready_of_need_mask rfl rfl) rfl⟩

/-- A command whose precondition holds completes with its results: it writes its own destinations only. -/
theorem EndsChecked.runsInFrame (h : EndsChecked i s) (hr : ready i s = true) : RunsInFrame i s := by
  obtain ⟨results, he⟩ := h
  rw [State.complete_of_pre hr] at he
  exact ⟨_, he, (sameExcept_writeFs_zip s _ _).mono (fun _ hm => hm) (by simp), State.writeFs_draws _ _⟩

/-- A command whose precondition fails draws a free value for each of its destinations (DEBUG_CHECKS false). -/
theorem EndsChecked.exec_eq_writeAnys (h : EndsChecked i s) (hr : ready i s = false) (hd : s.debugChecks = false) :
    exec i s = .next (s.writeAnys (footprint i).writesF) := by
  obtain ⟨results, he⟩ := h
  simpa [State.complete_of_not_pre hr, hd] using he

/-- A command whose precondition fails has one. -/
theorem endsChecked_of_not_ready (hr : ready i s = false) : EndsChecked i s := by
  rcases exec_cases i s with ⟨hn, -⟩ | ⟨-, hc⟩
  · simp [ready_of_need_nothing hn] at hr
  · exact hc

/-! ### The draws behind free values (log entry 2) -/

/-- The number of the draw whose value r keeps, when the registers of the list are drawn in order from number n on: the draw
of the last place at which r stands in the list. -/
def lastDraw (n : Nat) : List FReg → FReg → Nat
  | [], _ => n
  | _ :: rs, r => if r ∈ rs then lastDraw (n + 1) rs r else n

theorem lastDraw_cons_of_mem (n : Nat) (a : FReg) {rs : List FReg} {r : FReg} (h : r ∈ rs) :
    lastDraw n (a :: rs) r = lastDraw (n + 1) rs r := if_pos h

theorem lastDraw_cons_of_not_mem (n : Nat) (a : FReg) {rs : List FReg} {r : FReg} (h : r ∉ rs) :
    lastDraw n (a :: rs) r = n := if_neg h

theorem le_lastDraw (n : Nat) (rs : List FReg) (r : FReg) : n ≤ lastDraw n rs r := by
  induction rs generalizing n with
  | nil => exact Nat.le_refl n
  | cons a rs ih =>
    by_cases h : r ∈ rs
    · rw [lastDraw_cons_of_mem n a h]
      exact (Nat.le_succ n).trans (ih (n + 1))
    · rw [lastDraw_cons_of_not_mem n a h]

theorem lastDraw_lt (n : Nat) {rs : List FReg} {r : FReg} (hr : r ∈ rs) : lastDraw n rs r < n + rs.length := by
  induction rs generalizing n with
  | nil => cases hr
  | cons a rs ih =>
    rw [List.length_cons]
    by_cases h : r ∈ rs
    · have := ih (n + 1) h
      rw [lastDraw_cons_of_mem n a h]
      omega
    · rw [lastDraw_cons_of_not_mem n a h]
      omega

/-- Different registers of the list keep different draws: the first register's draw lies below all later ones. -/
theorem eq_of_lastDraw_eq (n : Nat) {rs : List FReg} {r q : FReg} (hr : r ∈ rs) (hq : q ∈ rs)
    (h : lastDraw n rs r = lastDraw n rs q) : r = q := by
  induction rs generalizing n with
  | nil => cases hr
  | cons a rs ih =>
    by_cases hr' : r ∈ rs <;> by_cases hq' : q ∈ rs
    · rw [lastDraw_cons_of_mem n a hr', lastDraw_cons_of_mem n a hq'] at h
      exact ih (n + 1) hr' hq' h
    · rw [lastDraw_cons_of_mem n a hr', lastDraw_cons_of_not_mem n a hq'] at h
      have := le_lastDraw (n + 1) rs r
      omega
    · rw [lastDraw_cons_of_not_mem n a hr', lastDraw_cons_of_mem n a hq'] at h
      have := le_lastDraw (n + 1) rs q
      omega
    · exact ((List.mem_cons.1 hr).resolve_right hr').trans ((List.mem_cons.1 hq).resolve_right hq').symm

@[simp] theorem State.writeAnys_cons (s : State) (a : FReg) (rs : List FReg) :
    s.writeAnys (a :: rs) = (s.writeAny a).writeAnys rs := rfl

/-- `writeAnys` leaves in each listed register the free value of the draw `lastDraw` names. -/
theorem State.readF_writeAnys (s : State) {rs : List FReg} {r : FReg} (hr : r ∈ rs) :
    (s.writeAnys rs).readF r = Config.anyFelm (lastDraw s.draws rs r) := by
  induction rs generalizing s with
  | nil => cases hr
  | cons a rs ih =>
    rw [State.writeAnys_cons]
    by_cases h : r ∈ rs
    · rw [ih (s.writeAny a) h, State.writeAny_draws, lastDraw_cons_of_mem s.draws a h]
    · have ha : r = a := (List.mem_cons.1 hr).resolve_right h
      rw [((s.writeAny a).writeAnys_spec rs).1.regs r h, State.readF_writeAny, if_pos ha,
        lastDraw_cons_of_not_mem s.draws a h]

end Sys2Proof.Machine
end

section

open Sys2Proof Sys2Proof.Machine

namespace Sys2Proof.Proofs

/-- Settles O22: a command without a precondition runs in its frame, and one with a precondition does so when it holds. -/
theorem readyCommandCompletesInItsFrame : Obligations.ReadyCommandCompletesInItsFrame := by
  intro i s _ hr
  rcases exec_cases i s with ⟨-, hf⟩ | ⟨-, hc⟩
  · exact hf
  · exact hc.runsInFrame hr

/-- Settles O23: the command ends in `writeAnys` of its destinations, and `lastDraw` names the draw each of them keeps. -/
theorem unmetPreconditionLeavesFreeValues : Obligations.UnmetPreconditionLeavesFreeValues := by
  intro i s _ hr hd
  obtain ⟨hframe, hdraws, -⟩ := s.writeAnys_spec (footprint i).writesF
  refine ⟨_, (endsChecked_of_not_ready hr).exec_eq_writeAnys hr hd, hframe,
    lastDraw s.draws (footprint i).writesF, fun r hm => ⟨le_lastDraw _ _ _, ?_, s.readF_writeAnys hm⟩,
    fun r hm q hq => eq_of_lastDraw_eq s.draws hm hq⟩
  rw [hdraws]
  exact lastDraw_lt s.draws hm

end Sys2Proof.Proofs
end

section
/-! SUPPORT. Decoding is strict (spec/30_encoding.md R83, R84): the encoding of the command that a word decodes to is that word,
because the mask check leaves every field that the row's format does not use at zero. -/

namespace Sys2Proof.Laws

/-! ### The fields a format uses (R81) -/

/-- The format uses the field ra. -/
def usesRa : Format → Bool
  | .z | .u | .b | .bc | .s | .x => true
  | .p1 | .p2 => false

/-- The format uses the field rb. -/
def usesRb : Format → Bool
  | .u | .b | .bc | .p1 | .p2 | .s | .x => true
  | .z => false

/-- The format uses the field rc. -/
def usesRc : Format → Bool
  | .b | .bc | .p2 | .s => true
  | .z | .u | .p1 | .x => false

/-- The format uses the field dd. -/
def usesDd : Format → Bool
  | .bc | .p1 | .p2 | .s | .x => true
  | .z | .u | .b => false

/-- The must-be-zero bits of a register field: the low log2(g) bits if it is used, else all five (R83). -/
def regMask (used : Bool) (g : Nat) : BitVec 5 := if used then BitVec.ofNat 5 (g - 1) else 0x1F

/-- The must-be-zero bits of the field dd: none if it is used, else all three (R83). -/
def digMask (used : Bool) : BitVec 3 := if used then 0 else 7

theorem maskOf_eq (f : Format) (g : Nat) :
    maskOf f g = (0xFF#8 ++ regMask (usesRa f) g ++ regMask (usesRb f) g ++ regMask (usesRc f) g
      ++ digMask (usesDd f) ++ 0x3F#6 : BitVec 32) := by
  cases f <;> rfl

/-- A register field that passes its row's mask is zero where the format does not use it. -/
theorem reg_of_used {used : Bool} {g : Nat} {b : BitVec 5} (h : b &&& regMask used g = 0#5) :
    (if used then b.toFin else 0) = b.toFin := by
  cases used
  · exact (reg_zero_of_and h).symm
  · rfl

/-- The field dd, when it passes its row's mask, is zero where the format does not use it. -/
theorem dig_of_used {used : Bool} {b : BitVec 3} (h : b &&& digMask used = 0#3) :
    (if used then b.toFin else 0) = b.toFin := by
  cases used
  · exact (dig_zero_of_and h).symm
  · rfl

/-! ### The round trip from a word -/

/-- The word of a row's command holds the fields the row's format uses, and zero in the others (R80, R81). -/
theorem encode_build : ∀ row ∈ opTable, ∀ (ra rb rc : FReg) (dd : DReg),
    encode (row.build ra rb rc dd) =
      assemble row.op (if usesRa row.format then ra else 0) (if usesRb row.format then rb else 0)
        (if usesRc row.format then rc else 0) (if usesDd row.format then dd else 0) := by
  intro row hrow
  fin_cases hrow <;> exact fun _ _ _ _ => rfl

/-- A word that decodes passes the mask of some row, and that row builds the command from its fields (R84). -/
theorem row_of_decode {w : Command} {i : Instr} (h : decode w = .ok i) :
    ∃ row ∈ opTable, w &&& row.mask = row.pattern ∧
      row.build (fieldRa w) (fieldRb w) (fieldRc w) (fieldDd w) = i := by
  unfold decode at h
  split at h
  · cases h
  · next row hfind =>
    split at h
    · next hmatch => exact ⟨row, List.mem_of_find?_eq_some hfind, eq_of_beq hmatch, Except.ok.inj h⟩
    · cases h

/-- A word that decodes is the word of the command it decodes to. -/
theorem encode_of_decode {w : Command} {i : Instr} (h : decode w = .ok i) : encode i = w := by
  obtain ⟨row, hrow, hm, rfl⟩ := row_of_decode h
  obtain ⟨hmask, hpattern⟩ := opTable_masks row hrow
  rw [hmask, hpattern, maskOf_eq] at hm
  have ha : (if usesRa row.format then fieldRa w else 0) = fieldRa w := reg_of_used (ra_of_mask hm)
  have hb : (if usesRb row.format then fieldRb w else 0) = fieldRb w := reg_of_used (rb_of_mask hm)
  have hc : (if usesRc row.format then fieldRc w else 0) = fieldRc w := reg_of_used (rc_of_mask hm)
  have hd : (if usesDd row.format then fieldDd w else 0) = fieldDd w := dig_of_used (dd_of_mask hm)
  rw [encode_build row hrow, ha, hb, hc, hd, ← op_of_mask hm]
  exact assemble_fields w (z_of_mask hm)

end Sys2Proof.Laws
end

section
/-! SUPPORT. The fault record (spec/10_state.md R30, R31): what may be recorded with each cause, and that fault entry, reset,
every command and every host event keep the record as the rules describe it. -/

namespace Sys2Proof.Machine

variable {i : Instr} {s t : State}

/-! ### The record -/

/-- What ERRINFO may hold with a cause, in a build with the given DEBUG_CHECKS (R31, R241, R246). -/
def Recordable (debugChecks : Bool) (info : Digit) : Cause → Prop
  | .illegalOpcode => ∃ w : Command, info = w.setWidth 64 ∧ decode w = .error .illegalOpcode
  | .illegalOperand => ∃ w : Command, info = w.setWidth 64
  | .hostAccess => ∃ a : Addr, info = a.setWidth 64 ∧
      (∀ r j, target a ≠ .felmDigit r j) ∧ (∀ k, target a ≠ .digitReg k)
  | .precondition => debugChecks = true ∧ ∃ w : Command, ∃ i, info = w.setWidth 64 ∧ decode w = .ok i ∧
      (footprint i).need ≠ .nothing

theorem faultRecord_of_ok (he : s.err = false) (hc : s.cause = 0) (hi : s.errinfo = 0) : FaultRecord s :=
  ⟨fun _ => ⟨hc, hi⟩, fun h => by simp [he] at h⟩

theorem faultRecord_of_recordable {c : Cause} (he : s.err = true) (hc : s.cause = c.code)
    (hr : Recordable s.debugChecks s.errinfo c) : FaultRecord s := by
  refine ⟨fun h => by simp [he] at h, fun _ => ?_⟩
  cases c with
  | illegalOpcode => exact .inl ⟨hc, hr⟩
  | illegalOperand => exact .inr (.inl ⟨hc, hr⟩)
  | hostAccess => exact .inr (.inr (.inl ⟨hc, hr⟩))
  | precondition => exact .inr (.inr (.inr ⟨hc, hr⟩))

/-- The record speaks of ERR, CAUSE, ERRINFO and DEBUG_CHECKS only. -/
theorem FaultRecord.congr (h : FaultRecord s) (he : t.err = s.err) (hc : t.cause = s.cause)
    (hi : t.errinfo = s.errinfo) (hd : t.debugChecks = s.debugChecks) : FaultRecord t := by
  unfold FaultRecord at h ⊢
  rwa [he, hc, hi, hd]

theorem FaultRecord.of_sameControl (h : FaultRecord s) (hs : SameControl s t) : FaultRecord t :=
  h.congr hs.err hs.cause hs.errinfo hs.debugChecks

/-! ### Fault entry and reset (R242, R244) -/

/-- The first fault is recorded as its cause asks, and a later one changes nothing. -/
theorem FaultRecord.raiseFault (h : FaultRecord s) {c : Cause} {info : Digit}
    (hr : Recordable s.debugChecks info c) : FaultRecord (s.raiseFault c info) := by
  cases he : s.err
  · rw [State.raiseFault_of_ok he]
    exact faultRecord_of_recordable rfl rfl hr
  · rwa [State.raiseFault_of_err he]

theorem FaultRecord.refuseAccess (h : FaultRecord s) {a : Addr} (hF : ∀ r j, target a ≠ .felmDigit r j)
    (hD : ∀ k, target a ≠ .digitReg k) : FaultRecord (s.refuseAccess a) :=
  h.raiseFault ⟨a, rfl, hF, hD⟩

theorem faultRecord_doReset (s : State) : FaultRecord s.doReset := faultRecord_of_ok rfl rfl rfl

/-! ### Commands and host events -/

/-- The answer is a next state whose fault record is as the rules describe it. -/
def AnswersFaultRecord (r : Result) : Prop := ∃ t, r = .next t ∧ FaultRecord t

/-- A decoded command keeps the record: it changes no control field, or its failed precondition is recorded with a word
that decodes to it (R246). -/
theorem FaultRecord.answers_exec (h : FaultRecord s) {w : Command} (hw : decode w = .ok i) :
    AnswersFaultRecord (exec i s) := by
  rcases exec_cases i s with ⟨-, t, ht, hframe, -⟩ | ⟨hn, results, he⟩
  · exact ⟨t, ht, h.of_sameControl hframe.toSameControl⟩
  · rw [he]
    rcases s.complete_cases i (ready i s) (footprint i).writesF results with ⟨-, hc⟩ | ⟨-, hd, hc⟩ | ⟨-, -, hc⟩
    · exact ⟨_, hc, h.of_sameControl (sameExcept_writeFs_zip s _ _).toSameControl⟩
    · exact ⟨_, hc, h.raiseFault ⟨hd, w, i, by rw [Laws.encode_of_decode hw], hw, hn⟩⟩
    · exact ⟨_, hc, h.of_sameControl (s.writeAnys_spec _).1.toSameControl⟩

theorem FaultRecord.answers_issue (h : FaultRecord s) (v : Digit) : AnswersFaultRecord (s.issue v) := by
  rcases s.issue_cases v with ⟨-, e⟩ | ⟨-, -, e⟩ | ⟨-, -, hw, e⟩ | ⟨-, -, -, e⟩ | ⟨-, -, i, hw, e⟩
  · exact ⟨s, e, h⟩
  · exact ⟨_, e, h.raiseFault ⟨_, rfl⟩⟩
  · exact ⟨_, e, h.raiseFault ⟨_, rfl, hw⟩⟩
  · exact ⟨_, e, h.raiseFault ⟨_, rfl⟩⟩
  · rw [e]
    exact h.answers_exec hw

theorem FaultRecord.portRead (h : FaultRecord s) (a : Addr) : FaultRecord (s.portRead a) := by
  rcases s.portRead_cases a with ⟨v, -, e⟩ | ⟨hnone, e⟩ <;> rw [e]
  · exact h.congr rfl rfl rfl rfl
  · have hrefused : FaultRecord (s.refuseAccess a) := h.refuseAccess
      (fun r j ht => by simp [ht, State.peek] at hnone) (fun k ht => by simp [ht, State.peek] at hnone)
    exact hrefused.congr rfl rfl rfl rfl

theorem FaultRecord.writeCtrl (h : FaultRecord s) (v : Digit) : FaultRecord (s.writeCtrl v) := by
  unfold State.writeCtrl
  split
  · exact faultRecord_doReset s
  · exact h

theorem FaultRecord.answers_portWrite (h : FaultRecord s) (a : Addr) (v : Digit) : AnswersFaultRecord (s.portWrite a v) := by
  unfold State.portWrite
  cases ht : target a with
  | felmDigit r j => exact ⟨_, rfl, h.of_sameControl (sameExcept_writeF _ _ _).toSameControl⟩
  | digitReg k => exact ⟨_, rfl, h.of_sameControl (sameExcept_writeD _ _ _).toSameControl⟩
  | cmd => exact h.answers_issue v
  | ctrl => exact ⟨_, rfl, h.writeCtrl v⟩
  | status | errinfo | ident | modulus | modulusPlusOne | rSquared | unmapped =>
    exact ⟨_, rfl, h.refuseAccess (by simp [ht]) (by simp [ht])⟩

theorem FaultRecord.answers_perform (h : FaultRecord s) (e : HostEvent) : AnswersFaultRecord (s.perform e) := by
  cases e with
  | read a => exact ⟨_, rfl, h.portRead a⟩
  | write a v => exact h.answers_portWrite a v
  | resetInput | powerOn => exact ⟨_, rfl, faultRecord_doReset s⟩

theorem FaultRecord.answers_step (h : FaultRecord s) : AnswersFaultRecord (step s) := by
  cases hp : s.pending with
  | nil => exact ⟨s, step_of_idle hp, h⟩
  | cons e rest =>
    rw [step_of_pending hp]
    exact (h.congr rfl rfl rfl rfl : FaultRecord (s.begin rest)).answers_perform e

end Sys2Proof.Machine
end

section
/-! SUPPORT. The field commands (spec/41_base_field.md R130, spec/44_gfp2.md R190): with every source below P, every result is
below P. -/

namespace Sys2Proof.Machine

open Sys2Proof.Config Sys2Proof.Laws

variable {i : Instr} {s : State}

theorem felm_lt {n : Nat} (h : n < P) : (felm n).toNat < P := by
  rwa [toNat_felm_of_lt h]

theorem f2sqr_lt {a0 a1 : Nat} (h0 : a0 < P) (h1 : a1 < P) : (f2sqr a0 a1).1 < P ∧ (f2sqr a0 a1).2 < P := by
  rw [f2sqr_eq_f2mul h0 h1]
  exact f2mul_lt h0 h1 h0 h1

/-- The norm inverter's results are products by the inverse of the norm, which is below P (R199). -/
theorem f2inv_lt {a0 a1 : Nat} (h0 : a0 < P) (h1 : a1 < P) : (f2inv a0 a1).1 < P ∧ (f2inv a0 a1).2 < P := by
  have hinv : finv (fpadd (msqr a0) (msqr a1)) < P := finv_lt (fpadd_lt _ _)
  unfold f2inv
  dsimp only
  exact ⟨mm_lt (lt_R_of_lt_P h0) hinv, mm_lt (lt_R_of_lt_P (fpneg_lt h1)) hinv⟩

/-! ### Sources -/

theorem forall_mem_pairRegs {p : FReg → Prop} {r : FReg} : (∀ q ∈ pairRegs r, p q) ↔ p r ∧ p (r + 1) := by
  simp [pairRegs]

/-- The sources of a field command on one register each: rb and rc. -/
theorem forall_mem_regs {p : FReg → Prop} {rb rc : FReg} : (∀ q ∈ [rb, rc], p q) ↔ p rb ∧ p rc := by
  simp

/-- The sources of a field command on two pairs: the components of Eb and Ec. -/
theorem forall_mem_pairs {p : FReg → Prop} {rb rc : FReg} :
    (∀ q ∈ pairRegs rb ++ pairRegs rc, p q) ↔ (p rb ∧ p (rb + 1)) ∧ p rc ∧ p (rc + 1) := by
  rw [List.forall_mem_append, forall_mem_pairRegs, forall_mem_pairRegs]

theorem num_lt_of_ready (hn : (footprint i).need = .belowP) (hr : ready i s = true) :
    ∀ r ∈ (footprint i).readsF, s.num r < P := by
  simpa [ready, hn, valid_iff] using hr

/-! ### Results -/

/-- The command ends checked, with a result below P for each of its destinations. -/
def ResultsBelowP (i : Instr) (s : State) : Prop :=
  ∃ results, exec i s = s.complete i (ready i s) (footprint i).writesF results ∧
    List.Forall₂ (fun _ x => x.toNat < P) (footprint i).writesF results

theorem ResultsBelowP.of_reg {ra : FReg} {n : Nat} (hw : (footprint i).writesF = [ra])
    (he : exec i s = s.complete i (ready i s) [ra] [felm n]) (h : n < P) : ResultsBelowP i s :=
  ⟨_, hw ▸ he, hw ▸ .cons (felm_lt h) .nil⟩

theorem ResultsBelowP.of_pair {ra : FReg} {m n : Nat} (hw : (footprint i).writesF = pairRegs ra)
    (he : exec i s = s.complete i (ready i s) (pairRegs ra) [felm m, felm n]) (h : m < P ∧ n < P) :
    ResultsBelowP i s :=
  ⟨_, hw ▸ he, hw ▸ .cons (felm_lt h.1) (.cons (felm_lt h.2) .nil)⟩

/-- Each of the 18 field commands has results below P. -/
theorem resultsBelowP_of_ready (hn : (footprint i).need = .belowP) (hr : ready i s = true) : ResultsBelowP i s := by
  have hv := num_lt_of_ready hn hr
  cases i with
  | fpadd ra rb rc => exact .of_reg rfl rfl (fpadd_lt _ _)
  | fpsub ra rb rc =>
    obtain ⟨hb, hc⟩ := forall_mem_regs.1 hv
    exact .of_reg rfl rfl (fpsub_lt hb hc)
  | fpneg ra rb => exact .of_reg rfl rfl (fpneg_lt (hv rb (.head _)))
  | fpdiv2 ra rb => exact .of_reg rfl rfl (fpdiv2_lt (hv rb (.head _)))
  | fptomont ra rb => exact .of_reg rfl rfl (mm_lt (lt_R_of_lt_P (hv rb (.head _))) R2_lt)
  | fpfrommont ra rb => exact .of_reg rfl rfl (mm_lt (lt_R_of_lt_P (hv rb (.head _))) one_lt_P)
  | fpmul ra rb rc =>
    obtain ⟨hb, hc⟩ := forall_mem_regs.1 hv
    exact .of_reg rfl rfl (mm_lt (lt_R_of_lt_P hb) hc)
  | fpsqr ra rb => exact .of_reg rfl rfl (msqr_lt (hv rb (.head _)))
  | fpinv ra rb => exact .of_reg rfl rfl (finv_lt (hv rb (.head _)))
  | f2add ra rb rc => exact .of_pair rfl rfl ⟨fpadd_lt _ _, fpadd_lt _ _⟩
  | f2sub ra rb rc =>
    obtain ⟨⟨hb0, hb1⟩, hc0, hc1⟩ := forall_mem_pairs.1 hv
    exact .of_pair rfl rfl ⟨fpsub_lt hb0 hc0, fpsub_lt hb1 hc1⟩
  | f2neg ra rb =>
    obtain ⟨h0, h1⟩ := forall_mem_pairRegs.1 hv
    exact .of_pair rfl rfl ⟨fpneg_lt h0, fpneg_lt h1⟩
  | f2div2 ra rb =>
    obtain ⟨h0, h1⟩ := forall_mem_pairRegs.1 hv
    exact .of_pair rfl rfl ⟨fpdiv2_lt h0, fpdiv2_lt h1⟩
  | f2sqr ra rb =>
    obtain ⟨h0, h1⟩ := forall_mem_pairRegs.1 hv
    exact .of_pair rfl rfl (f2sqr_lt h0 h1)
  | f2mul ra rb rc =>
    obtain ⟨⟨hb0, hb1⟩, hc0, hc1⟩ := forall_mem_pairs.1 hv
    exact .of_pair rfl rfl (f2mul_lt hb0 hb1 hc0 hc1)
  | f2inv ra rb =>
    obtain ⟨h0, h1⟩ := forall_mem_pairRegs.1 hv
    exact .of_pair rfl rfl (f2inv_lt h0 h1)
  | f2tomont ra rb =>
    obtain ⟨h0, h1⟩ := forall_mem_pairRegs.1 hv
    exact .of_pair rfl rfl ⟨mm_lt (lt_R_of_lt_P h0) R2_lt, mm_lt (lt_R_of_lt_P h1) R2_lt⟩
  | f2frommont ra rb =>
    obtain ⟨h0, h1⟩ := forall_mem_pairRegs.1 hv
    exact .of_pair rfl rfl ⟨mm_lt (lt_R_of_lt_P h0) one_lt_P, mm_lt (lt_R_of_lt_P h1) one_lt_P⟩
  | _ => cases hn

/-- A register that stands among the destinations ends with a value below P, even if it stands there more than once: its
last write is one of the results. -/
theorem num_writeFs_lt {dests : List FReg} {results : List Felm}
    (h : List.Forall₂ (fun _ x => x.toNat < P) dests results) (s : State) :
    ∀ r ∈ dests, (s.writeFs (dests.zip results)).num r < P := by
  induction h generalizing s with
  | nil => simp
  | @cons a x dests results hx _ ih =>
    intro r hr
    rw [List.zip_cons_cons, State.writeFs_cons]
    by_cases hm : r ∈ dests
    · exact ih (s.writeF a x) r hm
    · obtain rfl : r = a := (List.mem_cons.1 hr).resolve_right hm
      rw [State.num, (sameExcept_writeFs_zip _ dests results).regs r hm, State.readF_writeF_same]
      exact hx

end Sys2Proof.Machine
end

section

open Sys2Proof Sys2Proof.Machine

namespace Sys2Proof.Proofs

/-- Settles O20: every host event, with the commands among them, answers a state whose record is as described. -/
theorem faultRecordIsKept : Obligations.FaultRecordIsKept := by
  intro s t h ht
  obtain ⟨u, hu, hrecord⟩ := h.answers_step
  obtain rfl : u = t := Host.Outcome.next.inj (hu.symm.trans ht)
  exact hrecord

/-- Settles O26: a field command whose sources are below P ends with results below P, which are what it writes. -/
theorem fieldResultsStayBelowP : Obligations.FieldResultsStayBelowP := by
  intro i s _ hn hr
  obtain ⟨results, he, hresults⟩ := resultsBelowP_of_ready hn hr
  exact ⟨_, he.trans (State.complete_of_pre hr s), num_writeFs_lt hresults s⟩

/-- Settles O19: the reset state holds 0 in every register, and ERR and CAUSE are 0 in its STATUS. -/
theorem resetStateIsZero : Obligations.ResetStateIsZero := by
  have hstatus : State.reset.status = 0 := BitVec.eq_of_toNat_eq (State.status_toNat _)
  exact ⟨State.readF_reset, State.readD_reset, hstatus, rfl⟩

/-- Settles O21: ERR, CAUSE and ERRINFO are 0 at reset. -/
theorem faultRecordAtReset : Obligations.FaultRecordAtReset :=
  faultRecord_of_ok rfl rfl rfl

end Sys2Proof.Proofs
end

section
/-! SUPPORT. What every step keeps of the model's own fields (log entries 3 to 6): the event it performs is gone from the queue,
the build parameter stays, and the count of free values does not fall. -/

namespace Sys2Proof.Machine

variable {s t : State}

/-- The queue and the build parameter are as before, and no draw is taken back. -/
structure SameQueue (s t : State) : Prop where
  pending : t.pending = s.pending
  debugChecks : t.debugChecks = s.debugChecks
  draws : s.draws ≤ t.draws

theorem SameQueue.refl (s : State) : SameQueue s s := ⟨rfl, rfl, Nat.le_refl _⟩

theorem SameControl.sameQueue (h : SameControl s t) (hd : s.draws ≤ t.draws) : SameQueue s t :=
  ⟨h.pending, h.debugChecks, hd⟩

theorem sameQueue_raiseFault (s : State) (c : Cause) (info : Digit) : SameQueue s (s.raiseFault c info) :=
  ⟨s.raiseFault_pending c info, s.raiseFault_debugChecks c info, (s.raiseFault_draws c info).ge⟩

theorem sameQueue_doReset (s : State) : SameQueue s s.doReset := ⟨rfl, rfl, Nat.le_refl _⟩

theorem SameQueue.answer (h : SameQueue s t) (v : Digit) : SameQueue s (t.answer v) := ⟨h.pending, h.debugChecks, h.draws⟩

/-- The answer is a next state with the queue, the build parameter and the draws of s. -/
def AnswersSameQueue (s : State) (r : Result) : Prop := ∃ t, r = .next t ∧ SameQueue s t

theorem answersSameQueue_exec (i : Instr) (s : State) : AnswersSameQueue s (exec i s) := by
  rcases exec_cases i s with ⟨-, t, ht, hframe, hdraws⟩ | ⟨-, results, he⟩
  · exact ⟨t, ht, hframe.toSameControl.sameQueue hdraws.ge⟩
  · rw [he]
    rcases s.complete_cases i (ready i s) (footprint i).writesF results with ⟨-, hc⟩ | ⟨-, -, hc⟩ | ⟨-, -, hc⟩
    · exact ⟨_, hc, (sameExcept_writeFs_zip s _ _).toSameControl.sameQueue (s.writeFs_draws _).ge⟩
    · exact ⟨_, hc, sameQueue_raiseFault s _ _⟩
    · obtain ⟨hframe, hdraws, -⟩ := s.writeAnys_spec (footprint i).writesF
      exact ⟨_, hc, hframe.toSameControl.sameQueue (by omega)⟩

theorem answersSameQueue_issue (s : State) (v : Digit) : AnswersSameQueue s (s.issue v) := by
  rcases s.issue_cases v with ⟨-, e⟩ | ⟨-, -, e⟩ | ⟨-, -, -, e⟩ | ⟨-, -, -, e⟩ | ⟨-, -, i, -, e⟩
  · exact ⟨s, e, .refl s⟩
  · exact ⟨_, e, sameQueue_raiseFault s _ _⟩
  · exact ⟨_, e, sameQueue_raiseFault s _ _⟩
  · exact ⟨_, e, sameQueue_raiseFault s _ _⟩
  · exact e ▸ answersSameQueue_exec i s

theorem sameQueue_portRead (s : State) (a : Addr) : SameQueue s (s.portRead a) := by
  rcases s.portRead_cases a with ⟨v, -, e⟩ | ⟨-, e⟩ <;> rw [e]
  · exact (SameQueue.refl s).answer v
  · exact (sameQueue_raiseFault s _ _).answer 0

theorem sameQueue_writeCtrl (s : State) (v : Digit) : SameQueue s (s.writeCtrl v) := by
  unfold State.writeCtrl
  split
  · exact sameQueue_doReset s
  · exact .refl s

theorem answersSameQueue_portWrite (s : State) (a : Addr) (v : Digit) : AnswersSameQueue s (s.portWrite a v) := by
  unfold State.portWrite
  cases target a with
  | felmDigit r j => exact ⟨_, rfl, (sameExcept_writeF s r _).toSameControl.sameQueue (Nat.le_refl _)⟩
  | digitReg k => exact ⟨_, rfl, (sameExcept_writeD s k v).toSameControl.sameQueue (Nat.le_refl _)⟩
  | cmd => exact answersSameQueue_issue s v
  | ctrl => exact ⟨_, rfl, sameQueue_writeCtrl s v⟩
  | status | errinfo | ident | modulus | modulusPlusOne | rSquared | unmapped =>
    exact ⟨_, rfl, sameQueue_raiseFault s _ _⟩

theorem answersSameQueue_perform (s : State) (e : HostEvent) : AnswersSameQueue s (s.perform e) := by
  cases e with
  | read a => exact ⟨_, rfl, sameQueue_portRead s a⟩
  | write a v => exact answersSameQueue_portWrite s a v
  | resetInput | powerOn => exact ⟨_, rfl, sameQueue_doReset s⟩

/-- Every step answers a next state; the queue loses its oldest event, if it has one. -/
theorem step_queue (s : State) :
    ∃ t, step s = .next t ∧ t.pending = s.pending.tail ∧ t.debugChecks = s.debugChecks ∧ s.draws ≤ t.draws := by
  cases hp : s.pending with
  | nil => exact ⟨s, step_of_idle hp, hp, rfl, Nat.le_refl _⟩
  | cons e rest =>
    obtain ⟨t, ht, hq⟩ := answersSameQueue_perform (s.begin rest) e
    exact ⟨t, (step_of_pending hp).trans ht, hq.pending, hq.debugChecks, hq.draws⟩

end Sys2Proof.Machine
end

section
/-! SUPPORT. A CMD write (spec/20_memory.md R58, spec/60_exceptions.md R245): the step that performs it, and which words the
decoder refuses for what reason (spec/30_encoding.md R84, R87, R88). -/

namespace Sys2Proof.Laws

variable {w : Command}

theorem decode_of_no_row (h : ∀ row ∈ opTable, row.op ≠ fieldOp w) : decode w = .error .illegalOpcode := by
  have hnone : opTable.find? (fun row => row.op == fieldOp w) = none := by simpa using h
  rw [decode, hnone]

theorem decode_of_must_be_zero {row : OpRow} (hrow : row ∈ opTable) (hop : row.op = fieldOp w)
    (hm : w &&& row.mask ≠ row.pattern) : decode w = .error .illegalOperand := by
  have hfind : opTable.find? (fun r => r.op == fieldOp w) = some row := hop ▸ find_row hrow
  have hmatch : ¬ row.matchesWord w := by simpa [OpRow.matchesWord] using hm
  rw [decode, hfind]
  exact if_neg hmatch

end Sys2Proof.Laws

namespace Sys2Proof.Machine

variable {s : State} {rest : List HostEvent} {v : Digit}

/-- The step at a CMD write issues the value written. -/
theorem step_of_cmd_write (hp : s.pending = .write 0x0300 v :: rest) : step s = (s.begin rest).issue v := by
  have ht : target 0x0300 = .cmd := target_cmdAddr
  rw [step_of_pending hp, State.perform, State.portWrite, ht]

/-- The state after a fault raised by the oldest event, field by field. -/
theorem begin_raiseFault (he : s.err = false) (rest : List HostEvent) (c : Cause) (info : Digit) :
    (s.begin rest).raiseFault c info =
      { s with pending := rest, reply := none, err := true, cause := c.code, errinfo := info } :=
  State.raiseFault_of_ok (s := s.begin rest) he c info

/-! With ERR = 0, a value whose upper half is zero is decoded. -/

theorem issue_of_illegalOpcode (he : s.err = false) (hv : v.toNat < 2 ^ 32)
    (hd : decode (v.setWidth 32) = .error .illegalOpcode) :
    s.issue v = .next (s.raiseFault .illegalOpcode ((v.setWidth 32 : Command).setWidth 64)) := by
  rw [State.issue_of_ok he, if_neg (Nat.not_le.2 hv), hd]

theorem issue_of_illegalOperand (he : s.err = false) (hv : v.toNat < 2 ^ 32)
    (hd : decode (v.setWidth 32) = .error .illegalOperand) :
    s.issue v = .next (s.raiseFault .illegalOperand ((v.setWidth 32 : Command).setWidth 64)) := by
  rw [State.issue_of_ok he, if_neg (Nat.not_le.2 hv), hd]

theorem issue_of_command {i : Instr} (he : s.err = false) (hv : v.toNat < 2 ^ 32)
    (hd : decode (v.setWidth 32) = .ok i) : s.issue v = exec i s := by
  rw [State.issue_of_ok he, if_neg (Nat.not_le.2 hv), hd]

end Sys2Proof.Machine
end

section

open Sys2Proof Sys2Proof.Machine

namespace Sys2Proof.Proofs

/-- Settles O12: the step is `perform` of the oldest event, and no event touches the rest of the queue. -/
theorem stepTakesOneEvent : Obligations.StepTakesOneEvent := by
  refine fun s => ⟨fun e rest hp => step_of_pending hp, step_of_idle, fun t ht => ?_⟩
  obtain ⟨u, hu, hkept⟩ := step_queue s
  obtain rfl : u = t := Host.Outcome.next.inj (hu.symm.trans ht)
  exact hkept

/-- Settles O8: the upper half is tested first, then the row of the opcode, then the must-be-zero bits. -/
theorem malformedCommandRaisesItsCause : Obligations.MalformedCommandRaisesItsCause := by
  intro s rest v hp he
  have hbegin : (s.begin rest).err = false := he
  refine ⟨fun hv => ?_, fun hv hno => ?_, fun hv row hrow hop hm => ?_⟩ <;> rw [step_of_cmd_write hp]
  · rw [State.issue_of_ok hbegin, if_pos hv, begin_raiseFault he]
    rfl
  · rw [issue_of_illegalOpcode hbegin hv (Laws.decode_of_no_row hno), begin_raiseFault he]
    rfl
  · rw [issue_of_illegalOperand hbegin hv (Laws.decode_of_must_be_zero hrow hop hm), begin_raiseFault he]
    rfl

/-- Settles O7: a zero-extended word has no upper half, and its low half is the word. -/
theorem stepRunsTheDecodedCommand : Obligations.StepRunsTheDecodedCommand := by
  intro s rest w i hp he hw
  have hlow : (w.setWidth 64).setWidth 32 = w := BitVec.setWidth_setWidth_of_le w (by decide)
  have hbound : (w.setWidth 64).toNat < 2 ^ 32 := by
    rw [BitVec.toNat_setWidth]
    exact (Nat.mod_le _ _).trans_lt w.isLt
  exact (step_of_cmd_write hp).trans (issue_of_command (s := s.begin rest) he hbound (hlow.symm ▸ hw))

end Sys2Proof.Proofs
end

section
/-! SUPPORT. Host reads and writes as steps (spec/20_memory.md R54 to R59): a read that is answered changes nothing but the reply,
and which addresses the port refuses. -/

namespace Sys2Proof.Machine

open Sys2Proof.Config

variable {s : State} {rest : List HostEvent} {a : Addr} {v : Digit}

/-! ### Answered reads -/

@[simp] theorem State.peek_begin (s : State) (rest : List HostEvent) (x : Target) : (s.begin rest).peek x = s.peek x := by
  cases x <;> rfl

/-- The step at a read of a readable target returns the word and has no other effect. -/
theorem step_of_read {x : Target} (hp : s.pending = .read a :: rest) (ht : target a = x) (hv : s.peek x = some v) :
    step s = .next { s with pending := rest, reply := some v } := by
  have hpeek : (s.begin rest).peek (target a) = some v := by rw [State.peek_begin, ht, hv]
  rw [step_of_pending hp, State.perform, State.portRead, hpeek]
  rfl

/-- Digit j is the integer shifted right by 64·j bits, modulo 2^64. -/
theorem digit_eq (x : Felm) (j : Fin 12) : digit x j = BitVec.ofNat 64 (x.toNat / 2 ^ (64 * j.val)) :=
  BitVec.eq_of_toNat_eq (by rw [digit_toNat, BitVec.toNat_ofNat])

theorem digit_felm {n : Nat} (h : n < R) (j : Fin 12) : digit (felm n) j = BitVec.ofNat 64 (n / 2 ^ (64 * j.val)) := by
  have hn : (felm n).toNat = n := (Laws.toNat_felm n).trans (Nat.mod_eq_of_lt h)
  rw [digit_eq, hn]

theorem P1_lt_R : P1 < R := by
  have := Laws.P_lt_R
  have := Laws.P_pos
  unfold P1
  omega

theorem R2_eq : R2 = (2 ^ 768) ^ 2 % P := by
  rw [R2, Laws.R_eq, ← sq]

/-- An address of the constants window returns a digit of its constant. -/
theorem step_of_constant_read {x : Target} {n : Nat} {j : Fin 12} (hp : s.pending = .read a :: rest) (ht : target a = x)
    (hx : s.peek x = some (digit (felm n) j)) (hn : n < R) :
    step s = .next { s with pending := rest, reply := some (BitVec.ofNat 64 (n / 2 ^ (64 * j.val))) } :=
  step_of_read hp ht (hx.trans (congrArg some (digit_felm hn j)))

theorem target_modulus_window (j : Fin 12) : target (BitVec.ofNat 16 (0x0400 + j.val)) = .modulus j := by
  revert j; decide

theorem target_modulusPlusOne_window (j : Fin 12) : target (BitVec.ofNat 16 (0x0410 + j.val)) = .modulusPlusOne j := by
  revert j; decide

theorem target_rSquared_window (j : Fin 12) : target (BitVec.ofNat 16 (0x0420 + j.val)) = .rSquared j := by
  revert j; decide

/-! ### Writes to the windows -/

theorem step_of_digitReg_write {k : DReg} (hp : s.pending = .write a v :: rest) (ht : target a = .digitReg k) :
    step s = .next ((s.begin rest).writeD k v) := by
  rw [step_of_pending hp, State.perform, State.portWrite, ht]

theorem step_of_felmDigit_write {r : FReg} {j : Fin 12} (hp : s.pending = .write a v :: rest)
    (ht : target a = .felmDigit r j) :
    step s = .next ((s.begin rest).writeF r (setDigit (s.readF r) j v)) := by
  rw [step_of_pending hp, State.perform, State.portWrite, ht]
  rfl

/-! ### The F window -/

/-- What a read of an address of digit j of F[r] does. -/
def ReadsDigit (a : Addr) (r : FReg) (j : Fin 12) : Prop :=
  ∀ (s : State) (rest : List HostEvent), s.pending = .read a :: rest →
    step s = .next { s with pending := rest, reply := some (BitVec.ofNat 64 (s.num r / 2 ^ (64 * j.val))) }

theorem readsDigit_of_target {r : FReg} {j : Fin 12} (ht : target a = .felmDigit r j) : ReadsDigit a r j :=
  fun s _ hp => step_of_read hp ht (congrArg some (digit_eq (s.readF r) j))

/-- What a write of v to an address of digit j of F[r] does. -/
def WritesDigit (a : Addr) (r : FReg) (j : Fin 12) (v : Digit) : Prop :=
  ∀ (s : State) (rest : List HostEvent), s.pending = .write a v :: rest →
    ∃ t, step s = .next t ∧ SameExcept [r] [] { s with pending := rest, reply := none } t ∧ t.draws = s.draws ∧
      t.num r / 2 ^ (64 * j.val) % 2 ^ 64 = v.toNat ∧
      ∀ k : Fin 12, k ≠ j → t.num r / 2 ^ (64 * k.val) % 2 ^ 64 = s.num r / 2 ^ (64 * k.val) % 2 ^ 64

theorem State.num_digit (s : State) (r : FReg) (j : Fin 12) :
    s.num r / 2 ^ (64 * j.val) % 2 ^ 64 = (digit (s.readF r) j).toNat :=
  (digit_toNat (s.readF r) j).symm

theorem writesDigit_of_target {r : FReg} {j : Fin 12} (ht : target a = .felmDigit r j) (v : Digit) :
    WritesDigit a r j v := by
  intro s rest hp
  refine ⟨_, step_of_felmDigit_write hp ht, sameExcept_writeF (s.begin rest) r _, rfl, ?_, fun k hk => ?_⟩
  · rw [State.num_digit, State.readF_writeF_same, digit_setDigit_same]
  · rw [State.num_digit, State.num_digit, State.readF_writeF_same, digit_setDigit_ne _ hk]

/-- An address is in the F window at slot r, offset j, however the number of the slot is written. -/
theorem target_of_slot {n : Nat} {r : FReg} {j : Fin 12} (h : n = 16 * r.val + j.val) :
    target (BitVec.ofNat 16 n) = .felmDigit r j := h ▸ target_F_window r j

/-! ### Refused accesses (R59) -/

/-- A target that refuses reads: unmapped, or write-only (R53). -/
def Target.RefusesRead : Target → Prop
  | .cmd | .ctrl | .unmapped => True
  | .felmDigit _ _ | .digitReg _ | .status | .errinfo | .ident | .modulus _ | .modulusPlusOne _ | .rSquared _ => False

/-- A target that refuses writes: unmapped, or read-only (R53). -/
def Target.RefusesWrite : Target → Prop
  | .status | .errinfo | .ident | .modulus _ | .modulusPlusOne _ | .rSquared _ | .unmapped => True
  | .felmDigit _ _ | .digitReg _ | .cmd | .ctrl => False

theorem State.peek_of_refusesRead {x : Target} (h : x.RefusesRead) (s : State) : s.peek x = none := by
  cases x with
  | cmd | ctrl | unmapped => rfl
  | felmDigit | digitReg | status | errinfo | ident | modulus | modulusPlusOne | rSquared => exact h.elim

theorem State.portWrite_of_refusesWrite (h : (target a).RefusesWrite) (s : State) (v : Digit) :
    s.portWrite a v = .next (s.refuseAccess a) := by
  unfold State.portWrite
  cases ht : target a with
  | status | errinfo | ident | modulus | modulusPlusOne | rSquared | unmapped => rfl
  | felmDigit | digitReg | cmd | ctrl =>
    rw [ht] at h
    exact h.elim

/-- The unmapped addresses (R53): the holes of the F window, and the gaps between the other rows of the map. -/
def Unmapped (n : Nat) : Prop :=
  (n < 0x0200 ∧ 12 ≤ n % 16) ∨ (0x0208 ≤ n ∧ n ≤ 0x02FF) ∨ (0x0305 ≤ n ∧ n ≤ 0x03FF) ∨
    (0x040C ≤ n ∧ n ≤ 0x040F) ∨ (0x041C ≤ n ∧ n ≤ 0x041F) ∨ 0x042C ≤ n

/-- The write-only addresses (R53): CMD and CTRL. -/
def WriteOnly (n : Nat) : Prop := n = 0x0300 ∨ n = 0x0303

/-- The read-only addresses (R53): STATUS, ERRINFO, ID and the constants. -/
def ReadOnly (n : Nat) : Prop :=
  n = 0x0301 ∨ n = 0x0302 ∨ n = 0x0304 ∨ (0x0400 ≤ n ∧ n ≤ 0x040B) ∨ (0x0410 ≤ n ∧ n ≤ 0x041B) ∨
    (0x0420 ≤ n ∧ n ≤ 0x042B)

theorem refusesRead_of_addr (h : Unmapped a.toNat ∨ WriteOnly a.toNat) : (target a).RefusesRead := by
  unfold Unmapped WriteOnly at h
  rcases target_spec a with ⟨r, j, -, hn⟩ | ⟨k, -, hn⟩ | ⟨ht, -⟩ | ⟨-, hn⟩ | ⟨-, hn⟩ | ⟨ht, -⟩ | ⟨-, hn⟩ | ⟨j, -, hn⟩ |
    ⟨j, -, hn⟩ | ⟨j, -, hn⟩ | ⟨ht, -⟩
  · omega
  · omega
  · rw [ht]; trivial
  · omega
  · omega
  · rw [ht]; trivial
  · omega
  · omega
  · omega
  · omega
  · rw [ht]; trivial

theorem refusesWrite_of_addr (h : Unmapped a.toNat ∨ ReadOnly a.toNat) : (target a).RefusesWrite := by
  unfold Unmapped ReadOnly at h
  rcases target_spec a with ⟨r, j, -, hn⟩ | ⟨k, -, hn⟩ | ⟨-, hn⟩ | ⟨ht, -⟩ | ⟨ht, -⟩ | ⟨-, hn⟩ | ⟨ht, -⟩ | ⟨j, ht, -⟩ |
    ⟨j, ht, -⟩ | ⟨j, ht, -⟩ | ⟨ht, -⟩
  · omega
  · omega
  · omega
  · rw [ht]; trivial
  · rw [ht]; trivial
  · omega
  · rw [ht]; trivial
  · rw [ht]; trivial
  · rw [ht]; trivial
  · rw [ht]; trivial
  · rw [ht]; trivial

/-- The state after a refused access: with ERR = 0 it records cause 3 and the address, with ERR = 1 nothing. -/
def State.afterRefusal (s : State) (a : Addr) (rest : List HostEvent) (reply : Option Digit) : State :=
  if s.err then { s with pending := rest, reply := reply }
  else { s with pending := rest, reply := reply, err := true, cause := 3, errinfo := a.setWidth 64 }

theorem begin_refuseAccess (s : State) (rest : List HostEvent) (a : Addr) :
    (s.begin rest).refuseAccess a = s.afterRefusal a rest none :=
  (s.begin rest).refuseAccess_eq a

theorem afterRefusal_answer (s : State) (a : Addr) (rest : List HostEvent) (v : Digit) :
    (s.afterRefusal a rest none).answer v = s.afterRefusal a rest (some v) := by
  unfold State.afterRefusal
  split <;> rfl

theorem step_of_refused_read (hp : s.pending = .read a :: rest) (h : (target a).RefusesRead) :
    step s = .next (s.afterRefusal a rest (some 0)) := by
  have hpeek := (s.begin rest).peek_of_refusesRead h
  rw [step_of_pending hp, State.perform, State.portRead, hpeek, ← afterRefusal_answer, ← begin_refuseAccess]

theorem step_of_refused_write (hp : s.pending = .write a v :: rest) (h : (target a).RefusesWrite) :
    step s = .next (s.afterRefusal a rest none) := by
  rw [step_of_pending hp, State.perform, State.portWrite_of_refusesWrite h, begin_refuseAccess]

end Sys2Proof.Machine
end

section

open Sys2Proof Sys2Proof.Machine Sys2Proof.Config

namespace Sys2Proof.Proofs

/-- Settles O13: each address of the ranges has a target that refuses the access. -/
theorem refusedAccess : Obligations.RefusedAccess := by
  intro s rest a v
  exact ⟨fun hp ha => step_of_refused_read hp (refusesRead_of_addr ha),
    fun hp ha => step_of_refused_write hp (refusesWrite_of_addr ha)⟩

/-- Settles O14: an address of a pair or of a quad is the address of a slot, and each slot is one register. -/
theorem fWindow : Obligations.FWindow := by
  refine ⟨fun s rest r j hp => readsDigit_of_target (target_F_window r j) s rest hp,
    fun s rest r j v hp => writesDigit_of_target (target_F_window r j) v s rest hp,
    fun s rest k h j v => ?_, fun s rest k h j v => ?_⟩
  · have ht : target (BitVec.ofNat 16 (32 * k.val + 16 * h.val + j.val)) = .felmDigit ⟨2 * k.val + h.val, by omega⟩ j :=
      target_of_slot (by dsimp only; omega)
    refine ⟨readsDigit_of_target ht s rest, fun hp => ?_⟩
    obtain ⟨t, hstep, hframe, -, hdigit, -⟩ := writesDigit_of_target ht v s rest hp
    exact ⟨t, hstep, hframe, hdigit⟩
  · have ht : target (BitVec.ofNat 16 (64 * k.val + 16 * h.val + j.val)) = .felmDigit ⟨4 * k.val + h.val, by omega⟩ j :=
      target_of_slot (by dsimp only; omega)
    refine ⟨readsDigit_of_target ht s rest, fun hp => ?_⟩
    obtain ⟨t, hstep, hframe, -, hdigit, -⟩ := writesDigit_of_target ht v s rest hp
    exact ⟨t, hstep, hframe, hdigit⟩

/-- Settles O15: address 0x0200 + k is D[k], read and written. -/
theorem dWindow : Obligations.DWindow := by
  refine ⟨fun s rest k hp => step_of_read hp (target_D_window k) rfl, fun s rest k v hp => ?_⟩
  exact ⟨_, step_of_digitReg_write hp (target_D_window k), sameExcept_writeD (s.begin rest) k v, rfl,
    State.readD_writeD_same _ k v⟩

/-- Settles O16: the three addresses name STATUS, ERRINFO and ID. -/
theorem controlRegisterReads : Obligations.ControlRegisterReads := by
  have hstatus : target 0x0301 = .status := by decide
  have herrinfo : target 0x0302 = .errinfo := by decide
  have hident : target 0x0304 = .ident := by decide
  refine fun s rest => ⟨fun hp => ⟨s.status, step_of_read hp hstatus rfl, ?_⟩, fun hp => step_of_read hp herrinfo rfl,
    fun hp => step_of_read hp hident rfl⟩
  rw [State.status_toNat, Nat.add_comm]
  cases s.err <;> rfl

/-- Settles O17: each constant is below 2^768, so its digits are those of the integer. -/
theorem constantsWindow : Obligations.ConstantsWindow := by
  intro s rest j
  have hP : P < R := by have := Laws.P_lt_R; omega
  refine ⟨fun hp => step_of_constant_read hp (target_modulus_window j) rfl hP,
    fun hp => step_of_constant_read hp (target_modulusPlusOne_window j) rfl P1_lt_R, fun hp => ?_⟩
  rw [← R2_eq]
  exact step_of_constant_read hp (target_rSquared_window j) rfl (Laws.R2_lt.trans hP)

end Sys2Proof.Proofs
end

section
/-! SUPPORT. Two runs of one command (spec/20_memory.md R68, spec/70_reset_and_hazards.md R284): states that agree on the registers
it reads have the same preconditions and the same values to write, so they agree afterwards on the registers it writes. -/

namespace Sys2Proof.Machine

variable {i : Instr} {s₁ s₂ t₁ t₂ : State}

/-- The two states hold the same values in the F registers fs and the D registers ds. -/
structure AgreeOn (fs : List FReg) (ds : List DReg) (s₁ s₂ : State) : Prop where
  regs : ∀ r ∈ fs, s₁.readF r = s₂.readF r
  digits : ∀ k ∈ ds, s₁.readD k = s₂.readD k

/-! ### Reads of agreeing states -/

section Reads

variable {ds : List DReg} {r : FReg}

theorem AgreeOn.readFs_eq {fs : List FReg} (h : AgreeOn fs ds s₁ s₂) : s₁.readFs fs = s₂.readFs fs :=
  List.map_congr_left h.regs

theorem AgreeOn.append_iff {fs gs : List FReg} : AgreeOn (fs ++ gs) ds s₁ s₂ ↔ AgreeOn fs ds s₁ s₂ ∧ AgreeOn gs ds s₁ s₂ := by
  constructor
  · intro h
    exact ⟨⟨fun r hr => h.regs r (List.mem_append_left gs hr), h.digits⟩,
      ⟨fun r hr => h.regs r (List.mem_append_right fs hr), h.digits⟩⟩
  · rintro ⟨hf, hg⟩
    exact ⟨fun r hr => (List.mem_append.1 hr).elim (hf.regs r) (hg.regs r), hf.digits⟩

theorem AgreeOn.readF_eq (h : AgreeOn [r] ds s₁ s₂) : s₁.readF r = s₂.readF r := h.regs r (.head _)

theorem AgreeOn.num_eq (h : AgreeOn [r] ds s₁ s₂) : s₁.num r = s₂.num r := congrArg BitVec.toNat h.readF_eq

theorem AgreeOn.pair_nums_eq (h : AgreeOn (pairRegs r) ds s₁ s₂) :
    s₁.num r = s₂.num r ∧ s₁.num (r + 1) = s₂.num (r + 1) :=
  ⟨congrArg BitVec.toNat (h.regs r (by simp [pairRegs])), congrArg BitVec.toNat (h.regs (r + 1) (by simp [pairRegs]))⟩

theorem AgreeOn.readW_eq (h : AgreeOn (pairRegs r) ds s₁ s₂) : s₁.readW r = s₂.readW r := by
  have hlow := h.regs r (by simp [pairRegs])
  have hhigh := h.regs (r + 1) (by simp [pairRegs])
  rw [State.readW, State.readW, hlow, hhigh]

theorem AgreeOn.selected_eq {fs gs : List FReg} (h : AgreeOn (fs ++ gs) ds s₁ s₂) (m : Digit) :
    s₁.selected m fs gs = s₂.selected m fs gs := by
  obtain ⟨hf, hg⟩ := append_iff.1 h
  rw [State.selected, State.selected, hf.readFs_eq, hg.readFs_eq]

end Reads

/-- The precondition speaks of the sources only. -/
theorem AgreeOn.ready_eq (h : AgreeOn (footprint i).readsF (footprint i).readsD s₁ s₂) : ready i s₁ = ready i s₂ := by
  unfold ready
  cases (footprint i).need with
  | nothing => rfl
  | belowP => simp only [State.valid, h.readFs_eq]
  | mask =>
    rw [Bool.eq_iff_iff, List.all_eq_true, List.all_eq_true]
    exact forall₂_congr fun k hk => by rw [h.digits k hk]

/-! ### The same writes to two states -/

theorem agreeOn_writeF (s₁ s₂ : State) (r : FReg) {v₁ v₂ : Felm} (h : v₁ = v₂) :
    AgreeOn [r] [] (s₁.writeF r v₁) (s₂.writeF r v₂) := by
  subst h
  exact ⟨by simp, by simp⟩

theorem agreeOn_writeD (s₁ s₂ : State) (k : DReg) {v₁ v₂ : Digit} (h : v₁ = v₂) :
    AgreeOn [] [k] (s₁.writeD k v₁) (s₂.writeD k v₂) := by
  subst h
  exact ⟨by simp, by simp⟩

theorem AgreeOn.writeD {fs : List FReg} (ht : AgreeOn fs [] t₁ t₂) (k : DReg) {v₁ v₂ : Digit} (h : v₁ = v₂) :
    AgreeOn fs [k] (t₁.writeD k v₁) (t₂.writeD k v₂) :=
  ⟨ht.regs, (agreeOn_writeD t₁ t₂ k h).digits⟩

/-- A register that gets a result ends with the same result in both states, also if it stands in the list twice. -/
theorem agreeOn_writeFs_zip (s₁ s₂ : State) {dests : List FReg} {results₁ results₂ : List Felm} (h : results₁ = results₂)
    (hlen : dests.length ≤ results₁.length) :
    AgreeOn dests [] (s₁.writeFs (dests.zip results₁)) (s₂.writeFs (dests.zip results₂)) := by
  subst h
  refine ⟨fun r hr => ?_, by simp⟩
  induction dests generalizing results₁ s₁ s₂ with
  | nil => cases hr
  | cons a dests ih =>
    cases results₁ with
    | nil => simp at hlen
    | cons x results =>
      simp only [List.zip_cons_cons, State.writeFs_cons]
      by_cases hm : r ∈ dests
      · exact ih _ _ (by simpa using hlen) hm
      · obtain rfl : r = a := (List.mem_cons.1 hr).resolve_right hm
        simp only [(sameExcept_writeFs_zip _ dests results).regs r hm, State.readF_writeF_same]

theorem agreeOn_writeW (s₁ s₂ : State) (r : FReg) {v₁ v₂ : Wide} (h : v₁ = v₂) :
    AgreeOn (pairRegs r) [] (s₁.writeW r v₁) (s₂.writeW r v₂) :=
  h ▸ agreeOn_writeFs_zip s₁ s₂ (dests := pairRegs r) (results₁ := [v₁.extractLsb' 0 768, v₁.extractLsb' 768 768]) rfl
    (Nat.le_refl 2)

/-! ### Two runs of a command -/

/-- Both runs answer a next state, and these agree on the registers the command writes. -/
def RunsAgree (i : Instr) (s₁ s₂ : State) : Prop :=
  ∃ t₁ t₂, exec i s₁ = .next t₁ ∧ exec i s₂ = .next t₂ ∧ AgreeOn (footprint i).writesF (footprint i).writesD t₁ t₂

/-- Two runs of a command with a precondition that holds agree if they have the same results, one for each destination. -/
theorem RunsAgree.of_complete {pre₁ pre₂ : Bool} {results₁ results₂ : List Felm}
    (e₁ : exec i s₁ = s₁.complete i pre₁ (footprint i).writesF results₁)
    (e₂ : exec i s₂ = s₂.complete i pre₂ (footprint i).writesF results₂)
    (h₁ : pre₁ = true) (h₂ : pre₂ = true) (hw : (footprint i).writesD = []) (h : results₁ = results₂)
    (hlen : (footprint i).writesF.length ≤ results₁.length) : RunsAgree i s₁ s₂ :=
  ⟨_, _, e₁.trans (State.complete_of_pre h₁ s₁), e₂.trans (State.complete_of_pre h₂ s₂),
    hw ▸ agreeOn_writeFs_zip s₁ s₂ h hlen⟩

theorem State.length_selected (s : State) (m : Digit) (xs ys : List FReg) :
    (s.selected m xs ys).length = min xs.length ys.length := by
  simp [State.selected, State.readFs]

/-- Two runs of a command on a mask agree if the same mask gives the same results. -/
theorem RunsAgree.of_mask {dests srcs : List FReg} {dd : DReg} {results : Digit → State → List Felm}
    (he : ∀ s, exec i s = s.complete i (validMask (s.readD dd)) dests (results (s.readD dd) s))
    (hf : footprint i = ⟨dests, srcs, [], [dd], .mask⟩) (h : AgreeOn srcs [dd] s₁ s₂)
    (h₁ : ready i s₁ = true) (h₂ : ready i s₂ = true) (hresults : ∀ m, results m s₁ = results m s₂)
    (hlen : ∀ m, dests.length ≤ (results m s₁).length) : RunsAgree i s₁ s₂ := by
  have hmask : s₁.readD dd = s₂.readD dd := h.digits dd (.head _)
  rw [ready_of_need_mask (by rw [hf]) (by rw [hf])] at h₁ h₂
  have hw : (footprint i).writesF = dests := by rw [hf]
  exact .of_complete (hw ▸ he s₁) (hw ▸ he s₂) h₁ h₂ (by rw [hf]) (by rw [hmask, hresults]) (hw ▸ hlen _)

theorem RunsAgree.of_select {zs xs ys : List FReg} {dd : DReg} (he : ∀ s, exec i s = s.select i zs xs ys dd)
    (hf : footprint i = ⟨zs, xs ++ ys, [], [dd], .mask⟩) (hlen : zs.length ≤ min xs.length ys.length)
    (h : AgreeOn (xs ++ ys) [dd] s₁ s₂) (h₁ : ready i s₁ = true) (h₂ : ready i s₂ = true) : RunsAgree i s₁ s₂ :=
  .of_mask (results := fun m s => s.selected m xs ys) he hf h h₁ h₂ h.selected_eq fun m => by
    rwa [State.length_selected]

/-- Both groups of a swap are read before either is written (R221). -/
theorem RunsAgree.of_swap {ps qs : List FReg} {dd : DReg} (he : ∀ s, exec i s = s.swap i ps qs dd)
    (hf : footprint i = ⟨ps ++ qs, ps ++ qs, [], [dd], .mask⟩) (hlen : ps.length = qs.length)
    (h : AgreeOn (ps ++ qs) [dd] s₁ s₂) (h₁ : ready i s₁ = true) (h₂ : ready i s₂ = true) : RunsAgree i s₁ s₂ := by
  have h' : AgreeOn (qs ++ ps) [dd] s₁ s₂ := AgreeOn.append_iff.2 (AgreeOn.append_iff.1 h).symm
  refine .of_mask (results := fun m s => s.selected m ps qs ++ s.selected m qs ps) he hf h h₁ h₂ (fun m => ?_) fun m => ?_
  · rw [h.selected_eq, h'.selected_eq]
  · simp [State.length_selected, hlen]

/-- The destinations of each of the 43 commands agree after two runs from states that agree on its sources. -/
theorem AgreeOn.runsAgree (h : AgreeOn (footprint i).readsF (footprint i).readsD s₁ s₂) (h₁ : ready i s₁ = true) :
    RunsAgree i s₁ s₂ := by
  have h₂ : ready i s₂ = true := h.ready_eq ▸ h₁
  cases i with
  | mpcopy ra rb | mpshr1 ra rb | mpshl1 ra rb =>
    exact ⟨_, _, rfl, rfl, agreeOn_writeF _ _ ra (by rw [h.readF_eq])⟩
  | mpzero ra => exact ⟨_, _, rfl, rfl, agreeOn_writeF _ _ ra rfl⟩
  | mpadd ra rb rc dd | mpsub ra rb rc dd =>
    obtain ⟨hb, hc⟩ := append_iff (fs := [rb]).1 h
    exact ⟨_, _, rfl, rfl, (agreeOn_writeF _ _ ra (by rw [hb.readF_eq, hc.readF_eq])).writeD dd
      (by rw [hb.readF_eq, hc.readF_eq])⟩
  | mpiszero rb dd | mpiseven rb dd => exact ⟨_, _, rfl, rfl, agreeOn_writeD _ _ dd (by rw [h.readF_eq])⟩
  | mpislt rb rc dd =>
    obtain ⟨hb, hc⟩ := append_iff (fs := [rb]).1 h
    exact ⟨_, _, rfl, rfl, agreeOn_writeD _ _ dd (by rw [hb.readF_eq, hc.readF_eq])⟩
  | mpcopyw ra rb | mpshr1w ra rb | mpshl1w ra rb =>
    exact ⟨_, _, rfl, rfl, agreeOn_writeW _ _ ra (by rw [h.readW_eq])⟩
  | mpzerow ra => exact ⟨_, _, rfl, rfl, agreeOn_writeW _ _ ra rfl⟩
  | mpaddw ra rb rc dd | mpsubw ra rb rc dd =>
    obtain ⟨hb, hc⟩ := append_iff.1 h
    exact ⟨_, _, rfl, rfl, (agreeOn_writeW _ _ ra (by rw [hb.readW_eq, hc.readW_eq])).writeD dd
      (by rw [hb.readW_eq, hc.readW_eq])⟩
  | mpiszerow rb dd | mpisevenw rb dd => exact ⟨_, _, rfl, rfl, agreeOn_writeD _ _ dd (by rw [h.readW_eq])⟩
  | mpisltw rb rc dd =>
    obtain ⟨hb, hc⟩ := append_iff.1 h
    exact ⟨_, _, rfl, rfl, agreeOn_writeD _ _ dd (by rw [hb.readW_eq, hc.readW_eq])⟩
  | f2copy ra rb => exact ⟨_, _, rfl, rfl, agreeOn_writeFs_zip _ _ h.readFs_eq (Nat.le_refl 2)⟩
  | f2zero ra => exact ⟨_, _, rfl, rfl, agreeOn_writeFs_zip _ _ rfl (Nat.le_refl 2)⟩
  | fpneg ra rb | fpdiv2 ra rb | fptomont ra rb | fpfrommont ra rb | fpsqr ra rb | fpinv ra rb =>
    exact .of_complete rfl rfl h₁ h₂ rfl (by rw [h.num_eq]) (Nat.le_refl 1)
  | fpadd ra rb rc | fpsub ra rb rc | fpmul ra rb rc =>
    obtain ⟨hb, hc⟩ := append_iff (fs := [rb]).1 h
    exact .of_complete rfl rfl h₁ h₂ rfl (by rw [hb.num_eq, hc.num_eq]) (Nat.le_refl 1)
  | f2neg ra rb | f2div2 ra rb | f2sqr ra rb | f2inv ra rb | f2tomont ra rb | f2frommont ra rb =>
    obtain ⟨h0, h1⟩ := h.pair_nums_eq
    exact .of_complete rfl rfl h₁ h₂ rfl (by rw [h0, h1]) (Nat.le_refl 2)
  | f2add ra rb rc | f2sub ra rb rc | f2mul ra rb rc =>
    obtain ⟨hb, hc⟩ := append_iff.1 h
    obtain ⟨hb0, hb1⟩ := hb.pair_nums_eq
    obtain ⟨hc0, hc1⟩ := hc.pair_nums_eq
    exact .of_complete rfl rfl h₁ h₂ rfl (by rw [hb0, hb1, hc0, hc1]) (Nat.le_refl 2)
  | self ra rb rc dd => exact .of_select (xs := [rb]) (ys := [rc]) (fun _ => rfl) rfl (Nat.le_refl 1) h h₁ h₂
  | self2 ra rb rc dd => exact .of_select (fun _ => rfl) rfl (Nat.le_refl 2) h h₁ h₂
  | selpt ra rb rc dd => exact .of_select (fun _ => rfl) rfl (Nat.le_refl 4) h h₁ h₂
  | swappb ra rb dd => exact .of_swap (fun _ => rfl) rfl rfl h h₁ h₂
  | swappt ra rb dd => exact .of_swap (fun _ => rfl) rfl rfl h h₁ h₂

end Sys2Proof.Machine
end

section

open Sys2Proof Sys2Proof.Machine

namespace Sys2Proof.Proofs

/-- Settles O25: states that agree on the sources agree on the values written, which the destinations then hold. -/
theorem resultsDependOnTheSourcesAlone : Obligations.ResultsDependOnTheSourcesAlone := by
  intro i s₁ s₂ _ hr hF hD
  obtain ⟨t₁, t₂, he₁, he₂, hagree⟩ := AgreeOn.runsAgree ⟨hF, hD⟩ hr
  exact ⟨t₁, t₂, he₁, he₂, hagree.regs, hagree.digits⟩

end Sys2Proof.Proofs
end

section
/-! SUPPORT. The decoder and the encoder are inverse to each other (spec/30_encoding.md R80 to R84): a word that matches a row
decodes to that row's command, the word of a well-formed command decodes to it, and the register groups of a decoded
command are aligned. -/

namespace Sys2Proof.Laws

variable {w : Command} {row : OpRow}

/-! ### The row of a word (R83, R84) -/

/-- A word that matches a row has the row's opcode: every mask covers bits 31:24. -/
theorem fieldOp_of_match (hrow : row ∈ opTable) (hm : w &&& row.mask = row.pattern) : fieldOp w = row.op := by
  obtain ⟨hmask, hpattern⟩ := opTable_masks row hrow
  rw [hmask, hpattern, maskOf_eq] at hm
  exact op_of_mask hm

/-- A word that matches a row decodes to the command the row builds from its fields. -/
theorem decode_of_match (hrow : row ∈ opTable) (hm : w &&& row.mask = row.pattern) :
    decode w = .ok (row.build (fieldRa w) (fieldRb w) (fieldRc w) (fieldDd w)) := by
  have hmatch : row.matchesWord w := beq_iff_eq.2 hm
  rw [decode, fieldOp_of_match hrow hm, find_row hrow]
  exact if_pos hmatch

/-! ### The round trip from a command -/

/-- An assembled word that matches the row of its opcode decodes to what that row builds from its fields. -/
theorem decode_assemble {op : BitVec 8} {ra rb rc : FReg} {dd : DReg} {i : Instr}
    (hlegal : ∃ row ∈ opTable, row.op = fieldOp (assemble op ra rb rc dd) ∧
      row.matchesWord (assemble op ra rb rc dd) = true)
    (hbuild : (opTable.find? fun row => row.op == op).map (fun row => row.build ra rb rc dd) = some i) :
    decode (assemble op ra rb rc dd) = .ok i := by
  obtain ⟨row, hrow, hop, hm⟩ := hlegal
  rw [fieldOp_assemble] at hop
  rw [← hop, find_row hrow] at hbuild
  rw [decode_of_match hrow (beq_iff_eq.1 hm), fieldRa_assemble, fieldRb_assemble, fieldRc_assemble, fieldDd_assemble]
  exact congrArg Except.ok (Option.some.inj hbuild)

open EncodeMatchesRow in
/-- The word of a well-formed command decodes to the command: the word is legal, and the row of its opcode builds the command
from the operands. -/
theorem decode_encode : ∀ i : Instr, i.wellFormed = true → decode (encode i) = .ok i
  | .mpcopy ra rb, h => decode_assemble (mpcopy ra rb h) rfl
  | .mpzero ra, h => decode_assemble (mpzero ra h) rfl
  | .mpadd ra rb rc dd, h => decode_assemble (mpadd ra rb rc dd h) rfl
  | .mpsub ra rb rc dd, h => decode_assemble (mpsub ra rb rc dd h) rfl
  | .mpshr1 ra rb, h => decode_assemble (mpshr1 ra rb h) rfl
  | .mpshl1 ra rb, h => decode_assemble (mpshl1 ra rb h) rfl
  | .mpiszero rb dd, h => decode_assemble (mpiszero rb dd h) rfl
  | .mpiseven rb dd, h => decode_assemble (mpiseven rb dd h) rfl
  | .mpislt rb rc dd, h => decode_assemble (mpislt rb rc dd h) rfl
  | .mpcopyw ra rb, h => decode_assemble (mpcopyw ra rb h) rfl
  | .mpzerow ra, h => decode_assemble (mpzerow ra h) rfl
  | .mpaddw ra rb rc dd, h => decode_assemble (mpaddw ra rb rc dd h) rfl
  | .mpsubw ra rb rc dd, h => decode_assemble (mpsubw ra rb rc dd h) rfl
  | .mpshr1w ra rb, h => decode_assemble (mpshr1w ra rb h) rfl
  | .mpshl1w ra rb, h => decode_assemble (mpshl1w ra rb h) rfl
  | .mpiszerow rb dd, h => decode_assemble (mpiszerow rb dd h) rfl
  | .mpisevenw rb dd, h => decode_assemble (mpisevenw rb dd h) rfl
  | .mpisltw rb rc dd, h => decode_assemble (mpisltw rb rc dd h) rfl
  | .fpadd ra rb rc, h => decode_assemble (fpadd ra rb rc h) rfl
  | .fpsub ra rb rc, h => decode_assemble (fpsub ra rb rc h) rfl
  | .fpneg ra rb, h => decode_assemble (fpneg ra rb h) rfl
  | .fpdiv2 ra rb, h => decode_assemble (fpdiv2 ra rb h) rfl
  | .fptomont ra rb, h => decode_assemble (fptomont ra rb h) rfl
  | .fpfrommont ra rb, h => decode_assemble (fpfrommont ra rb h) rfl
  | .fpmul ra rb rc, h => decode_assemble (fpmul ra rb rc h) rfl
  | .fpsqr ra rb, h => decode_assemble (fpsqr ra rb h) rfl
  | .fpinv ra rb, h => decode_assemble (fpinv ra rb h) rfl
  | .f2add ra rb rc, h => decode_assemble (f2add ra rb rc h) rfl
  | .f2sub ra rb rc, h => decode_assemble (f2sub ra rb rc h) rfl
  | .f2neg ra rb, h => decode_assemble (f2neg ra rb h) rfl
  | .f2div2 ra rb, h => decode_assemble (f2div2 ra rb h) rfl
  | .f2copy ra rb, h => decode_assemble (f2copy ra rb h) rfl
  | .f2zero ra, h => decode_assemble (f2zero ra h) rfl
  | .f2sqr ra rb, h => decode_assemble (f2sqr ra rb h) rfl
  | .f2mul ra rb rc, h => decode_assemble (f2mul ra rb rc h) rfl
  | .f2inv ra rb, h => decode_assemble (f2inv ra rb h) rfl
  | .f2tomont ra rb, h => decode_assemble (f2tomont ra rb h) rfl
  | .f2frommont ra rb, h => decode_assemble (f2frommont ra rb h) rfl
  | .self ra rb rc dd, h => decode_assemble (self ra rb rc dd h) rfl
  | .self2 ra rb rc dd, h => decode_assemble (self2 ra rb rc dd h) rfl
  | .selpt ra rb rc dd, h => decode_assemble (selpt ra rb rc dd h) rfl
  | .swappb ra rb dd, h => decode_assemble (swappb ra rb dd h) rfl
  | .swappt ra rb dd, h => decode_assemble (swappt ra rb dd h) rfl

/-! ### The groups of a decoded command (R82) -/

/-- A register field as a list of groups: none where the format does not use it (R81). -/
def usedReg (used : Bool) (r : FReg) : List FReg := if used then [r] else []

/-- The groups of a row's command are the register fields the row's format uses, of the row's group size. -/
theorem groups_build : ∀ row ∈ opTable, ∀ (ra rb rc : FReg) (dd : DReg),
    (row.build ra rb rc dd).groupSize = row.group ∧
    (row.build ra rb rc dd).groups =
      usedReg (usesRa row.format) ra ++ usedReg (usesRb row.format) rb ++ usedReg (usesRc row.format) rc := by
  intro row hrow
  fin_cases hrow <;> exact fun _ _ _ _ => ⟨rfl, rfl⟩

theorem opTable_groups : ∀ row ∈ opTable, row.group = 1 ∨ row.group = 2 ∨ row.group = 4 := by decide

/-- A register field that passes its row's mask is aligned where the format uses it. -/
theorem aligned_of_usedReg {used : Bool} {g : Nat} {b : BitVec 5} (hg : g = 1 ∨ g = 2 ∨ g = 4)
    (h : b &&& regMask used g = 0#5) : (usedReg used b.toFin).all (aligned g) = true := by
  cases used
  · rfl
  · exact (Bool.and_true _).trans (aligned_of_and hg h)

/-- A word that decodes is the word of a well-formed command. -/
theorem wellFormed_of_decode {i : Instr} (h : decode w = .ok i) : i.wellFormed = true := by
  obtain ⟨row, hrow, hm, rfl⟩ := row_of_decode h
  obtain ⟨hmask, hpattern⟩ := opTable_masks row hrow
  rw [hmask, hpattern, maskOf_eq] at hm
  obtain ⟨hsize, hgroups⟩ := groups_build row hrow (fieldRa w) (fieldRb w) (fieldRc w) (fieldDd w)
  have hg := opTable_groups row hrow
  rw [Instr.wellFormed, hsize, hgroups, List.all_append, List.all_append, Bool.and_eq_true, Bool.and_eq_true]
  exact ⟨⟨aligned_of_usedReg hg (ra_of_mask hm), aligned_of_usedReg hg (rb_of_mask hm)⟩,
    aligned_of_usedReg hg (rc_of_mask hm)⟩

/-! ### Opcodes (R80, R85, R87) -/

/-- A pattern is the opcode with zeros elsewhere. -/
theorem append_zero_fields (op : BitVec 8) :
    (op ++ 0#5 ++ 0#5 ++ 0#5 ++ 0#3 ++ 0#6 : BitVec 32) = (op ++ 0#24 : BitVec 32) := by
  refine BitVec.eq_of_toNat_eq ?_
  simp only [BitVec.toNat_append, BitVec.toNat_ofNat, Nat.zero_mod, Nat.or_zero, ← Nat.shiftLeft_add]

/-- The rows' opcodes, as ranges of a first opcode and a length. -/
theorem opTable_ops : opTable.map (fun row => row.op.toNat) =
    List.range' 0x10 9 ++ List.range' 0x20 9 ++ List.range' 0x30 4 ++ List.range' 0x38 5 ++ List.range' 0x40 11 ++
      List.range' 0x50 3 ++ List.range' 0x54 2 := by rfl

/-- The opcode is the word's number over 2^24. -/
theorem fieldOp_toNat (w : Command) : (fieldOp w).toNat = w.toNat / 2 ^ 24 := by
  rw [fieldOp, BitVec.extractLsb'_toNat, Nat.shiftRight_eq_div_pow]
  exact Nat.mod_eq_of_lt (Nat.div_lt_of_lt_mul w.isLt)

theorem decode_illegalOpcode_iff (w : Command) :
    decode w = .error .illegalOpcode ↔ ∀ row ∈ opTable, row.op ≠ fieldOp w := by
  refine ⟨fun h row hrow hop => ?_, decode_of_no_row⟩
  by_cases hm : w &&& row.mask = row.pattern
  · cases (decode_of_match hrow hm).symm.trans h
  · cases (decode_of_must_be_zero hrow hop hm).symm.trans h

/-- `decode_illegalOpcode_iff` over opcodes as numbers, the form of the ranges of R87. -/
theorem decode_illegalOpcode_iff_not_mem (w : Command) :
    decode w = .error .illegalOpcode ↔ w.toNat / 2 ^ 24 ∉ opTable.map (fun row => row.op.toNat) := by
  rw [decode_illegalOpcode_iff, ← fieldOp_toNat]
  simp [BitVec.toNat_inj]

end Sys2Proof.Laws
end

section

open Sys2Proof Sys2Proof.Machine Sys2Proof.Laws

namespace Sys2Proof.Proofs

/-- Settles O2: the word matches the row of its opcode, and that row builds the command back from the word's fields. -/
theorem decodeOfEncode : Obligations.DecodeOfEncode := decode_encode

/-- Settles O3: the mask check zeroes the unused fields and the low bits of the used ones. -/
theorem encodeOfDecode : Obligations.EncodeOfDecode :=
  fun _ _ h => ⟨encode_of_decode h, wellFormed_of_decode h⟩

/-- Settles O4: a word that decodes passed the mask of its opcode's row, and a word that matches a row decodes to its command. -/
theorem legalWordsAreThoseOfTheRows : Obligations.LegalWordsAreThoseOfTheRows := by
  refine ⟨fun row hrow => ?_, fun w => ⟨fun ⟨i, hi⟩ => ?_, fun ⟨row, hrow, hm⟩ => ⟨_, decode_of_match hrow hm⟩⟩⟩
  · obtain ⟨hmask, hpattern⟩ := opTable_masks row hrow
    exact ⟨hmask, hpattern.trans (append_zero_fields row.op)⟩
  · obtain ⟨row, hrow, hm, -⟩ := row_of_decode hi
    exact ⟨row, hrow, hm⟩

/-- Settles O5: a word that matched two rows would have the opcodes of both, and the opcodes of the rows differ. -/
theorem noWordMatchesTwoRows : Obligations.NoWordMatchesTwoRows := by
  have hops : opTable.Pairwise fun r₁ r₂ => r₁.op ≠ r₂.op := List.pairwise_map.1 opTable_ops_nodup
  exact hops.imp_of_mem fun h₁ h₂ hne w ⟨hm₁, hm₂⟩ =>
    hne ((fieldOp_of_match h₁ hm₁).symm.trans (fieldOp_of_match h₂ hm₂))

/-- Settles O6: the listed ranges are what the ranges of the rows' opcodes leave. -/
theorem illegalOpcodesAreTheListedRanges : Obligations.IllegalOpcodesAreTheListedRanges := by
  intro w
  rw [decode_illegalOpcode_iff_not_mem, opTable_ops]
  simp only [List.mem_append, List.mem_range'_1]
  omega

/-- Settles O11: every host event has an outcome, and an idle step holds the state (`step_queue`). -/
theorem everyStepAnswersANextState : Obligations.EveryStepAnswersANextState := by
  intro s
  obtain ⟨t, ht, -⟩ := step_queue s
  exact ⟨t, ht⟩

/-- Settles O1: each word, laid out field by field, is that of a well-formed command. -/
theorem decodeExampleWords : Obligations.DecodeExampleWords :=
  ⟨decode_encode (.f2zero 10) rfl, decode_encode (.fpinv 2 1) rfl, decode_encode (.f2mul 2 4 6) rfl,
    decode_encode (.mpadd 3 1 2 1) rfl, decode_encode (.mpiszero 7 2) rfl, decode_encode (.mpislt 4 5 0) rfl,
    decode_encode (.self 0 1 2 7) rfl, decode_encode (.swappt 0 4 3) rfl⟩

end Sys2Proof.Proofs
end

section
/-! SUPPORT. How a command without a precondition completes, said once for each shape of write the digit layer ends with
(spec/40_digit_layer.md R100): an F register, a wide pair, a D register, or a D register after one of the others. -/

namespace Sys2Proof.Machine

variable {i j : Instr} {s t : State} {fs : List FReg} {ds : List DReg} {post : State → Prop}

/-! ### Completion, by the writes a command ends with -/

theorem Completes.of_writeF {r : FReg} {v : Felm} (he : exec i s = .next (s.writeF r v))
    (hp : ∀ t : State, t.readF r = v → post t) : Completes i s [r] [] post :=
  ⟨_, he, sameExcept_writeF s r v, rfl, hp _ (s.readF_writeF_same r v)⟩

theorem Completes.of_writeD {k : DReg} {d : Digit} (he : exec i s = .next (s.writeD k d))
    (hp : ∀ t : State, t.readD k = d → post t) : Completes i s [] [k] post :=
  ⟨_, he, sameExcept_writeD s k d, rfl, hp _ (s.readD_writeD_same k d)⟩

theorem Completes.of_writeF_writeD {r : FReg} {v : Felm} {k : DReg} {d : Digit}
    (he : exec i s = .next ((s.writeF r v).writeD k d))
    (hp : ∀ t : State, t.readF r = v → t.readD k = d → post t) : Completes i s [r] [k] post :=
  ⟨_, he, (sameExcept_writeF s r v).writeD k d, rfl,
    hp _ (s.readF_writeF_same r v) ((s.writeF r v).readD_writeD_same k d)⟩

@[simp] theorem State.readW_writeW_same (s : State) (r : FReg) (v : Wide) : (s.writeW r v).readW r = v :=
  BitVec.eq_of_toNat_eq ((State.readW_toNat _ r).trans (s.wideNum_writeW r v))

theorem Completes.of_writeW {r : FReg} {v : Wide} (he : exec i s = .next (s.writeW r v))
    (hp : ∀ t : State, t.readW r = v → post t) : Completes i s [r, r + 1] [] post :=
  ⟨_, he, s.sameExcept_writeW r v, s.writeW_draws r v, hp _ (s.readW_writeW_same r v)⟩

theorem Completes.of_writeW_writeD {r : FReg} {v : Wide} {k : DReg} {d : Digit}
    (he : exec i s = .next ((s.writeW r v).writeD k d))
    (hp : ∀ t : State, t.readW r = v → t.readD k = d → post t) : Completes i s [r, r + 1] [k] post :=
  ⟨_, he, (s.sameExcept_writeW r v).writeD k d, s.writeW_draws r v,
    hp _ (s.readW_writeW_same r v) ((s.writeW r v).readD_writeD_same k d)⟩

/-- A command with the effect of another completes as that one does. -/
theorem Completes.of_exec_eq (he : exec i s = exec j s) (h : Completes j s fs ds post) : Completes i s fs ds post := by
  rwa [Completes, he]

/-! ### The integers in registers, by their bit patterns (R12) -/

theorem State.num_of_readF {r : FReg} {v : Felm} (h : t.readF r = v) : t.num r = v.toNat :=
  congrArg BitVec.toNat h

theorem State.wideNum_of_readW {r : FReg} {v : Wide} (h : t.readW r = v) : t.wideNum r = v.toNat := by
  rw [← State.readW_toNat, h]

/-- Equal wide views are equal registers, the low and the high one. -/
theorem State.readF_pair_of_readW_eq {r q : FReg} (h : t.readW r = s.readW q) :
    t.readF r = s.readF q ∧ t.readF (r + 1) = s.readF (q + 1) := by
  rw [← t.readW_low, ← t.readW_high, h, s.readW_low, s.readW_high]
  exact ⟨rfl, rfl⟩

theorem zero_extractLsb' (k n m : Nat) : (0 : BitVec n).extractLsb' k m = 0 :=
  BitVec.eq_of_getLsbD_eq fun _ _ => by simp

theorem State.readF_pair_of_readW_eq_zero {r : FReg} (h : t.readW r = 0) :
    t.readF r = 0 ∧ t.readF (r + 1) = 0 := by
  rw [← t.readW_low, ← t.readW_high, h, zero_extractLsb', zero_extractLsb']
  exact ⟨rfl, rfl⟩

/-! ### Wide integers by their two halves (R117 to R119) -/

theorem State.wideNum_eq_zero_iff (s : State) (r : FReg) : s.wideNum r = 0 ↔ s.num r = 0 ∧ s.num (r + 1) = 0 := by
  unfold State.wideNum
  omega

/-- The weight of the high register is even, so the low register decides. -/
theorem State.wideNum_mod_two (s : State) (r : FReg) : s.wideNum r % 2 = s.num r % 2 := by
  unfold State.wideNum
  omega

/-- The low register stays below the weight of the high one, so the high registers are compared first. -/
theorem State.wideNum_lt_iff (s : State) (r q : FReg) :
    s.wideNum r < s.wideNum q ↔ s.num (r + 1) < s.num (q + 1) ∨ (s.num (r + 1) = s.num (q + 1) ∧ s.num r < s.num q) := by
  have hr := (s.readF r).isLt
  have hq := (s.readF q).isLt
  unfold State.wideNum State.num
  omega

/-! ### Bit vector operations as integer operations, for every width -/

/-- `BitVec.toNat_add` with the power the statements use: Mathlib's, which at width 1536 is not unified with core's by
evaluation. -/
theorem toNat_add_mod {n : Nat} (a b : BitVec n) : (a + b).toNat = (a.toNat + b.toNat) % 2 ^ n :=
  BitVec.toNat_add a b

/-- `sub_toInt` with the modulus as a power of integers. -/
theorem toNat_sub_emod {n : Nat} (a b : BitVec n) :
    ((a - b).toNat : Int) = ((a.toNat : Int) - b.toNat) % 2 ^ n := by
  rw [sub_toInt, Nat.cast_pow, Nat.cast_ofNat]

theorem toNat_ushiftRight_one {n : Nat} (a : BitVec n) : (a >>> 1).toNat = a.toNat / 2 := by
  rw [BitVec.toNat_ushiftRight, Nat.shiftRight_one]

theorem toNat_shiftLeft_one {n : Nat} (a : BitVec n) : (a <<< 1).toNat = 2 * a.toNat % 2 ^ n := by
  rw [BitVec.toNat_shiftLeft, Nat.shiftLeft_eq, Nat.pow_one, Nat.mul_comm]

/-! ### The wide copy and zero are those of GF(p²) (R111, R112) -/

theorem State.writeW_readW (s : State) (r q : FReg) :
    s.writeW r (s.readW q) = s.writeFs ((pairRegs r).zip (s.readFs (pairRegs q))) := by
  rw [State.writeW, s.readW_low, s.readW_high]
  rfl

theorem State.writeW_zero (s : State) (r : FReg) : s.writeW r 0 = s.writeFs ((pairRegs r).zip [0, 0]) := by
  rw [State.writeW, zero_extractLsb', zero_extractLsb']
  rfl

theorem exec_mpcopyw_eq_f2copy (s : State) (ra rb : FReg) : exec (.mpcopyw ra rb) s = exec (.f2copy ra rb) s :=
  congrArg Host.Outcome.next (s.writeW_readW ra rb)

theorem exec_mpzerow_eq_f2zero (s : State) (ra : FReg) : exec (.mpzerow ra) s = exec (.f2zero ra) s :=
  congrArg Host.Outcome.next (s.writeW_zero ra)

end Sys2Proof.Machine
end

section

open Sys2Proof Sys2Proof.Machine

namespace Sys2Proof.Proofs

/-- Settles O29: the sum and the difference of bit vectors are those modulo 2^768, with `carryOut` and `borrowOut` beside
them. -/
theorem narrowAddAndSubtract : Obligations.NarrowAddAndSubtract := by
  intro s ra rb rc dd
  constructor
  · refine .of_writeF_writeD rfl fun t hsum hcarry => ⟨?_, ?_⟩
    · rw [State.num_of_readF hsum, toNat_add_mod, State.num, State.num]
    · rw [hcarry, carryOut_toNat, State.num, State.num]
  · refine .of_writeF_writeD rfl fun t hdiff hborrow => ⟨?_, ?_⟩
    · rw [State.num_of_readF hdiff, toNat_sub_emod, State.num, State.num]
    · rw [hborrow, borrowOut_eq, State.num, State.num]

/-- Settles O30: as O29, with the wide views read as 1536-bit integers. -/
theorem wideAddAndSubtract : Obligations.WideAddAndSubtract := by
  intro s ra rb rc dd
  constructor
  · refine .of_writeW_writeD rfl fun t hsum hcarry => ⟨?_, ?_⟩
    · rw [State.wideNum_of_readW hsum, toNat_add_mod, State.readW_toNat, State.readW_toNat]
    · rw [hcarry, carryOut_toNat, State.readW_toNat, State.readW_toNat]
  · refine .of_writeW_writeD rfl fun t hdiff hborrow => ⟨?_, ?_⟩
    · rw [State.wideNum_of_readW hdiff, toNat_sub_emod, State.readW_toNat, State.readW_toNat]
    · rw [hborrow, borrowOut_eq, State.readW_toNat, State.readW_toNat]

/-- Settles O31: a shift by one bit halves or doubles, at both widths. -/
theorem oneBitShifts : Obligations.OneBitShifts := by
  intro s ra rb
  refine ⟨.of_writeF rfl fun t h => ?_, .of_writeF rfl fun t h => ?_, .of_writeW rfl fun t h => ?_,
    .of_writeW rfl fun t h => ?_⟩
  · rw [State.num_of_readF h, toNat_ushiftRight_one, State.num]
  · rw [State.num_of_readF h, toNat_shiftLeft_one, State.num]
  · rw [State.wideNum_of_readW h, toNat_ushiftRight_one, State.readW_toNat]
  · rw [State.wideNum_of_readW h, toNat_shiftLeft_one, State.readW_toNat]

/-- Settles O32: the digit written says the comparison of integers; the wide ones are taken apart into their halves. -/
theorem digitPredicates : Obligations.DigitPredicates := by
  intro s rb rc dd
  refine ⟨.of_writeD rfl fun t h => ?zero, .of_writeD rfl fun t h => ?even, .of_writeD rfl fun t h => ?less,
    .of_writeD rfl fun t h => ?zeroWide, .of_writeD rfl fun t h => ?evenWide, .of_writeD rfl fun t h => ?lessWide⟩
  case zero => rw [h, isZero_eq, State.num]
  case even => rw [h, isEven_eq, State.num]
  case less => rw [h, isLess_eq, State.num, State.num]
  case zeroWide => simp only [h, isZero_eq, State.readW_toNat, State.wideNum_eq_zero_iff]
  case evenWide => rw [h, isEven_eq, State.readW_toNat, State.wideNum_mod_two]
  case lessWide => simp only [h, isLess_eq, State.readW_toNat, State.wideNum_lt_iff]

/-- Settles O28: MPCOPYW and MPZEROW write the same two registers as the pair commands. -/
theorem wideAndPairCommandsAgree : Obligations.WideAndPairCommandsAgree := fun s ra rb =>
  ⟨exec_mpcopyw_eq_f2copy s ra rb, exec_mpzerow_eq_f2zero s ra⟩

/-- Settles O27: the wide commands write the wide view as a whole, and the pair commands have their effect (O28). -/
theorem copiesAndZeros : Obligations.CopiesAndZeros := by
  intro s ra rb
  have hcopy : Completes (.mpcopyw ra rb) s [ra, ra + 1] []
      (fun t => t.readF ra = s.readF rb ∧ t.readF (ra + 1) = s.readF (rb + 1)) :=
    .of_writeW rfl fun _ h => State.readF_pair_of_readW_eq h
  have hzero : Completes (.mpzerow ra) s [ra, ra + 1] [] (fun t => t.readF ra = 0 ∧ t.readF (ra + 1) = 0) :=
    .of_writeW rfl fun _ h => State.readF_pair_of_readW_eq_zero h
  exact ⟨.of_writeF rfl fun _ h => h, .of_writeF rfl fun _ h => h, hcopy, hzero,
    .of_exec_eq (exec_mpcopyw_eq_f2copy s ra rb).symm hcopy, .of_exec_eq (exec_mpzerow_eq_f2zero s ra).symm hzero⟩

end Sys2Proof.Proofs
end

section
/-! SUPPORT. How a command completes whose precondition holds (spec/00_scope.md R18), and a field command that writes one F
register (spec/41_base_field.md R132): the value below P it computes is the integer in the destination. -/

namespace Sys2Proof.Machine

open Sys2Proof.Config Sys2Proof.Laws

variable {i : Instr} {s : State} {post : State → Prop}

theorem Completes.of_complete {pre : Bool} {dests : List FReg} {results : List Felm} (hpre : pre = true)
    (he : exec i s = s.complete i pre dests results) (hp : post (s.writeFs (dests.zip results))) :
    Completes i s dests [] post :=
  ⟨_, he.trans (State.complete_of_pre hpre s), sameExcept_writeFs_zip s dests results, State.writeFs_draws s _, hp⟩

/-- Sources and result below P: narrowing the result loses nothing. -/
theorem Completes.of_field_value {srcs : List FReg} {r : FReg} {n : Nat} (hsrcs : ∀ q ∈ srcs, s.num q < P)
    (he : exec i s = s.complete i (s.valid srcs) [r] [felm n]) (hn : n < P) (hp : ∀ t : State, t.num r = n → post t) :
    Completes i s [r] [] post :=
  .of_complete ((valid_iff s srcs).2 hsrcs) he
    (hp _ ((State.num_of_readF (s.readF_writeF_same r (felm n))).trans (toNat_felm_of_lt hn)))

/-- The sum of two values below P is reduced by at most one subtraction of P (R131). -/
theorem fpadd_eq_ite {a b : Nat} (ha : a < P) (hb : b < P) : fpadd a b = if a + b < P then a + b else a + b - P := by
  unfold fpadd; split
  · exact Nat.mod_eq_of_lt ‹_›
  · rw [Nat.mod_eq_sub_mod (by omega), Nat.mod_eq_of_lt (by omega)]

end Sys2Proof.Machine
end

section

open Sys2Proof Sys2Proof.Machine Sys2Proof.Laws

namespace Sys2Proof.Proofs

/-- Settles O33: each command writes the value of its backend function, and the contract of that function (R131) says which
value below P it is. -/
theorem baseFieldOperations : Obligations.BaseFieldOperations := by
  intro s ra rb rc hb hc
  have hpair : ∀ q ∈ [rb, rc], s.num q < Config.P := forall_mem_regs.2 ⟨hb, hc⟩
  have hone : ∀ q ∈ [rb], s.num q < Config.P := List.forall_mem_singleton.2 hb
  refine ⟨.of_field_value hpair rfl (fpadd_lt _ _) fun t h => ?add,
    .of_field_value hpair rfl (fpsub_lt hb hc) fun t h => ?sub,
    .of_field_value hone rfl (fpneg_lt hb) fun t h => ?neg,
    .of_field_value hone rfl (fpdiv2_lt hb) fun t h => ?half⟩
  case add => rw [h, fpadd_eq_ite hb hc]
  case sub => rw [h]; exact ⟨fpsub_lt hb hc, fpsub_add_mod hb hc⟩
  case neg => rw [h]; exact ⟨fpneg_lt hb, fpneg_add_mod hb⟩
  case half => rw [h]; exact ⟨fpdiv2_lt hb, two_mul_fpdiv2_mod hb⟩

end Sys2Proof.Proofs
end

section
/-! SUPPORT. What the Montgomery product does to a value below P and to values in Montgomery form a·R mod P
(spec/42_montgomery.md R152, R156 to R158). Each equation checks the right side against the contract of the product
(`mm_mul_R`), which one value below P meets (`eq_of_mul_R`). -/

namespace Sys2Proof.Laws

open Sys2Proof.Config Sys2Proof.Machine

/-- FPTOMONT's value (R156): the second factor R of R2 is taken away again. -/
theorem mm_R2 {x : Nat} (hx : x < P) : mm x R2 = x * R % P := by
  refine eq_of_mul_R (mm_lt (lt_R_of_lt_P hx) R2_lt) (Nat.mod_lt _ P_pos) ?_
  calc mm x R2 * R % P = x * R2 % P := mm_mul_R (lt_R_of_lt_P hx) R2_lt
    _ = x * (R * R) % P := Nat.mul_mod_mod x (R * R) P
    _ = x * R % P * R % P := by rw [Nat.mod_mul_mod, Nat.mul_assoc]

/-- The contract of FPFROMMONT (R157). -/
theorem mm_one_mul_R {x : Nat} (hx : x < P) : mm x one * R % P = x := by
  rw [mm_mul_R (lt_R_of_lt_P hx) one_lt_P, one, Nat.mul_one, Nat.mod_eq_of_lt hx]

/-- FPFROMMONT leaves Montgomery form. -/
theorem mm_one_of_montgomery (n : Nat) : mm (n * R % P) one = n % P := by
  have hn : n * R % P < P := Nat.mod_lt _ P_pos
  refine eq_of_mul_R (mm_lt (lt_R_of_lt_P hn) one_lt_P) (Nat.mod_lt _ P_pos) ?_
  rw [mm_one_mul_R hn, Nat.mod_mul_mod]

/-- FPMUL of two values in Montgomery form is the product in Montgomery form. -/
theorem mm_of_montgomery (a b : Nat) : mm (a * R % P) (b * R % P) = a * b * R % P := by
  have ha : a * R % P < P := Nat.mod_lt _ P_pos
  have hb : b * R % P < P := Nat.mod_lt _ P_pos
  refine eq_of_mul_R (mm_lt (lt_R_of_lt_P ha) hb) (Nat.mod_lt _ P_pos) ?_
  calc mm (a * R % P) (b * R % P) * R % P = a * R % P * (b * R % P) % P := mm_mul_R (lt_R_of_lt_P ha) hb
    _ = a * R * (b * R) % P := (Nat.mul_mod _ _ P).symm
    _ = a * b * R * R % P := by rw [Nat.mul_mul_mul_comm, Nat.mul_assoc (a * b)]
    _ = a * b * R % P * R % P := (Nat.mod_mul_mod _ _ P).symm

end Sys2Proof.Laws
end

section

open Sys2Proof Sys2Proof.Machine Sys2Proof.Laws

namespace Sys2Proof.Proofs

/-- Settles O34: each command writes one Montgomery product, and the contract of the product (R152) says which value below P
it is. -/
theorem montgomeryOperations : Obligations.MontgomeryOperations := by
  intro s ra rb rc hb hc
  have hpair : ∀ q ∈ [rb, rc], s.num q < Config.P := forall_mem_regs.2 ⟨hb, hc⟩
  have hone : ∀ q ∈ [rb], s.num q < Config.P := List.forall_mem_singleton.2 hb
  have hbR := lt_R_of_lt_P hb
  rw [← R_eq]
  refine ⟨.of_field_value hpair rfl (mm_lt hbR hc) fun t h => ?mul,
    .of_field_value hone rfl (msqr_lt hb) fun t h => ?sqr,
    .of_field_value hone rfl (mm_lt hbR R2_lt) fun t h => ?toMont,
    .of_field_value hone rfl (mm_lt hbR one_lt_P) fun t h => ?fromMont⟩
  case mul => rw [h]; exact ⟨mm_lt hbR hc, mm_mul_R hbR hc⟩
  case sqr => rw [h]; exact ⟨msqr_lt hb, mm_mul_R hbR hb⟩
  case toMont => rw [h, mm_R2 hb]
  case fromMont => rw [h]; exact ⟨mm_lt hbR one_lt_P, mm_one_mul_R hb⟩

/-- Settles O35: the Montgomery forms of a and b multiply to that of a·b, which FPFROMMONT leaves again. -/
theorem montgomeryRoundTrip : Obligations.MontgomeryRoundTrip := by
  unfold Obligations.MontgomeryRoundTrip
  intro TM FM a b ha hb
  have hTa : TM a = a * Config.R % Config.P := mm_R2 ha
  have hTb : TM b = b * Config.R % Config.P := mm_R2 hb
  refine ⟨hTa, ?_, ?_⟩
  · calc FM (mm (TM a) (TM b)) = FM (a * b * Config.R % Config.P) := by rw [hTa, hTb, mm_of_montgomery]
      _ = a * b % Config.P := mm_one_of_montgomery (a * b)
  · calc FM (TM a) = FM (a * Config.R % Config.P) := by rw [hTa]
      _ = a % Config.P := mm_one_of_montgomery a
      _ = a := Nat.mod_eq_of_lt ha

end Sys2Proof.Proofs
end

section
/-! SUPPORT. The schedule CHAIN by its three parts (spec/43_inversion.md R173): 55 steps of data, a tail of 61 equal steps that
each append six one bits to the exponent, and a last step; the exponents after each part (R174). -/

namespace Sys2Proof.Laws

open Sys2Proof.Config Sys2Proof.Machine

theorem take_head_chain : chain.take 55 = chainHead := rfl

theorem take_tail_chain : chain.take 116 = chainHead ++ List.replicate 61 (6, 26) := rfl

/-- The tail in closed form: each step appends the bits of EXP[26] = 63 to the exponent. -/
theorem exponent_tail_succ (n E : Nat) :
    (List.replicate n (6, 26)).foldl exponentStep E + 1 = (E + 1) * 64 ^ n := by
  induction n generalizing E with
  | zero => simp
  | succ n ih =>
    have hstep : exponentStep E (6, 26) = E * 64 + 63 := rfl
    rw [List.replicate_succ, List.foldl_cons, ih, hstep, Nat.pow_succ]
    ring

theorem exponent_head : (chain.take 55).foldl exponentStep 1 = (P - 3) / 4 / 2 ^ 366 := by
  rw [take_head_chain]
  decide +kernel

/-- The low 366 bits of (P − 3)/4 are all ones, and they are what the tail appends to the exponent of the head. -/
theorem exponent_tail : (chain.take 116).foldl exponentStep 1 = (P - 3) / 4 := by
  have hones : ((P - 3) / 4 / 2 ^ 366 + 1) * 64 ^ 61 = (P - 3) / 4 + 1 := by decide +kernel
  rw [take_tail_chain, List.foldl_append, ← take_head_chain, exponent_head]
  exact Nat.add_right_cancel ((exponent_tail_succ 61 _).trans hones)

/-- The last step squares twice and multiplies by the operand. -/
theorem exponent_chain : chain.foldl exponentStep 1 = 4 * ((P - 3) / 4) + 1 := by
  have hsplit : chain = chain.take 116 ++ [(2, 0)] := rfl
  rw [hsplit, List.foldl_append, exponent_tail, Nat.mul_comm]
  rfl

theorem four_mul_tail_exponent_succ : 4 * ((P - 3) / 4) + 1 = P - 2 := by
  have h4 := P_mod_four
  omega

theorem sum_bursts_chain : (chain.map Prod.fst).sum = 750 := by decide

end Sys2Proof.Laws
end

section
/-! SUPPORT. The value of finv (spec/43_inversion.md R175, R176): by Fermat's little theorem the Montgomery power of exponent
P − 2 is R²/x for x not 0, and it is 0 for 0. -/

namespace Sys2Proof.Laws

open Sys2Proof.Config Sys2Proof.Machine

theorem three_lt_P : 3 < P := by decide +kernel

theorem pow_P_sub_one {a : ZMod P} (ha : a ≠ 0) : a ^ (P - 1) = 1 := by
  have : Fact P.Prime := ⟨P_prime⟩
  exact ZMod.pow_card_sub_one_eq_one ha

theorem cast_ne_zero_of_lt_P {x : Nat} (hx : x < P) (h0 : x ≠ 0) : (x : ZMod P) ≠ 0 := fun h =>
  h0 (eq_of_cast hx P_pos (h.trans Nat.cast_zero.symm))

theorem cast_Rinv_ne_zero : (Rinv : ZMod P) ≠ 0 := by
  have : Fact P.Prime := ⟨P_prime⟩
  exact right_ne_zero_of_mul_eq_one cast_R_mul_Rinv

/-- R^(−(P−3)) is R² (R175). -/
theorem cast_Rinv_pow : (Rinv : ZMod P) ^ (P - 3) = (R : ZMod P) ^ 2 := by
  have h3 := three_lt_P
  calc (Rinv : ZMod P) ^ (P - 3)
      = (Rinv : ZMod P) ^ (P - 3) * ((R : ZMod P) * (Rinv : ZMod P)) ^ 2 := by
        rw [cast_R_mul_Rinv, one_pow, mul_one]
    _ = (R : ZMod P) ^ 2 * (Rinv : ZMod P) ^ (P - 3 + 2) := by rw [mul_pow, pow_add]; ring
    _ = (R : ZMod P) ^ 2 := by
        rw [show P - 3 + 2 = P - 1 by omega, pow_P_sub_one cast_Rinv_ne_zero, mul_one]

theorem finv_cast {x : Nat} (hx : x < P) : (finv x : ZMod P) = (x : ZMod P) ^ (P - 2) * (R : ZMod P) ^ 2 := by
  obtain ⟨-, -, hvalue⟩ := finv_power hx
  rw [hvalue, Nat.sub_sub, cast_Rinv_pow]

/-- finv(x) is R²·x⁻¹ modulo P (R175). -/
theorem finv_mul_mod {x : Nat} (hx : x < P) (h0 : x ≠ 0) : finv x * x % P = R ^ 2 % P := by
  refine (ZMod.natCast_eq_natCast_iff' _ _ P).1 ?_
  have h3 := three_lt_P
  calc ((finv x * x : Nat) : ZMod P)
      = (x : ZMod P) ^ (P - 2 + 1) * (R : ZMod P) ^ 2 := by rw [Nat.cast_mul, finv_cast hx, pow_succ]; ring
    _ = (R : ZMod P) ^ 2 := by
        rw [show P - 2 + 1 = P - 1 by omega, pow_P_sub_one (cast_ne_zero_of_lt_P hx h0), one_mul]
    _ = ((R ^ 2 : Nat) : ZMod P) := (Nat.cast_pow R 2).symm

/-- The Montgomery product of a value and its inverse is the Montgomery form of 1 (R170). -/
theorem mm_finv {x : Nat} (hx : x < P) (h0 : x ≠ 0) : mm (finv x) x = R % P := by
  have hfR := lt_R_of_lt_P (finv_lt hx)
  refine eq_of_mul_R (mm_lt hfR hx) (Nat.mod_lt _ P_pos) ?_
  rw [mm_mul_R hfR hx, finv_mul_mod hx h0, Nat.mod_mul_mod, sq]

theorem finv_zero : finv 0 = 0 := by
  have h3 := three_lt_P
  refine eq_of_cast (finv_lt P_pos) P_pos ?_
  rw [finv_cast P_pos, Nat.cast_zero, zero_pow (by omega), zero_mul]

end Sys2Proof.Laws
end

section
/-! SUPPORT. The instrumented run (spec/43_inversion.md R177): each logging function has the value of the plain one, and what it
appends to the log depends on the schedule alone. -/

namespace Sys2Proof.Laws

open Sys2Proof.Config Sys2Proof.Machine

/-- What one chain step appends to the log. -/
def chainStepTrace (step : Nat × Nat) : List FinvOp := List.replicate step.1 .square ++ [.multiplyByTable step.2]

theorem finvTrace_eq :
    finvTrace = .square :: List.replicate 31 .multiplyBySquare ++ chain.flatMap chainStepTrace := rfl

theorem foldl_tableStepLogged (tt : Nat) (l : List Nat) (st : (Nat × List Nat) × List FinvOp) :
    l.foldl (tableStepLogged tt) st =
      (l.foldl (tableStep tt) st.1, st.2 ++ List.replicate l.length .multiplyBySquare) := by
  induction l generalizing st with
  | nil => simp
  | cons e l ih =>
    have hstep : tableStepLogged tt st e = (tableStep tt st.1 e, st.2 ++ [.multiplyBySquare]) := rfl
    rw [List.foldl_cons, ih, hstep, List.foldl_cons, List.append_assoc, List.length_cons, List.replicate_succ]
    rfl

theorem chainStepLogged_eq (T : List Nat) (a : Logged) (step : Nat × Nat) :
    chainStepLogged T a step = (chainStep T a.1 step, a.2 ++ chainStepTrace step) := by
  rw [chainStepLogged, squaringsLogged_eq, chainStepTrace, ← List.append_assoc]
  rfl

theorem foldl_chainStepLogged (T : List Nat) (l : List (Nat × Nat)) (a : Logged) :
    l.foldl (chainStepLogged T) a = (l.foldl (chainStep T) a.1, a.2 ++ l.flatMap chainStepTrace) := by
  induction l generalizing a with
  | nil => simp
  | cons step l ih => rw [List.foldl_cons, ih, chainStepLogged_eq, List.foldl_cons, List.flatMap_cons, List.append_assoc]

theorem length_oddExps : oddExps.length = 31 := rfl

theorem finvLogged_eq (x : Nat) : finvLogged x = (finv x, finvTrace) := by
  simp only [finvLogged, finv, finvTable, finvTrace_eq, foldl_tableStepLogged, foldl_chainStepLogged, length_oddExps,
    List.singleton_append]

/-! ### How many operations of each kind -/

theorem count_square_chainStepTrace (step : Nat × Nat) : (chainStepTrace step).count .square = step.1 := by
  simp [chainStepTrace]

theorem count_multiplyBySquare_chainStepTrace (step : Nat × Nat) :
    (chainStepTrace step).count .multiplyBySquare = 0 := by
  simp [chainStepTrace, List.count_replicate]

theorem filter_chainStepTrace (step : Nat × Nat) :
    ((chainStepTrace step).filter fun o => o ≠ .square ∧ o ≠ .multiplyBySquare) = [.multiplyByTable step.2] := by
  simp [chainStepTrace]

theorem length_chainStepTrace (step : Nat × Nat) : (chainStepTrace step).length = step.1 + 1 := by
  simp [chainStepTrace]

/-- One squaring for the table, and the bursts of the chain. -/
theorem count_square_finvTrace : finvTrace.count .square = 751 := by
  have hchain : (chain.flatMap chainStepTrace).count .square = 750 := by
    rw [List.count_flatMap, ← sum_bursts_chain]
    exact congrArg List.sum (List.map_congr_left fun step _ => count_square_chainStepTrace step)
  rw [finvTrace_eq, List.count_append, hchain]
  rfl

/-- The chain has no multiplication by the square of the operand. -/
theorem count_multiplyBySquare_finvTrace : finvTrace.count .multiplyBySquare = 31 := by
  have hchain : (chain.flatMap chainStepTrace).count .multiplyBySquare = 0 :=
    List.count_eq_zero_of_not_mem fun hmem => by
      obtain ⟨step, -, hstep⟩ := List.mem_flatMap.1 hmem
      exact List.count_eq_zero.1 (count_multiplyBySquare_chainStepTrace step) hstep
  rw [finvTrace_eq, List.count_append, hchain]
  rfl

/-- One multiplication by a table entry for each step of the chain. -/
theorem length_filter_finvTrace :
    (finvTrace.filter fun o => o ≠ .square ∧ o ≠ .multiplyBySquare).length = 117 := by
  have hchain : ((chain.flatMap chainStepTrace).filter fun o => o ≠ .square ∧ o ≠ .multiplyBySquare).length = 117 := by
    simp only [List.filter_flatMap, filter_chainStepTrace, List.length_flatMap, List.length_singleton, List.map_const',
      List.sum_replicate, chain_length]
    rfl
  rw [finvTrace_eq, List.filter_append, List.length_append, hchain]
  rfl

theorem length_finvTrace : finvTrace.length = 751 + 148 := by
  have hchain : (chain.flatMap chainStepTrace).length = 750 + 117 := by
    simp only [List.length_flatMap, length_chainStepTrace, List.sum_map_add, sum_bursts_chain, List.map_const',
      List.sum_replicate, chain_length]
    rfl
  simp [finvTrace_eq, hchain]

end Sys2Proof.Laws
end

section

open Sys2Proof Sys2Proof.Machine Sys2Proof.Laws

namespace Sys2Proof.Proofs

/-- Settles O37: the exponents and the bursts after each part of the schedule. -/
theorem chainRepresentsPMinusTwo : Obligations.ChainRepresentsPMinusTwo :=
  ⟨exponent_head, exponent_tail, exponent_chain, four_mul_tail_exponent_succ, by decide, by decide, sum_bursts_chain,
    chain_length⟩

/-- Settles O36: FPINV writes finv of its source, which Fermat's little theorem evaluates. -/
theorem inversionInverts : Obligations.InversionInverts := by
  intro s ra rb hb
  rw [← R_eq]
  refine .of_field_value (List.forall_mem_singleton.2 hb) rfl (finv_lt hb) fun t h => ?_
  rw [h]
  refine ⟨finv_lt hb, fun h0 => ⟨finv_mul_mod hb h0, mm_finv hb h0⟩, fun h0 => ?_⟩
  rw [h0, finv_zero]

/-- Settles O38: the log of a run is that of the schedule, whose steps are counted by kind. -/
theorem inversionTraceIsConstant : Obligations.InversionTraceIsConstant :=
  ⟨finvLogged_eq, count_square_finvTrace, count_multiplyBySquare_finvTrace, length_filter_finvTrace, length_finvTrace⟩

end Sys2Proof.Proofs
end

section
/-! SUPPORT. How a field command that writes a pair of F registers completes (spec/44_gfp2.md R190): each component it computes
is the integer in its destination. -/

namespace Sys2Proof.Machine

open Sys2Proof.Config Sys2Proof.Laws

variable {i : Instr} {s : State} {post : State → Prop}

theorem State.readF_writeFs_pair (s : State) (r : FReg) (x y : Felm) :
    (s.writeFs ((pairRegs r).zip [x, y])).readF r = x ∧ (s.writeFs ((pairRegs r).zip [x, y])).readF (r + 1) = y :=
  ⟨(State.readF_writeF_ne _ (FReg.succ_ne r).symm _).trans (s.readF_writeF_same r x), State.readF_writeF_same _ _ _⟩

/-- Sources and both results below P: narrowing the results loses nothing. -/
theorem Completes.of_pair_values {srcs : List FReg} {r : FReg} {m n : Nat} (hsrcs : ∀ q ∈ srcs, s.num q < P)
    (he : exec i s = s.complete i (s.valid srcs) (pairRegs r) [felm m, felm n]) (hmn : m < P ∧ n < P)
    (hp : ∀ t : State, t.num r = m → t.num (r + 1) = n → post t) : Completes i s [r, r + 1] [] post := by
  obtain ⟨hm, hn⟩ := hmn
  obtain ⟨hlow, hhigh⟩ := s.readF_writeFs_pair r (felm m) (felm n)
  exact .of_complete ((valid_iff s srcs).2 hsrcs) he
    (hp _ ((State.num_of_readF hlow).trans (toNat_felm_of_lt hm))
      ((State.num_of_readF hhigh).trans (toNat_felm_of_lt hn)))

/-- F2SQR of valid components ends in the state of F2MUL of the element with itself (R197). -/
theorem exec_f2sqr_eq_f2mul {ra rb : FReg} (h0 : s.num rb < P) (h1 : s.num (rb + 1) < P) :
    exec (.f2sqr ra rb) s = exec (.f2mul ra rb rb) s := by
  have hsqr := (valid_iff s _).2 (forall_mem_pairRegs.2 ⟨h0, h1⟩)
  have hmul := (valid_iff s _).2 (forall_mem_pairs.2 ⟨⟨h0, h1⟩, h0, h1⟩)
  change execF2sqr ra rb s = execF2mul ra rb rb s
  rw [execF2sqr, execF2mul, State.complete_of_pre hsqr, State.complete_of_pre hmul, f2sqr_eq_f2mul h0 h1]

end Sys2Proof.Machine
end

section
/-! SUPPORT. The functions of GF(p²) (spec/44_gfp2.md R197 to R199, R202): the contract of the Karatsuba multiplier on integers,
and the laws of the extension field, each compared component by component in ZMod P. An element but (0, 0) has a norm
that is not 0, because −1 is no square modulo P. -/

namespace Sys2Proof.Laws

open Sys2Proof.Config Sys2Proof.Machine

/-! ### The product by its value (R198) -/

/-- The P·R that a borrow adds is 0 modulo P. -/
theorem realPart_add_mod {a0 a1 b0 b1 : Nat} (h1 : a1 < P) (hb1 : b1 < P) :
    (realPart a0 a1 b0 b1 + a1 * b1) % P = a0 * b0 % P := by
  have hprod := mul_lt_P_sq h1 hb1
  obtain ⟨hbound, -⟩ := P_sq_bounds
  unfold realPart; split
  · rw [Nat.sub_add_cancel (by omega), Nat.add_mul_mod_self_left]
  · rw [Nat.sub_add_cancel (by omega)]

theorem f2mul_fst_mul_R {a0 a1 b0 b1 : Nat} (h0 : a0 < P) (h1 : a1 < P) (hb0 : b0 < P) (hb1 : b1 < P) :
    ((f2mul a0 a1 b0 b1).1 * R + a1 * b1) % P = a0 * b0 % P := by
  obtain ⟨hvalue, hdomain, -⟩ := f2mul_spec h0 h1 hb0 hb1
  rw [hvalue, Nat.add_mod, montgomeryReduce_mul_R hdomain, ← Nat.add_mod, realPart_add_mod h1 hb1]

theorem f2mul_snd_mul_R {a0 a1 b0 b1 : Nat} (h0 : a0 < P) (h1 : a1 < P) (hb0 : b0 < P) (hb1 : b1 < P) :
    (f2mul a0 a1 b0 b1).2 * R % P = (a0 * b1 + a1 * b0) % P := by
  obtain ⟨hvalue, -, hdomain⟩ := f2mul_spec h0 h1 hb0 hb1
  rw [hvalue, montgomeryReduce_mul_R hdomain]

/-! ### Equality of elements -/

/-- Elements with components below P are equal when their components are equal in ZMod P. -/
theorem pair_eq_of_casts {c d : Nat × Nat} (hc : c.1 < P ∧ c.2 < P) (hd : d.1 < P ∧ d.2 < P)
    (h1 : (c.1 : ZMod P) = d.1) (h2 : (c.2 : ZMod P) = d.2) : c = d :=
  Prod.ext (eq_of_cast hc.1 hd.1 h1) (eq_of_cast hc.2 hd.2 h2)

/-! ### Commutativity and distributivity (R202) -/

theorem f2mul_comm {a0 a1 b0 b1 : Nat} (h0 : a0 < P) (h1 : a1 < P) (hb0 : b0 < P) (hb1 : b1 < P) :
    f2mul a0 a1 b0 b1 = f2mul b0 b1 a0 a1 := by
  obtain ⟨hab0, hab1⟩ := f2mul_cast h0 h1 hb0 hb1
  obtain ⟨hba0, hba1⟩ := f2mul_cast hb0 hb1 h0 h1
  refine pair_eq_of_casts (f2mul_lt h0 h1 hb0 hb1) (f2mul_lt hb0 hb1 h0 h1) ?_ ?_
  · rw [hab0, hba0]; ring
  · rw [hab1, hba1]; ring

theorem f2mul_fpadd {a0 a1 b0 b1 c0 c1 : Nat} (h0 : a0 < P) (h1 : a1 < P) (hb0 : b0 < P) (hb1 : b1 < P)
    (hc0 : c0 < P) (hc1 : c1 < P) :
    f2mul a0 a1 (fpadd b0 c0) (fpadd b1 c1) =
      (fpadd (f2mul a0 a1 b0 b1).1 (f2mul a0 a1 c0 c1).1, fpadd (f2mul a0 a1 b0 b1).2 (f2mul a0 a1 c0 c1).2) := by
  have hs0 := fpadd_lt b0 c0
  have hs1 := fpadd_lt b1 c1
  obtain ⟨hab0, hab1⟩ := f2mul_cast h0 h1 hb0 hb1
  obtain ⟨hac0, hac1⟩ := f2mul_cast h0 h1 hc0 hc1
  obtain ⟨has0, has1⟩ := f2mul_cast h0 h1 hs0 hs1
  refine pair_eq_of_casts (f2mul_lt h0 h1 hs0 hs1) ⟨fpadd_lt _ _, fpadd_lt _ _⟩ ?_ ?_
  · rw [has0, fpadd_cast, fpadd_cast, fpadd_cast, hab0, hac0]; ring
  · rw [has1, fpadd_cast, fpadd_cast, fpadd_cast, hab1, hac1]; ring

/-! ### The norm (R199) -/

/-- The norm inverter's first value: a0² + a1², the squares in Montgomery form. -/
def elementNorm (a0 a1 : Nat) : Nat := fpadd (msqr a0) (msqr a1)

theorem elementNorm_lt (a0 a1 : Nat) : elementNorm a0 a1 < P := fpadd_lt _ _

theorem f2inv_eq (a0 a1 : Nat) :
    f2inv a0 a1 = (mm a0 (finv (elementNorm a0 a1)), mm (fpneg a1) (finv (elementNorm a0 a1))) := rfl

theorem elementNorm_cast {a0 a1 : Nat} (h0 : a0 < P) (h1 : a1 < P) :
    (elementNorm a0 a1 : ZMod P) = ((a0 : ZMod P) ^ 2 + (a1 : ZMod P) ^ 2) * (Rinv : ZMod P) := by
  rw [elementNorm, fpadd_cast, msqr, msqr, mm_cast (lt_R_of_lt_P h0) h0, mm_cast (lt_R_of_lt_P h1) h1]
  ring

/-- P ≡ 3 mod 4, so a sum of two squares is 0 modulo P only when both are. -/
theorem eq_zero_of_sq_add_sq_eq_zero {x y : ZMod P} (h : x ^ 2 + y ^ 2 = 0) : x = 0 ∧ y = 0 := by
  have : Fact P.Prime := ⟨P_prime⟩
  have hxy : x ^ 2 = -y ^ 2 := eq_neg_of_add_eq_zero_left h
  exact ⟨by_contra fun hx => ZMod.mod_four_ne_three_of_sq_eq_neg_sq hx hxy P_mod_four,
    by_contra fun hy => ZMod.mod_four_ne_three_of_sq_eq_neg_sq' hy hxy P_mod_four⟩

theorem elementNorm_ne_zero {a0 a1 : Nat} (h0 : a0 < P) (h1 : a1 < P) (ha : a0 ≠ 0 ∨ a1 ≠ 0) :
    elementNorm a0 a1 ≠ 0 := by
  have : Fact P.Prime := ⟨P_prime⟩
  intro hzero
  have hcast := elementNorm_cast h0 h1
  rw [hzero, Nat.cast_zero] at hcast
  obtain ⟨hx, hy⟩ :=
    eq_zero_of_sq_add_sq_eq_zero ((mul_eq_zero.1 hcast.symm).resolve_right cast_Rinv_ne_zero)
  rcases ha with ha | ha
  · exact cast_ne_zero_of_lt_P h0 ha hx
  · exact cast_ne_zero_of_lt_P h1 ha hy

/-! ### The inverse (R199, R202) -/

theorem f2inv_cast {a0 a1 : Nat} (h0 : a0 < P) (h1 : a1 < P) :
    ((f2inv a0 a1).1 : ZMod P) = a0 * finv (elementNorm a0 a1) * (Rinv : ZMod P) ∧
      ((f2inv a0 a1).2 : ZMod P) = -a1 * finv (elementNorm a0 a1) * (Rinv : ZMod P) := by
  have hinv := finv_lt (elementNorm_lt a0 a1)
  rw [f2inv_eq, mm_cast (lt_R_of_lt_P h0) hinv, mm_cast (lt_R_of_lt_P (fpneg_lt h1)) hinv, fpneg_cast h1]
  exact ⟨rfl, rfl⟩

theorem cast_finv_mul {x : Nat} (hx : x < P) (h0 : x ≠ 0) : (finv x : ZMod P) * x = (R : ZMod P) ^ 2 := by
  rw [← Nat.cast_mul, ← cast_mod, finv_mul_mod hx h0, cast_mod, Nat.cast_pow]

/-- The inverse times the element is the Montgomery form of one: the product is the norm times its inverse, and the
imaginary parts cancel. -/
theorem f2mul_f2inv {a0 a1 : Nat} (h0 : a0 < P) (h1 : a1 < P) (ha : a0 ≠ 0 ∨ a1 ≠ 0) :
    f2mul (f2inv a0 a1).1 (f2inv a0 a1).2 a0 a1 = (R % P, 0) := by
  obtain ⟨hi0, hi1⟩ := f2inv_lt h0 h1
  obtain ⟨hreal, himag⟩ := f2mul_cast hi0 hi1 h0 h1
  obtain ⟨hc0, hc1⟩ := f2inv_cast h0 h1
  refine pair_eq_of_casts (f2mul_lt hi0 hi1 h0 h1) ⟨Nat.mod_lt _ P_pos, P_pos⟩ ?_ ?_
  · calc ((f2mul (f2inv a0 a1).1 (f2inv a0 a1).2 a0 a1).1 : ZMod P)
        = finv (elementNorm a0 a1) * (((a0 : ZMod P) ^ 2 + (a1 : ZMod P) ^ 2) * Rinv) * Rinv := by
          rw [hreal, hc0, hc1]; ring
      _ = R * (R * Rinv) := by
          rw [← elementNorm_cast h0 h1, cast_finv_mul (elementNorm_lt a0 a1) (elementNorm_ne_zero h0 h1 ha)]; ring
      _ = ((R % P : Nat) : ZMod P) := by rw [cast_R_mul_Rinv, mul_one, cast_mod]
  · rw [himag, hc0, hc1, Nat.cast_zero]; ring

theorem zero_mm (y : Nat) : mm 0 y = 0 := by
  have hdomain : 0 < P * R := Nat.mul_pos P_pos (lt_R_of_lt_P P_pos)
  rw [mm, rawMultiply, Nat.zero_mul, montgomeryReduce_of_lt hdomain, Nat.zero_mul, Nat.zero_mod]

/-- The zero element has no inverse, and the norm inverter gives it back (R250). -/
theorem f2inv_zero : f2inv 0 0 = (0, 0) := by
  rw [f2inv_eq, fpneg, if_pos rfl, zero_mm]

end Sys2Proof.Laws
end

section

open Sys2Proof Sys2Proof.Machine Sys2Proof.Laws

namespace Sys2Proof.Proofs

/-- Settles O39: each command writes its base-field function of each component, whose contract says which value below P it
is. -/
theorem componentWiseCommands : Obligations.ComponentWiseCommands := by
  intro s ra rb rc hb0 hb1 hc0 hc1
  have hone : ∀ q ∈ pairRegs rb, s.num q < Config.P := forall_mem_pairRegs.2 ⟨hb0, hb1⟩
  have htwo : ∀ q ∈ pairRegs rb ++ pairRegs rc, s.num q < Config.P := forall_mem_pairs.2 ⟨⟨hb0, hb1⟩, hc0, hc1⟩
  have hR0 := lt_R_of_lt_P hb0
  have hR1 := lt_R_of_lt_P hb1
  rw [← R_eq]
  refine ⟨.of_pair_values htwo rfl ⟨fpadd_lt _ _, fpadd_lt _ _⟩ fun t h0 h1 => ⟨h0, h1⟩,
    .of_pair_values htwo rfl ⟨fpsub_lt hb0 hc0, fpsub_lt hb1 hc1⟩ fun t h0 h1 => ?sub,
    .of_pair_values hone rfl ⟨fpneg_lt hb0, fpneg_lt hb1⟩ fun t h0 h1 => ?neg,
    .of_pair_values hone rfl ⟨fpdiv2_lt hb0, fpdiv2_lt hb1⟩ fun t h0 h1 => ?half,
    .of_pair_values hone rfl ⟨mm_lt hR0 R2_lt, mm_lt hR1 R2_lt⟩ fun t h0 h1 => ?toMont,
    .of_pair_values hone rfl ⟨mm_lt hR0 one_lt_P, mm_lt hR1 one_lt_P⟩ fun t h0 h1 => ?fromMont⟩
  all_goals rw [h0, h1]
  case sub => exact ⟨fpsub_lt hb0 hc0, fpsub_add_mod hb0 hc0, fpsub_lt hb1 hc1, fpsub_add_mod hb1 hc1⟩
  case neg => exact ⟨fpneg_lt hb0, fpneg_add_mod hb0, fpneg_lt hb1, fpneg_add_mod hb1⟩
  case half => exact ⟨fpdiv2_lt hb0, two_mul_fpdiv2_mod hb0, fpdiv2_lt hb1, two_mul_fpdiv2_mod hb1⟩
  case toMont => exact ⟨mm_R2 hb0, mm_R2 hb1⟩
  case fromMont => exact ⟨mm_lt hR0 one_lt_P, mm_one_mul_R hb0, mm_lt hR1 one_lt_P, mm_one_mul_R hb1⟩

/-- Settles O40: F2MUL writes the two reductions of its function, and the reducer's contract gives their values. -/
theorem karatsubaMultiplies : Obligations.KaratsubaMultiplies := by
  intro s ra rb rc hb0 hb1 hc0 hc1
  have hlt := f2mul_lt hb0 hb1 hc0 hc1
  rw [← R_eq]
  refine .of_pair_values (forall_mem_pairs.2 ⟨⟨hb0, hb1⟩, hc0, hc1⟩) rfl hlt fun t h0 h1 => ?_
  rw [h0, h1]
  exact ⟨hlt.1, hlt.2, f2mul_fst_mul_R hb0 hb1 hc0 hc1, f2mul_snd_mul_R hb0 hb1 hc0 hc1⟩

/-- Settles O41: F2SQR ends as F2MUL of the element with itself (R197), so its values are those of O40. -/
theorem squarerSquares : Obligations.SquarerSquares := by
  intro s ra rb h0 h1
  have hexec := exec_f2sqr_eq_f2mul (ra := ra) h0 h1
  have hdouble : s.num rb * s.num (rb + 1) + s.num (rb + 1) * s.num rb = 2 * s.num rb * s.num (rb + 1) := by ring
  refine ⟨.of_exec_eq hexec ?_, hexec⟩
  rw [← hdouble]
  exact karatsubaMultiplies s ra rb rb h0 h1 h0 h1

/-- Settles O42: F2INV writes its function's components, which multiply with the element to its norm times the norm's
inverse. -/
theorem normInverterInverts : Obligations.NormInverterInverts := by
  intro s ra rb hb0 hb1
  have hlt := f2inv_lt hb0 hb1
  rw [← R_eq]
  refine .of_pair_values (forall_mem_pairRegs.2 ⟨hb0, hb1⟩) rfl hlt fun t h0 h1 => ?_
  rw [h0, h1]
  refine ⟨hlt.1, hlt.2, f2mul_f2inv hb0 hb1, fun ⟨hz0, hz1⟩ => ?_⟩
  rw [hz0, hz1, f2inv_zero]
  exact ⟨rfl, rfl⟩

/-- Settles O43: each law holds of the functions by its lemma on components. -/
theorem extensionFieldLaws : Obligations.ExtensionFieldLaws := by
  unfold Obligations.ExtensionFieldLaws
  rw [← R_eq]
  rintro mul add ⟨a0, a1⟩ ⟨b0, b1⟩ ⟨c0, c1⟩ ha0 ha1 hb0 hb1 hc0 hc1
  refine ⟨f2mul_comm ha0 ha1 hb0 hb1, f2mul_fpadd ha0 ha1 hb0 hb1 hc0 hc1, f2sqr_eq_f2mul ha0 ha1, fun hne => ?_⟩
  have hcomponent : a0 ≠ 0 ∨ a1 ≠ 0 := not_and_or.1 fun ⟨hz0, hz1⟩ => hne (Prod.ext hz0 hz1)
  exact f2mul_f2inv ha0 ha1 hcomponent

end Sys2Proof.Proofs
end

section
/-! SUPPORT. Select and swap (spec/45_select_swap.md R220 to R228) on whole groups of F registers: the values a mask selects, what
the writes to a group leave in it, and how the commands complete. The two groups of a swap are the same or have no
register in common, and so the exchange is its own inverse. -/

namespace Sys2Proof.Machine

variable {i : Instr} {s t : State} {post : State → Prop} {dd : DReg} {m : Bool}

theorem Completes.imp {fs : List FReg} {ds : List DReg} {post' : State → Prop} (h : Completes i s fs ds post)
    (hp : ∀ t, post t → post' t) : Completes i s fs ds post' := by
  obtain ⟨t, hexec, hframe, hdraws, ht⟩ := h
  exact ⟨t, hexec, hframe, hdraws, hp t ht⟩

/-! ### Groups of registers -/

theorem nodup_pairRegs (r : FReg) : (pairRegs r).Nodup := by
  revert r; decide

theorem nodup_quadRegs (r : FReg) : (quadRegs r).Nodup := by
  revert r; decide

/-- The registers of an aligned pair are those whose number gives the same quotient by 2 (R82). -/
theorem mem_pairRegs_iff {r q : FReg} (hr : r.val % 2 = 0) : q ∈ pairRegs r ↔ q.val / 2 = r.val / 2 := by
  simp only [pairRegs, List.mem_cons, Fin.ext_iff, Fin.val_add, Fin.coe_ofNat_eq_mod, List.not_mem_nil, or_false]
  omega

/-- The registers of an aligned quad are those whose number gives the same quotient by 4 (R82). -/
theorem mem_quadRegs_iff {r q : FReg} (hr : r.val % 4 = 0) : q ∈ quadRegs r ↔ q.val / 4 = r.val / 4 := by
  simp only [quadRegs, List.mem_cons, Fin.ext_iff, Fin.val_add, Fin.coe_ofNat_eq_mod, List.not_mem_nil, or_false]
  omega

theorem pairRegs_eq_map (r : FReg) : pairRegs r = [0, 1].map (r + ·) := by
  simp [pairRegs]

theorem quadRegs_eq_map (r : FReg) : quadRegs r = [0, 1, 2, 3].map (r + ·) := by
  simp [quadRegs]

/-- Two groups that a swap exchanges: of the same size, and either the same group or all registers different. -/
def SwapGroups (ps qs : List FReg) : Prop := ps.length = qs.length ∧ (ps = qs ∨ (ps ++ qs).Nodup)

theorem swapGroups_pairRegs {ra rb : FReg} (ha : ra.val % 2 = 0) (hb : rb.val % 2 = 0) :
    SwapGroups (pairRegs ra) (pairRegs rb) := by
  refine ⟨rfl, or_iff_not_imp_left.2 fun hne => (nodup_pairRegs ra).append (nodup_pairRegs rb) fun q hqa hqb => ?_⟩
  rw [mem_pairRegs_iff ha] at hqa
  rw [mem_pairRegs_iff hb] at hqb
  exact hne (congrArg pairRegs (Fin.ext (by omega)))

theorem swapGroups_quadRegs {ra rb : FReg} (ha : ra.val % 4 = 0) (hb : rb.val % 4 = 0) :
    SwapGroups (quadRegs ra) (quadRegs rb) := by
  refine ⟨rfl, or_iff_not_imp_left.2 fun hne => (nodup_quadRegs ra).append (nodup_quadRegs rb) fun q hqa hqb => ?_⟩
  rw [mem_quadRegs_iff ha] at hqa
  rw [mem_quadRegs_iff hb] at hqb
  exact hne (congrArg quadRegs (Fin.ext (by omega)))

theorem mod_eq_zero_of_all_aligned {g : Nat} {ra rb : FReg} (h : [ra, rb].all (aligned g) = true) :
    ra.val % g = 0 ∧ rb.val % g = 0 := by
  simpa [aligned] using h

/-! ### The values of a group -/

theorem State.readFs_append (s : State) (ps qs : List FReg) : s.readFs (ps ++ qs) = s.readFs ps ++ s.readFs qs :=
  List.map_append

theorem State.length_readFs (s : State) (rs : List FReg) : (s.readFs rs).length = rs.length := List.length_map _

/-- A state that differs from s in a group only, and holds the values of s there, is s. -/
theorem SameExcept.eq_of_readFs {rs : List FReg} (h : SameExcept rs [] s t) (hdraws : t.draws = s.draws)
    (hrs : t.readFs rs = s.readFs rs) : t = s := by
  refine State.eq_of_reads (fun r => ?_) (fun k => h.digits k List.not_mem_nil) h.toSameControl hdraws
  by_cases hr : r ∈ rs
  · exact List.map_inj_left.1 hrs r hr
  · exact h.regs r hr

/-! ### Writes to a group -/

/-- The registers of a group that are all different hold what was written to them. -/
theorem State.readFs_writeFs_zip (s : State) {rs : List FReg} {vs : List Felm} (hn : rs.Nodup)
    (hlen : rs.length = vs.length) : (s.writeFs (rs.zip vs)).readFs rs = vs := by
  have hfst : (rs.zip vs).map Prod.fst = rs := List.map_fst_zip hlen.le
  have hread : ∀ p ∈ rs.zip vs, (s.writeFs (rs.zip vs)).readF p.1 = p.2 := fun p hp =>
    State.readF_writeFs_of_mem (hfst.symm ▸ hn) hp s
  calc (s.writeFs (rs.zip vs)).readFs rs
      = (s.writeFs (rs.zip vs)).readFs ((rs.zip vs).map Prod.fst) := by rw [hfst]
    _ = (rs.zip vs).map Prod.snd := List.map_map.trans (List.map_congr_left hread)
    _ = vs := List.map_snd_zip hlen.ge

theorem State.writeF_readF (s : State) (r : FReg) : s.writeF r (s.readF r) = s := by
  simp [State.writeF, State.readF]

/-- Each register gets the value it has, so a register may stand in the list twice. -/
theorem State.writeFs_zip_readFs (s : State) (rs : List FReg) : s.writeFs (rs.zip (s.readFs rs)) = s := by
  induction rs with
  | nil => rfl
  | cons r rs ih =>
    calc s.writeFs ((r :: rs).zip (s.readFs (r :: rs)))
        = (s.writeF r (s.readF r)).writeFs (rs.zip (s.readFs rs)) := rfl
      _ = s := by rw [s.writeF_readF, ih]

/-! ### The selected values (R220, R221) -/

/-- The two masks that are a valid input (R15). -/
def maskDigit (m : Bool) : Digit := if m then all1 else all0

theorem validMask_maskDigit (m : Bool) : validMask (maskDigit m) = true := by
  cases m <;> rfl

theorem selectFelm_maskDigit (m : Bool) (x y : Felm) : selectFelm (maskDigit m) x y = if m then y else x := by
  cases m
  · exact selectFelm_all0 x y
  · exact selectFelm_all1 x y

/-- Under a mask the selected values are those of one whole group. -/
theorem State.selected_maskDigit (s : State) (m : Bool) {xs ys : List FReg} (hlen : xs.length = ys.length) :
    s.selected (maskDigit m) xs ys = s.readFs (if m then ys else xs) := by
  refine List.ext_getElem ?_ fun k _ _ => ?_
  · cases m <;> simp [State.length_selected, State.length_readFs, hlen]
  · cases m <;> simp [State.selected, State.readFs, selectFelm_maskDigit]

/-! ### Select (R222 to R224) -/

theorem Completes.of_select {zs xs ys : List FReg} (he : exec i s = s.select i zs xs ys dd)
    (hm : s.readD dd = maskDigit m) (hn : zs.Nodup) (hx : zs.length = xs.length) (hy : zs.length = ys.length)
    (hp : ∀ t : State, t.readFs zs = s.readFs (if m then ys else xs) → post t) : Completes i s zs [] post := by
  rw [State.select, hm, s.selected_maskDigit m (hx.symm.trans hy)] at he
  refine .of_complete (validMask_maskDigit m) he (hp _ (s.readFs_writeFs_zip hn ?_))
  rw [State.length_readFs]
  cases m
  · exact hx
  · exact hy

/-! ### Swap (R226 to R228) -/

/-- The groups hold the values of s, exchanged if m is true. -/
def Swapped (m : Bool) (ps qs : List FReg) (s t : State) : Prop :=
  t.readFs ps = s.readFs (if m then qs else ps) ∧ t.readFs qs = s.readFs (if m then ps else qs)

theorem swapped_iff_readFs_append {ps qs : List FReg} (hlen : ps.length = qs.length) :
    Swapped m ps qs s t ↔
      t.readFs (ps ++ qs) = s.readFs (if m then qs else ps) ++ s.readFs (if m then ps else qs) := by
  have : (t.readFs ps).length = (s.readFs (if m then qs else ps)).length := by
    cases m <;> simp [State.length_readFs, hlen]
  rw [State.readFs_append, Swapped]
  exact ⟨fun ⟨hp, hq⟩ => congrArg₂ _ hp hq, fun h => List.append_inj h this⟩

/-- The k-th registers of the two groups hold each other's values, or their own (R221). -/
theorem swapped_map_add_iff {ks : List FReg} {p q : FReg} :
    Swapped m (ks.map (p + ·)) (ks.map (q + ·)) s t ↔
      ∀ k ∈ ks, t.readF (p + k) = s.readF (if m then q + k else p + k) ∧
        t.readF (q + k) = s.readF (if m then p + k else q + k) := by
  cases m <;> simp [Swapped, State.readFs, forall_and]

/-- Both groups are read before either is written (R221): what is written to the first does not reach the second. -/
theorem SwapGroups.swapped_writeFs {ps qs : List FReg} (h : SwapGroups ps qs) (m : Bool) (s : State) :
    Swapped m ps qs s (s.writeFs ((ps ++ qs).zip
      (s.readFs (if m then qs else ps) ++ s.readFs (if m then ps else qs)))) := by
  obtain ⟨hlen, rfl | hn⟩ := h
  · simp only [Swapped, ite_self, ← State.readFs_append, State.writeFs_zip_readFs, and_self]
  · refine (swapped_iff_readFs_append hlen).2 (s.readFs_writeFs_zip hn ?_)
    cases m <;> simp [State.length_readFs, hlen]

theorem SwapGroups.completes {ps qs : List FReg} (h : SwapGroups ps qs) (he : exec i s = s.swap i ps qs dd)
    (hm : s.readD dd = maskDigit m) : Completes i s (ps ++ qs) [] (Swapped m ps qs s) := by
  rw [State.swap, hm, s.selected_maskDigit m h.1, s.selected_maskDigit m h.1.symm] at he
  exact .of_complete (validMask_maskDigit m) he (h.swapped_writeFs m s)

/-- Under the all-zero mask the groups keep their values, and the frame keeps the rest. -/
theorem SwapGroups.exec_of_all0 {ps qs : List FReg} (h : SwapGroups ps qs) (he : exec i s = s.swap i ps qs dd)
    (hm : s.readD dd = all0) : exec i s = .next s := by
  obtain ⟨t, hexec, hframe, hdraws, hswap⟩ := h.completes (m := false) he hm
  have hback : t.readFs (ps ++ qs) = s.readFs (ps ++ qs) :=
    ((swapped_iff_readFs_append h.1).1 hswap).trans (s.readFs_append ps qs).symm
  rw [hexec, hframe.eq_of_readFs hdraws hback]

/-- The mask is still there after the first swap, and the second one brings every value back (R228). -/
theorem SwapGroups.exec_twice_of_all1 {ps qs : List FReg} (h : SwapGroups ps qs)
    (he : ∀ s, exec i s = s.swap i ps qs dd) (hm : s.readD dd = all1) :
    ∃ t, exec i s = .next t ∧ exec i t = .next s := by
  obtain ⟨t, hexec, hframe, hdraws, hp, hq⟩ := h.completes (m := true) (he s) hm
  have hmask : t.readD dd = all1 := (hframe.digits dd List.not_mem_nil).trans hm
  obtain ⟨u, hexec', hframe', hdraws', hp', hq'⟩ := h.completes (m := true) (he t) hmask
  have hback : u.readFs (ps ++ qs) = s.readFs (ps ++ qs) := by
    rw [State.readFs_append, State.readFs_append]
    exact congrArg₂ _ (hp'.trans hq) (hq'.trans hp)
  rw [(hframe.trans hframe').eq_of_readFs (hdraws'.trans hdraws) hback] at hexec'
  exact ⟨t, hexec, hexec'⟩

end Sys2Proof.Machine
end

section

open Sys2Proof Sys2Proof.Machine

namespace Sys2Proof.Proofs

/-- Settles O44: the selected values are those of the group the mask names, and the destinations are all different. -/
theorem selectTakesOneGroup : Obligations.SelectTakesOneGroup := by
  intro s ra rb rc dd y hy src
  have hsrc : ∀ group : FReg → List FReg, (if y then group rc else group rb) = group src := fun group =>
    (apply_ite group _ _ _).symm
  refine ⟨.of_select rfl hy (List.nodup_singleton ra) rfl rfl fun t h => ?_,
    .of_select rfl hy (nodup_pairRegs ra) rfl rfl fun t h => ?_,
    .of_select rfl hy (nodup_quadRegs ra) rfl rfl fun t h => ?_⟩
  · rw [hsrc ([·])] at h
    exact List.singleton_inj.1 h
  · rw [hsrc pairRegs] at h
    simpa [State.readFs, pairRegs] using h
  · rw [hsrc quadRegs] at h
    simpa [State.readFs, quadRegs] using h

/-- Settles O45: the groups of aligned operands are the same or have no register in common. -/
theorem swapExchangesTheGroups : Obligations.SwapExchangesTheGroups := by
  intro s ra rb dd m hm
  refine ⟨fun ha hb => ?_, fun ha hb => ?_⟩
  · refine ((swapGroups_pairRegs ha hb).completes rfl hm).imp fun t h => ?_
    rw [pairRegs_eq_map, pairRegs_eq_map] at h
    exact swapped_map_add_iff.1 h
  · refine ((swapGroups_quadRegs ha hb).completes rfl hm).imp fun t h => ?_
    rw [quadRegs_eq_map, quadRegs_eq_map] at h
    exact swapped_map_add_iff.1 h

/-- Settles O46: a swap of the groups of a well-formed command keeps the values or exchanges them, and nothing else
changes. -/
theorem swapIsAnInvolution : Obligations.SwapIsAnInvolution := by
  rintro s i ra rb dd hwf (rfl | rfl)
  · obtain ⟨ha, hb⟩ := mod_eq_zero_of_all_aligned hwf
    have hgroups := swapGroups_pairRegs ha hb
    exact ⟨hgroups.exec_of_all0 rfl, hgroups.exec_twice_of_all1 fun _ => rfl⟩
  · obtain ⟨ha, hb⟩ := mod_eq_zero_of_all_aligned hwf
    have hgroups := swapGroups_quadRegs ha hb
    exact ⟨hgroups.exec_of_all0 rfl, hgroups.exec_twice_of_all1 fun _ => rfl⟩

end Sys2Proof.Proofs
end

section
/-! SUPPORT. The fault state (spec/60_exceptions.md R242 to R244, R246): the fault an unmet precondition raises in a build with
DEBUG_CHECKS, and what a host event can do while ERR = 1. -/

namespace Sys2Proof.Machine

variable {i : Instr} {s t : State}

/-- A command whose precondition fails raises cause 4 with its word (DEBUG_CHECKS true). -/
theorem EndsChecked.exec_eq_raiseFault (h : EndsChecked i s) (hr : ready i s = false) (hd : s.debugChecks = true) :
    exec i s = .next (s.raiseFault .precondition ((encode i).setWidth 64)) := by
  obtain ⟨results, he⟩ := h
  rw [he, State.complete_of_not_pre hr, if_pos hd]

/-! ### Resets (R270) -/

/-- The events that reset the block: the reset input, power-on, and a CTRL write with bit 0 = 1. -/
def HostEvent.IsReset (e : HostEvent) : Prop :=
  e = .resetInput ∨ e = .powerOn ∨ ∃ v : Digit, e = .write 0x0303 v ∧ v.toNat % 2 = 1

theorem eq_of_target_eq_ctrl {a : Addr} (h : target a = .ctrl) : a = 0x0303 := by
  have hrow := target_spec a
  rw [h] at hrow
  exact BitVec.eq_of_toNat_eq (by simpa using hrow)

theorem getLsbD_zero_iff (v : Digit) : v.getLsbD 0 = true ↔ v.toNat % 2 = 1 := by
  simp [BitVec.getLsbD]

theorem State.writeCtrl_of_odd {v : Digit} (h : v.toNat % 2 = 1) (s : State) : s.writeCtrl v = s.doReset :=
  if_pos ((getLsbD_zero_iff v).2 h)

theorem State.writeCtrl_of_not_odd {v : Digit} (h : ¬ v.toNat % 2 = 1) (s : State) : s.writeCtrl v = s :=
  if_neg (mt (getLsbD_zero_iff v).1 h)

/-- The three resets have the same effect. -/
theorem State.perform_of_isReset {e : HostEvent} (h : e.IsReset) (s : State) : s.perform e = .next s.doReset := by
  obtain rfl | rfl | ⟨v, rfl, hv⟩ := h
  · rfl
  · rfl
  · have ht : target 0x0303 = .ctrl := by decide
    rw [State.perform, State.portWrite, ht]
    exact congrArg _ (s.writeCtrl_of_odd hv)

/-! ### While ERR = 1 -/

/-- A CMD write is discarded (R243). -/
theorem State.issue_of_err (h : s.err = true) (v : Digit) : s.issue v = .next s := if_pos h

/-- A refused access is absorbed (R244). -/
theorem State.refuseAccess_of_err (h : s.err = true) (a : Addr) : s.refuseAccess a = s := State.raiseFault_of_err h _ _

/-- ERR, CAUSE and ERRINFO are as before. -/
structure SameRecord (s t : State) : Prop where
  err : t.err = s.err
  cause : t.cause = s.cause
  errinfo : t.errinfo = s.errinfo

theorem SameRecord.refl (s : State) : SameRecord s s := ⟨rfl, rfl, rfl⟩

theorem SameControl.sameRecord (h : SameControl s t) : SameRecord s t := ⟨h.err, h.cause, h.errinfo⟩

theorem sameRecord_portRead (h : s.err = true) (a : Addr) : SameRecord s (s.portRead a) := by
  rcases s.portRead_cases a with ⟨v, -, e⟩ | ⟨-, e⟩ <;> rw [e]
  · exact ⟨rfl, rfl, rfl⟩
  · rw [State.refuseAccess_of_err h]
    exact ⟨rfl, rfl, rfl⟩

/-- A write that is no reset keeps the record: the windows still take their digits, a command is discarded, and a refused
write is absorbed. -/
theorem portWrite_sameRecord (h : s.err = true) {a : Addr} {v : Digit} (hn : ¬ (HostEvent.write a v).IsReset) :
    ∃ t, s.portWrite a v = .next t ∧ SameRecord s t := by
  unfold State.portWrite
  cases ht : target a with
  | felmDigit r j => exact ⟨_, rfl, (sameExcept_writeF s r _).toSameControl.sameRecord⟩
  | digitReg k => exact ⟨_, rfl, (sameExcept_writeD s k v).toSameControl.sameRecord⟩
  | cmd => exact ⟨s, State.issue_of_err h v, .refl s⟩
  | ctrl =>
    have hv : ¬ v.toNat % 2 = 1 := fun hv => hn (.inr (.inr ⟨v, by rw [eq_of_target_eq_ctrl ht], hv⟩))
    exact ⟨s, congrArg _ (s.writeCtrl_of_not_odd hv), .refl s⟩
  | status | errinfo | ident | modulus | modulusPlusOne | rSquared | unmapped =>
    exact ⟨s, congrArg _ (State.refuseAccess_of_err h a), .refl s⟩

theorem perform_sameRecord (h : s.err = true) {e : HostEvent} (hn : ¬ e.IsReset) :
    ∃ t, s.perform e = .next t ∧ SameRecord s t := by
  cases e with
  | read a => exact ⟨_, rfl, sameRecord_portRead h a⟩
  | write a v => exact portWrite_sameRecord h hn
  | resetInput => exact absurd (.inl rfl) hn
  | powerOn => exact absurd (.inr (.inl rfl)) hn

/-- What a step can do while ERR = 1: it keeps the record, or its event is a reset. -/
theorem step_cases_of_err (h : s.err = true) :
    (∃ t, step s = .next t ∧ SameRecord s t) ∨
    ∃ e rest, s.pending = e :: rest ∧ e.IsReset ∧ step s = .next (s.begin rest).doReset := by
  cases hp : s.pending with
  | nil => exact .inl ⟨s, step_of_idle hp, .refl s⟩
  | cons e rest =>
    rw [step_of_pending hp]
    by_cases hr : e.IsReset
    · exact .inr ⟨e, rest, rfl, hr, State.perform_of_isReset hr _⟩
    · obtain ⟨t, ht, hrecord⟩ := perform_sameRecord (s := s.begin rest) h hr
      exact .inl ⟨t, ht, hrecord.err, hrecord.cause, hrecord.errinfo⟩

end Sys2Proof.Machine
end

section

open Sys2Proof Sys2Proof.Machine

namespace Sys2Proof.Proofs

/-- Settles O10: every event but the three resets keeps the record of the fault state. -/
theorem onlyResetLeavesTheFaultState : Obligations.OnlyResetLeavesTheFaultState := by
  intro s t he ht
  rcases step_cases_of_err he with ⟨u, hu, hrecord⟩ | ⟨e, rest, hp, hreset, hu⟩
  · obtain rfl : u = t := Host.Outcome.next.inj (hu.symm.trans ht)
    exact .inl ⟨hrecord.err.trans he, hrecord.cause, hrecord.errinfo⟩
  · obtain rfl : (s.begin rest).doReset = t := Host.Outcome.next.inj (hu.symm.trans ht)
    exact .inr ⟨⟨e, rest, hp, hreset⟩, rfl, rfl, rfl, State.readF_doReset _, State.readD_doReset _⟩

/-- Settles O24: the command ends in fault entry, and with ERR = 0 the fault is recorded. -/
theorem unmetPreconditionFaultsUnderDebugChecks : Obligations.UnmetPreconditionFaultsUnderDebugChecks := by
  intro i s _ hr hd he
  rw [(endsChecked_of_not_ready hr).exec_eq_raiseFault hr hd, State.raiseFault_of_ok he]
  rfl

/-- Settles O9: the issue tests ERR before it looks at the value. -/
theorem commandIsDiscardedWhileErr : Obligations.CommandIsDiscardedWhileErr :=
  fun s rest v hp he => (step_of_cmd_write hp).trans (State.issue_of_err (s := s.begin rest) he v)

end Sys2Proof.Proofs
end

section
/-! SUPPORT. The step whose event is a reset or a CTRL write (spec/70_reset_and_hazards.md R270, spec/20_memory.md R56). -/

namespace Sys2Proof.Machine

variable {s : State} {rest : List HostEvent}

theorem step_of_isReset {e : HostEvent} (hp : s.pending = e :: rest) (he : e.IsReset) :
    step s = .next (s.begin rest).doReset :=
  (step_of_pending hp).trans (State.perform_of_isReset he _)

theorem step_of_ctrl_write {v : Digit} (hp : s.pending = .write 0x0303 v :: rest) :
    step s = .next ((s.begin rest).writeCtrl v) := by
  have ht : target 0x0303 = .ctrl := by decide
  rw [step_of_pending hp, State.perform, State.portWrite, ht]

end Sys2Proof.Machine
end

section

open Sys2Proof Sys2Proof.Machine

namespace Sys2Proof.Proofs

/-- Settles O18: the three resets are one and the same step, and a CTRL write with bit 0 = 0 only leaves the queue. -/
theorem resetsClearTheState : Obligations.ResetsClearTheState := by
  refine ⟨fun s e rest hp he => ?_, fun s rest v hp hv => ?_⟩
  · exact ⟨_, step_of_isReset hp he, State.readF_doReset _, State.readD_doReset _, rfl, rfl, rfl, rfl, rfl, rfl⟩
  · have hodd : ¬ v.toNat % 2 = 1 := by omega
    exact (step_of_ctrl_write hp).trans (congrArg _ (State.writeCtrl_of_not_odd hodd _))

end Sys2Proof.Proofs
end
